-- ==== Sys2Proof/Word.lean ====
section
/-!
DEFINITION. The word types of the block: the 32-bit words of the command and response ports, the binary32
patterns its memories hold, and the bytes of its snapshots.
-/

namespace Sys2Proof

/-- A word of a command or response transaction, bit 31 the most significant (00_scope.md R16). -/
abbrev Word := BitVec 32

/-- The 32-bit pattern of one binary32 value: sign in bit 31, exponent in bits 30:23, fraction in bits 22:0
(00_scope.md R16, 30_encoding.md R78). Every pattern is a legal sample. -/
abbrev F32 := BitVec 32

/-- One unsigned byte of a snapshot, or a window index (10_state.md R26, R29, R30). -/
abbrev Byte := BitVec 8

end Sys2Proof
end

