-- ==== Sys2Proof/Config.lean ====
section
/-!
DEFINITION. What an instance fixes (its construction parameters) and the free values: constants with no body, so
that no proof can see what they are.
-/

namespace Sys2Proof

/-- The three units of the block, which share no state (00_scope.md R2). -/
inductive Agent where
  | dly | spa | dba
deriving DecidableEq, Repr

/-- The work buffers whose contents after hardware reset are unspecified (10_state.md R27, R34, R40). -/
inductive WorkBuffer where
  | wre | wim | dwre | dwim
deriving DecidableEq, Repr

/-- The closed set of window kinds (44_window_numerics.md R185 to R190). -/
inductive WindowKind where
  | rectangular | bartlett | hanning | hamming | blackman
deriving DecidableEq, Repr

/-- The construction parameters of an instance, sampled at hardware reset (00_scope.md R7 to R13,
70_reset_and_hazards.md R251). -/
structure Params where
  /-- `D`, the delay-line length in samples (R7). -/
  d : Nat
  /-- `N`, the analysis size of SPA (R9). -/
  n : Nat
  /-- `NB`, the analysis size of DBA (R10). -/
  nb : Nat
  /-- `MIN_DB` (R11). -/
  minDb : F32
  /-- `MAX_DB` (R11). -/
  maxDb : F32
  /-- `ALPHA`, the smoothing factor (R12). -/
  alpha : F32
  /-- `WIN_INIT`, the window index after hardware reset (R13). -/
  winInit : Byte
deriving DecidableEq, Repr

/-- The reference instance, the one `State.reset` is built with. DESIGN CHOICE (log 2), unsafe: the spec leaves the
parameters to the instance; these are the values most of its test vectors use (95_test_vectors.md, conventions). -/
def Config.reference : Params where
  d := 4
  n := 4
  nb := 4
  minDb := 0xC2AA0000#32
  maxDb := 0x00000000#32
  alpha := 0x00000000#32
  winInit := 0#8

/-- The open parameter `FFT_SIZES` of the machine that `State.reset` describes (00_scope.md R14, decision D7).
DESIGN CHOICE (log 2), unsafe: the spec gives no size. -/
def Config.referenceSizes : List Nat := [1, 2, 4, 8, 16, 32]

/-- The sign and payload of the quiet NaN that a unit's `k`-th invalid operation produces: a free draw
(44_window_numerics.md R181, 93_implementation_defined.md U1; log 4). -/
opaque Config.nanDraw : Agent → Nat → BitVec 23

/-- An element of a work buffer after the given hardware reset: unspecified (10_state.md R40; log 5). -/
opaque Config.workAtReset : WorkBuffer → Nat → Nat → F32

/-- A unit's transform scratch after the given hardware reset: unspecified, in size and in contents
(10_state.md R36, R40; log 6). -/
opaque Config.scratchAtReset : Agent → Nat → List F32

/-- What the transform engine leaves in its scratch area, from the size, the input and the earlier contents: not
given (10_state.md R36, 93_implementation_defined.md U3; log 6). -/
opaque Config.scratchAfter : Nat → List (F32 × F32) → List F32 → List F32

/-- The base-10 logarithm on the arguments where the spec fixes no bit pattern (44_window_numerics.md R199; log 7).
The properties L1 to L5 are built around it in `Machine.log10_32`. -/
opaque Config.log10 : F32 → F32

/-- One output bin of the external transform engine, from the size, the input pairs and the bin's index
(44_window_numerics.md R205, R206; log 8). -/
opaque Config.fftBin : Nat → List (F32 × F32) → Nat → F32 × F32

/-- The sign and payload of the one quiet NaN that stands for every drawn NaN at the input of SPA's transform: free,
and the same for all draws, so that no byte depends on a draw (44_window_numerics.md R181; log 23). -/
opaque Config.engineNaN : BitVec 23

/-- A window weight that the model's enclosure of the cosine could not round (44_window_numerics.md R191; log 9). -/
opaque Config.weightOpen : WindowKind → Nat → Nat → F32

end Sys2Proof
end

