-- ==== Sys2Proof/Syntax.lean ====
section
/-!
DEFINITION. The commands of the block, one constructor for each row of the opcode table.
-/

namespace Sys2Proof

/-- A decoded command with its operands (30_encoding.md R72 to R77, R82). A block's length `L` or `Lin` is the
length of its list of samples. -/
inductive Instr where
  /-- PROCESS, format LL: `lout` is the stated length of the host's output buffer (R76). -/
  | process (lout : BitVec 32) (samples : List F32)
  /-- RESET, format Z (R73). -/
  | reset
  /-- PANIC, the second mnemonic of RESET (R88); the decoder gives `reset` for their common word (log 3). -/
  | panic
  /-- FEED, format L (R75). -/
  | feed (samples : List F32)
  /-- TIME, format R (R77). -/
  | time (lout : BitVec 24)
  /-- FREQUENCY, format R (R77). -/
  | frequency (lout : BitVec 24)
  /-- CHANGE_WINDOWING, format I (R74). -/
  | changeWindowing (idx : Byte)
  /-- DB_FEED, format L (R75). -/
  | dbFeed (samples : List F32)
  /-- DB_TIME, format R (R77). -/
  | dbTime (lout : BitVec 24)
  /-- DB_FREQUENCY, format R (R77). -/
  | dbFrequency (lout : BitVec 24)
deriving DecidableEq, Repr

end Sys2Proof
end

