-- ==== Sys2Proof/WellFormed.lean ====
section
/-!
DEFINITION. Which commands an encoding exists for: the block length of formats L and LL is a 24-bit number.
-/

namespace Sys2Proof

/-- A block's length fits the 24-bit length field (30_encoding.md R75, R76). -/
def blockFits (samples : List F32) : Bool := decide (samples.length < 2 ^ 24)

/-- A command that a transaction can carry. The other operands have the width of their field by type
(30_encoding.md R89). -/
def Instr.wf : Instr → Bool
  | .process _ samples => blockFits samples
  | .reset => true
  | .panic => true
  | .feed samples => blockFits samples
  | .time _ => true
  | .frequency _ => true
  | .changeWindowing _ => true
  | .dbFeed samples => blockFits samples
  | .dbTime _ => true
  | .dbFrequency _ => true

end Sys2Proof
end

