-- ==== Sys2Proof/Decode.lean ====
section
/-!
DEFINITION. Decoding of command transactions, total and rejecting by name, and the encoder
(30_encoding.md sections 1, 2 and 4).
-/

namespace Sys2Proof

/-- Why a transaction decodes to no command (30_encoding.md R84). -/
inductive Illegal where
  /-- The opcode is unassigned (R84 (a)). -/
  | unassignedOpcode
  /-- Reserved bits of `arg` are not zero (R84 (b)). -/
  | reservedBits
  /-- The word count disagrees with the format (R84 (c)). -/
  | wordCount
deriving DecidableEq, Repr

/-- The `info` of `E_ILLEGAL` (60_exceptions.md R220, R221). -/
def illegalInfo : Illegal → BitVec 24
  | .unassignedOpcode => 1
  | .reservedBits => 2
  | .wordCount => 3

/-- The five formats (30_encoding.md R72). -/
inductive Format where
  | z | i | r | l | ll
deriving DecidableEq, Repr

/-- The nine assigned opcodes (30_encoding.md R82). -/
inductive Op where
  | process | reset | feed | time | frequency | changeWindowing | dbFeed | dbTime | dbFrequency
deriving DecidableEq, Repr

/-- The opcode numbers of 30_encoding.md R82. -/
def opCode : Op → BitVec 8
  | .process => 0x01
  | .reset => 0x02
  | .feed => 0x10
  | .time => 0x11
  | .frequency => 0x12
  | .changeWindowing => 0x13
  | .dbFeed => 0x20
  | .dbTime => 0x21
  | .dbFrequency => 0x22

/-- The opcode map read backwards; every other value is unassigned (30_encoding.md R82, R84 (a)). -/
def opOf (b : BitVec 8) : Option Op :=
  if b = 0x01 then some .process
  else if b = 0x02 then some .reset
  else if b = 0x10 then some .feed
  else if b = 0x11 then some .time
  else if b = 0x12 then some .frequency
  else if b = 0x13 then some .changeWindowing
  else if b = 0x20 then some .dbFeed
  else if b = 0x21 then some .dbTime
  else if b = 0x22 then some .dbFrequency
  else none

/-- The format an opcode selects (30_encoding.md R82). -/
def formatOf : Op → Format
  | .process => .ll
  | .reset => .z
  | .feed => .l
  | .time => .r
  | .frequency => .r
  | .changeWindowing => .i
  | .dbFeed => .l
  | .dbTime => .r
  | .dbFrequency => .r

/-- `op`, bits 31:24 of the header (30_encoding.md R71). -/
def headerOp (w : Word) : BitVec 8 := w.extractLsb' 24 8

/-- `arg`, bits 23:0 of the header (30_encoding.md R71). -/
def headerArg (w : Word) : BitVec 24 := w.extractLsb' 0 24

/-- `idx`, bits 7:0 of `arg` (30_encoding.md R74). -/
def argIdx (arg : BitVec 24) : Byte := arg.extractLsb' 0 8

/-- The reserved bits `arg[23:8]` of format I (30_encoding.md R74). -/
def argHigh (arg : BitVec 24) : BitVec 16 := arg.extractLsb' 8 16

/-- The number of words a format's header states (30_encoding.md R72, R83). -/
def expectedWords : Format → BitVec 24 → Nat
  | .z, _ => 1
  | .i, _ => 1
  | .r, _ => 1
  | .l, arg => 1 + arg.toNat
  | .ll, arg => 2 + arg.toNat

/-- The reserved bits of a format are zero (30_encoding.md R83). -/
def reservedClear : Format → BitVec 24 → Bool
  | .z, arg => arg == 0
  | .i, arg => argHigh arg == 0
  | .r, _ => true
  | .l, _ => true
  | .ll, _ => true

/-- The command an opcode stands for, with its operands assembled from `arg` and the words after the header
(30_encoding.md R73 to R77, R89). -/
def assembleOperands (op : Op) (arg : BitVec 24) (rest : List Word) : Instr :=
  match op with
  | .process => .process (rest.headD 0) rest.tail
  | .reset => .reset
  | .feed => .feed rest
  | .time => .time arg
  | .frequency => .frequency arg
  | .changeWindowing => .changeWindowing (argIdx arg)
  | .dbFeed => .dbFeed rest
  | .dbTime => .dbTime arg
  | .dbFrequency => .dbFrequency arg

/-- Decoding of the transaction `w0 :: rest`: opcode, then word count, then reserved bits (30_encoding.md R83). -/
def decode (w0 : Word) (rest : List Word) : Except Illegal Instr :=
  match opOf (headerOp w0) with
  | none => .error .unassignedOpcode
  | some op =>
    if rest.length + 1 ≠ expectedWords (formatOf op) (headerArg w0) then .error .wordCount
    else if reservedClear (formatOf op) (headerArg w0) = false then .error .reservedBits
    else .ok (assembleOperands op (headerArg w0) rest)

/-- A header from its two fields (30_encoding.md R71). -/
def header (op : Op) (arg : BitVec 24) : Word := opCode op ++ arg

/-- A block's length as the 24-bit field `L` or `Lin` (30_encoding.md R75, R76). -/
def blockLength (samples : List F32) : BitVec 24 := BitVec.ofNat 24 samples.length

/-- The words of a command (30_encoding.md R72 to R78, R82, R88). -/
def encode : Instr → List Word
  | .process lout samples => header .process (blockLength samples) :: lout :: samples
  | .reset => [header .reset 0]
  | .panic => [header .reset 0]
  | .feed samples => header .feed (blockLength samples) :: samples
  | .time lout => [header .time lout]
  | .frequency lout => [header .frequency lout]
  | .changeWindowing idx => [header .changeWindowing (idx.setWidth 24)]
  | .dbFeed samples => header .dbFeed (blockLength samples) :: samples
  | .dbTime lout => [header .dbTime lout]
  | .dbFrequency lout => [header .dbFrequency lout]

/-- The command that decoding gives for a command's words: itself, but for PANIC, whose word is RESET's
(30_encoding.md R88). -/
def canonical : Instr → Instr
  | .panic => .reset
  | i => i

/-- How many words the transaction with this header has; one for an unassigned opcode. -/
def wordsOfHeader (w0 : Word) : Nat :=
  match opOf (headerOp w0) with
  | none => 1
  | some op => expectedWords (formatOf op) (headerArg w0)

/-- The header of the transaction whose bits are the low `nbits` bits of `w`, bit 0 the least significant bit of
the first word (log 19). -/
def tableHeader (nbits w : Nat) : Word := BitVec.ofNat 32 (w % 2 ^ nbits)

/-- The words after the header of that transaction, up to the length its header states, every bit above `nbits`
zero (log 19). -/
def tableRest (nbits w : Nat) : List Word :=
  let words := max (wordsOfHeader (tableHeader nbits w)) ((nbits + 31) / 32)
  (List.range (words - 1)).map fun k => BitVec.ofNat 32 ((w % 2 ^ nbits) >>> (32 * (k + 1)))

/-- The command the decoder reads from the transaction whose bits are `w`. -/
def decodeTableWord (nbits w : Nat) : Option Instr :=
  match decode (tableHeader nbits w) (tableRest nbits w) with
  | .ok i => some i
  | .error _ => none

end Sys2Proof
end

