-- ==== Sys2Proof/Machine/Float.lean ====
section
/-!
DEFINITION. Binary32 arithmetic (44_window_numerics.md R180 to R183): every operation computes its exact result and
rounds it once, to nearest, ties to even. A finite value is held exactly as a number of units of 2^-149, the
smallest subnormal.
-/

namespace Sys2Proof.Machine

/-- The sign, bit 31 (30_encoding.md R78). -/
def signOf (x : F32) : Bool := x.getLsbD 31

/-- The magnitude bits 30:0: exponent and fraction as one number, which orders magnitudes. -/
def magBits (x : F32) : Nat := x.toNat % 2 ^ 31

/-- The biased exponent, bits 30:23 (30_encoding.md R78). -/
def expField (x : F32) : Nat := magBits x / 2 ^ 23

/-- The fraction, bits 22:0 (30_encoding.md R78). -/
def fracField (x : F32) : Nat := magBits x % 2 ^ 23

/-- The magnitude bits of an infinity. -/
abbrev infBits : Nat := 0x7F800000

def isNaN (x : F32) : Bool := decide (infBits < magBits x)

/-- A quiet NaN: the top fraction bit is set (R181). -/
def isQuietNaN (x : F32) : Bool := decide (infBits + 2 ^ 22 ≤ magBits x)

def isInf (x : F32) : Bool := decide (magBits x = infBits)

def isFinite (x : F32) : Bool := decide (magBits x < infBits)

/-- Either zero. -/
def isZero (x : F32) : Bool := decide (magBits x = 0)

/-- The magnitude of a finite value with magnitude bits `m`, in units of 2^-149. -/
def magUnits (m : Nat) : Nat :=
  if m / 2 ^ 23 = 0 then m % 2 ^ 23 else (2 ^ 23 + m % 2 ^ 23) * 2 ^ (m / 2 ^ 23 - 1)

/-- The magnitude of a finite value, in units of 2^-149. -/
def unitsOf (x : F32) : Nat := magUnits (magBits x)

/-- A finite value, in units of 2^-149. -/
def valueOf (x : F32) : Int := if signOf x then -(unitsOf x : Int) else unitsOf x

/-- The pattern with the given sign and magnitude bits. -/
def pack (s : Bool) (m : Nat) : F32 := BitVec.ofNat 32 ((if s then 2 ^ 31 else 0) + m)

/-- The quotient `num / den` rounded to the nearest integer, ties to even. -/
def roundQuot (num den : Nat) : Nat :=
  if den < 2 * (num % den) ∨ (2 * (num % den) = den ∧ num / den % 2 = 1) then num / den + 1
  else num / den

/-- How far the spacing of binary32 values at `num / den` units exceeds one unit, as a power of two. -/
def spacing (num den : Nat) : Nat := Nat.log2 (num / den) - 23

/-- The magnitude bits of the binary32 value nearest to `num / den` units of 2^-149, ties to even, an infinity on
overflow (44_window_numerics.md R180). In the binade with spacing 2^k units the rounded significand `n` has magnitude
bits `k * 2^23 + n`, also where rounding carries into the next binade. -/
def roundMag (num den : Nat) : Nat :=
  min (spacing num den * 2 ^ 23 + roundQuot num (den * 2 ^ spacing num den)) infBits

def posZero : F32 := 0x00000000#32
def negZero : F32 := 0x80000000#32
def posInf : F32 := 0x7F800000#32
def negInf : F32 := 0xFF800000#32

/-- The literals of 44_window_numerics.md R183. -/
def one32 : F32 := 0x3F800000#32
def twenty32 : F32 := 0x41A00000#32
def oneTwentyEight32 : F32 := 0x43000000#32
def twoFiftyFive32 : F32 := 0x437F0000#32

/-- The feedback gain `G` (00_scope.md R8). -/
def gain : F32 := 0x3F34FDF4#32

/-- The binary32 value nearest to the non-negative rational `num / den` (44_window_numerics.md R183). -/
def rnd32 (num den : Nat) : F32 := BitVec.ofNat 32 (roundMag (num * 2 ^ 149) den)

/-- Conversion of a non-negative integer (44_window_numerics.md R182). -/
def cvt32 (n : Nat) : F32 := rnd32 n 1

/-- The value with the opposite sign. -/
def flipSign (x : F32) : F32 := x ^^^ 0x80000000#32

/-- IEEE 754 addition; `none` is a NaN result (44_window_numerics.md R180, R181). The sign of a zero sum is IEEE 754's:
negative only when both operands are negative (log 21). -/
def addCore (a b : F32) : Option F32 :=
  if isNaN a || isNaN b then none
  else if isInf a then (if isInf b && signOf a != signOf b then none else some a)
  else if isInf b then some b
  else if valueOf a + valueOf b = 0 then some (if signOf a && signOf b then negZero else posZero)
  else some (pack (decide (valueOf a + valueOf b < 0)) (roundMag (valueOf a + valueOf b).natAbs 1))

/-- IEEE 754 subtraction (R180). -/
def subCore (a b : F32) : Option F32 := addCore a (flipSign b)

/-- IEEE 754 multiplication (R180). -/
def mulCore (a b : F32) : Option F32 :=
  if isNaN a || isNaN b then none
  else if (isInf a && isZero b) || (isZero a && isInf b) then none
  else if isInf a || isInf b then some (pack (signOf a != signOf b) infBits)
  else some (pack (signOf a != signOf b) (roundMag (unitsOf a * unitsOf b) (2 ^ 149)))

/-- IEEE 754 division (R180). -/
def divCore (a b : F32) : Option F32 :=
  if isNaN a || isNaN b then none
  else if (isInf a && isInf b) || (isZero a && isZero b) then none
  else if isInf a || isZero b then some (pack (signOf a != signOf b) infBits)
  else if isInf b then some (pack (signOf a != signOf b) 0)
  else some (pack (signOf a != signOf b) (roundMag (unitsOf a * 2 ^ 149) (unitsOf b)))

/-- The integer square root of `m`, one bit of the root at a time: `r` is the part found so far, `b` the number of
bits below it. -/
def rootBits : (b : Nat) → (m r : Nat) → Nat
  | 0, _, r => r
  | b + 1, m, r => if (r + 2 ^ b) * (r + 2 ^ b) ≤ m then rootBits b m (r + 2 ^ b) else rootBits b m r

/-- The integer square root of a number below 2^428. -/
def intRoot (m : Nat) : Nat := rootBits 214 m 0

/-- The magnitude bits of the square root of `u` units of 2^-149. The root, in the same units, is the square root of
`u * 2^149`; it is far above 2^24 units, where no rounding boundary lies strictly between two consecutive
half-integers, so the integer root and whether it is exact decide the rounding. -/
def rootMag (u : Nat) : Nat :=
  roundMag (2 * intRoot (u * 2 ^ 149)
    + (if intRoot (u * 2 ^ 149) * intRoot (u * 2 ^ 149) = u * 2 ^ 149 then 0 else 1)) 2

/-- IEEE 754 square root (R180). -/
def sqrtCore (a : F32) : Option F32 :=
  if isNaN a then none
  else if isZero a then some a
  else if signOf a then none
  else if isInf a then some a
  else some (pack false (rootMag (unitsOf a)))

/-- The quiet NaN with the given sign (bit 22) and payload (bits 21:0). -/
def quietNaN (p : BitVec 23) : F32 := p.extractLsb' 22 1 ++ (0x1FF#9 ++ p.extractLsb' 0 22)

/-- The result of an operation of unit `u` whose draw counter is `d`, with the counter after it: a NaN result takes the
next free draw (44_window_numerics.md R181, log 4). -/
def settle (u : Agent) (r : Option F32) (d : Nat) : F32 × Nat :=
  match r with
  | some v => (v, d)
  | none => (quietNaN (Config.nanDraw u d), d + 1)

def fadd32 (u : Agent) (a b : F32) (d : Nat) : F32 × Nat := settle u (addCore a b) d
def fsub32 (u : Agent) (a b : F32) (d : Nat) : F32 × Nat := settle u (subCore a b) d
def fmul32 (u : Agent) (a b : F32) (d : Nat) : F32 × Nat := settle u (mulCore a b) d
def fdiv32 (u : Agent) (a b : F32) (d : Nat) : F32 × Nat := settle u (divCore a b) d
def fsqrt32 (u : Agent) (a : F32) (d : Nat) : F32 × Nat := settle u (sqrtCore a) d

end Sys2Proof.Machine
end

