-- ==== Sys2Proof/Machine/Window.lean ====
section
/-!
DEFINITION. The window functions and the table of their weights (44_window_numerics.md R185 to R192). A weight is a
rational function of the cosine; the cosine is enclosed between two multiples of 2^-208, and a weight is the one
binary32 value both ends round to.
-/

namespace Sys2Proof.Machine

/-- `Kind`: which window an index selects (44_window_numerics.md R190). -/
def kindOf (i : Byte) : WindowKind :=
  if i = 1 then .bartlett
  else if i = 2 then .hanning
  else if i = 3 then .hamming
  else if i = 4 then .blackman
  else .rectangular

/-- The row of the table a kind has (44_window_numerics.md R191). -/
def kindRow : WindowKind → Nat
  | .rectangular => 0
  | .bartlett => 1
  | .hanning => 2
  | .hamming => 3
  | .blackman => 4

/-- One, in the fixed point of the cosine enclosure. -/
def fixOne : Nat := 2 ^ 208

/-- The integer part of `pi * 2^208`. -/
def piFloor : Nat := 0x3243f6a8885a308d313198a2e03707344a4093822299f31d0082e

/-- The next lower bound of the nested cosine series: `1 - t * c / (j * (j + 1))`, rounded down. -/
def cosStepLo (t c j : Nat) : Nat := fixOne - (t * c / (fixOne * (j * (j + 1))) + 1)

/-- The next upper bound of the nested cosine series, rounded up. -/
def cosStepHi (t c j : Nat) : Nat := fixOne - t * c / (fixOne * (j * (j + 1)))

/-- Bounds of the bracket of the nested cosine series `1 - t/(1*2) (1 - t/(3*4) (1 - ...))` that begins at factor
`j * (j + 1)`, with `t` between `tLo` and `tHi`; the bracket after the last factor lies between 0 and 1. -/
def cosBracket : (terms : Nat) → (tLo tHi j : Nat) → Nat × Nat
  | 0, _, _, _ => (0, fixOne)
  | k + 1, tLo, tHi, j =>
    let c := cosBracket k tLo tHi (j + 2)
    (cosStepLo tHi c.2 j, cosStepHi tLo c.1 j)

/-- Bounds of `cos (2 * pi * n / m)` in fixed point, for `0 < 4 n < m`. -/
def cosQuarter (n m : Nat) : Nat × Nat :=
  let lo := 2 * piFloor * n / m
  let hi := 2 * (piFloor + 1) * n / m + 1
  cosBracket 40 (lo * lo / fixOne) (hi * hi / fixOne + 1) 1

/-- Bounds of `cos (2 * pi * n / m)` in fixed point, for `n < m`. Where the cosine is rational (a multiple of one
half) both bounds are its value; elsewhere the angle is brought to the first quarter turn. -/
def cosBounds (n m : Nat) : Int × Int :=
  let f : Int := fixOne
  if n = 0 then (f, f)
  else if 2 * n = m then (-f, -f)
  else if 4 * n = m ∨ 4 * n = 3 * m then (0, 0)
  else if 6 * n = m ∨ 6 * n = 5 * m then (f / 2, f / 2)
  else if 3 * n = m ∨ 3 * n = 2 * m then (-(f / 2), -(f / 2))
  else
    let k := if 2 * n < m then n else m - n
    if 4 * k < m then
      let c := cosQuarter k m
      (c.1, c.2)
    else
      let c := cosQuarter (m - 2 * k) (2 * m)
      (-(c.2 : Int), -(c.1 : Int))

/-- The weight of a cosine window as a numerator over `weightDen`, from the cosine in fixed point
(44_window_numerics.md R187 to R189): hanning `(1 - c) / 2`, hamming `(27 - 23 c) / 50`, blackman as the source writes
it, `(17 + 25 c + 8 c^2) / 50`. -/
def weightNum (w : WindowKind) (c : Int) : Int :=
  let f : Int := fixOne
  match w with
  | .rectangular => 1
  | .bartlett => 1
  | .hanning => f - c
  | .hamming => 27 * f - 23 * c
  | .blackman => 17 * f * f + 25 * f * c + 8 * c * c

def weightDen (w : WindowKind) : Nat :=
  match w with
  | .rectangular => 1
  | .bartlett => 1
  | .hanning => 2 * fixOne
  | .hamming => 50 * fixOne
  | .blackman => 50 * fixOne * fixOne

/-- The binary32 weight of a cosine window at a bound of the cosine. -/
def weightAt (w : WindowKind) (c : Int) : F32 := rnd32 (weightNum w c).toNat (weightDen w)

/-- `WLUT[w][n]` for an analysis size `m`: the binary32 value nearest to the real weight at `n / m`
(44_window_numerics.md R185 to R191). Where the two bounds of the cosine round apart, the weight is left open. -/
def weight (w : WindowKind) (n m : Nat) : F32 :=
  match w with
  | .rectangular => one32
  | .bartlett => if 2 * n < m then rnd32 (2 * n) m else rnd32 (2 * m - 2 * n) m
  | _ =>
    let c := cosBounds n m
    if weightAt w c.1 = weightAt w c.2 then weightAt w c.1 else Config.weightOpen w n m

/-- The contents of the window table for an analysis size, row by row (44_window_numerics.md R191). -/
def windowTable (m : Nat) : List (List F32) :=
  [WindowKind.rectangular, .bartlett, .hanning, .hamming, .blackman].map fun w =>
    (List.range m).map fun n => weight w n m

end Sys2Proof.Machine
end

