-- ==== Sys2Proof/Machine/Units.lean ====
section
/-!
DEFINITION. The state of the three units as plain data, their values after hardware reset, and the ranges outside
which a value is not a state of the block (10_state.md, 20_memory.md R50 to R53).
-/

namespace Sys2Proof.Machine

/-- A sample accumulator: a buffer of fixed capacity and a fill-length (10_state.md R25, 41_accumulator.md R120). -/
structure Acc where
  buf : List F32
  fill : Nat
deriving DecidableEq, Repr

/-- Unit DLY (10_state.md R21, R24). -/
structure Dly where
  /-- `DL`, the delay line. -/
  dl : List F32
  /-- `CUR`, the cursor. -/
  cur : Nat
  /-- The model's own: the index of the unit's next free NaN draw (log 4). -/
  draws : Nat
deriving DecidableEq, Repr

/-- Unit SPA (10_state.md R25 to R30, R36, R37). -/
structure Spa where
  /-- `ACC` and `FILL`. -/
  acc : Acc
  /-- `WIN`, the window index. -/
  win : Byte
  /-- `WRE`, the real parts of the work buffer. -/
  wre : List F32
  /-- `WIM`, the imaginary parts of the work buffer. -/
  wim : List F32
  /-- `SM`, the smoothing memory. -/
  sm : List F32
  /-- `TSNAP`, the time snapshot. -/
  tsnap : List Byte
  /-- `FSNAP`, the frequency snapshot. -/
  fsnap : List Byte
  /-- `WLUT`, the read-only window table, one row a kind. -/
  wlut : List (List F32)
  /-- The transform engine's scratch area in SPA. -/
  scratch : List F32
  /-- The model's own: the index of the unit's next free NaN draw (log 4). -/
  draws : Nat
deriving DecidableEq, Repr

/-- Unit DBA (10_state.md R32 to R36). -/
structure Dba where
  /-- Accumulator `A`: `ACCA` and `FA`. -/
  a : Acc
  /-- Accumulator `B`: `ACCB` and `FB`. -/
  b : Acc
  /-- `DWRE`, the real parts of the work buffer. -/
  dwre : List F32
  /-- `DWIM`, the imaginary parts of the work buffer. -/
  dwim : List F32
  /-- `DFSNAP`, the magnitude snapshot. -/
  dfsnap : List F32
  /-- The transform engine's scratch area in DBA. -/
  scratch : List F32
  /-- The model's own: the index of the unit's next free NaN draw (log 4). -/
  draws : Nat
deriving DecidableEq, Repr

/-- A memory is in form when it has the length its rule gives; its elements are addressed by index from 0
(10_state.md R31, 20_memory.md R51; log 12). -/
abbrev Memory.wf {α : Type} (len : Nat) (m : List α) : Prop := m.length = len

/-- Legal `D` (00_scope.md R7). -/
abbrev dlyParamsLegal (p : Params) : Prop := 1 ≤ p.d ∧ p.d ≤ 2 ^ 24 - 1

/-- Legal `N`, `MIN_DB`, `MAX_DB`, `ALPHA` (00_scope.md R9, R11, R12); every `WIN_INIT` is legal (R13). -/
abbrev spaParamsLegal (sizes : List Nat) (p : Params) : Prop :=
  (p.n % 2 = 0 ∧ 2 ≤ p.n ∧ p.n ≤ 2 ^ 24 - 2 ∧ p.n ∈ sizes) ∧
  (isFinite p.minDb = true ∧ isFinite p.maxDb = true ∧ valueOf p.minDb < valueOf p.maxDb) ∧
  (isFinite p.alpha = true ∧ 0 ≤ valueOf p.alpha ∧ valueOf p.alpha ≤ valueOf one32)

/-- Legal `NB` (00_scope.md R10). -/
abbrev dbaParamsLegal (sizes : List Nat) (p : Params) : Prop := 1 ≤ p.nb ∧ p.nb ≤ 2 ^ 23 ∧ p.nb ∈ sizes

/-- The legal values of an instance's parameters (00_scope.md R7 to R13). -/
def paramsLegal (sizes : List Nat) (p : Params) : Bool :=
  decide (dlyParamsLegal p ∧ spaParamsLegal sizes p ∧ dbaParamsLegal sizes p)

/-- The values DLY can hold: legal parameters, memories of their lengths, the cursor in range (10_state.md R21, R24,
20_memory.md R53). -/
def dlyInRange (p : Params) (u : Dly) : Bool :=
  decide (dlyParamsLegal p ∧ Memory.wf p.d u.dl ∧ u.cur < p.d)

/-- The values SPA can hold (10_state.md R25 to R30, R37, 20_memory.md R53). -/
def spaInRange (sizes : List Nat) (p : Params) (u : Spa) : Bool :=
  decide (spaParamsLegal sizes p ∧
    (Memory.wf p.n u.acc.buf ∧ u.acc.fill ≤ p.n) ∧
    (Memory.wf p.n u.wre ∧ Memory.wf p.n u.wim) ∧
    Memory.wf (p.n / 2) u.sm ∧ Memory.wf p.n u.tsnap ∧ Memory.wf (p.n / 2) u.fsnap ∧
    (Memory.wf 5 u.wlut ∧ ∀ row ∈ u.wlut, Memory.wf p.n row))

/-- The values DBA can hold (10_state.md R32 to R35, 20_memory.md R53). -/
def dbaInRange (sizes : List Nat) (p : Params) (u : Dba) : Bool :=
  decide (dbaParamsLegal sizes p ∧
    (Memory.wf p.nb u.a.buf ∧ u.a.fill ≤ p.nb) ∧ (Memory.wf p.nb u.b.buf ∧ u.b.fill ≤ p.nb) ∧
    (Memory.wf p.nb u.dwre ∧ Memory.wf p.nb u.dwim) ∧ Memory.wf p.nb u.dfsnap)

/-- An empty accumulator of the given capacity, as hardware reset leaves it (10_state.md R40). -/
def accAtReset (capacity : Nat) : Acc := { buf := List.replicate capacity posZero, fill := 0 }

/-- A work buffer after hardware reset number `k`: free contents (10_state.md R40, log 5). -/
def workAtReset (which : WorkBuffer) (k len : Nat) : List F32 := (List.range len).map (Config.workAtReset which k)

/-- DLY after hardware reset (10_state.md R40); `draws` is the model's own counter, carried over. -/
def dlyAtReset (p : Params) (draws : Nat) : Dly where
  dl := List.replicate p.d posZero
  cur := 0
  draws := draws

/-- SPA after hardware reset number `k` (10_state.md R40). -/
def spaAtReset (p : Params) (k draws : Nat) : Spa where
  acc := accAtReset p.n
  win := p.winInit
  wre := workAtReset .wre k p.n
  wim := workAtReset .wim k p.n
  sm := List.replicate (p.n / 2) posZero
  tsnap := List.replicate p.n 0
  fsnap := List.replicate (p.n / 2) 0
  wlut := windowTable p.n
  scratch := Config.scratchAtReset .spa k
  draws := draws

/-- DBA after hardware reset number `k` (10_state.md R40). -/
def dbaAtReset (p : Params) (k draws : Nat) : Dba where
  a := accAtReset p.nb
  b := accAtReset p.nb
  dwre := workAtReset .dwre k p.nb
  dwim := workAtReset .dwim k p.nb
  dfsnap := List.replicate p.nb posZero
  scratch := Config.scratchAtReset .dba k
  draws := draws

end Sys2Proof.Machine
end

