-- ==== Sys2Proof/Machine/State.lean ====
section
/-!
DEFINITION. The state of the machine, the reasons a step can stop, and the state after hardware reset.
-/

namespace Sys2Proof.Machine

/-- What the host can send to the block between two commands. -/
inductive HostEvent where
  /-- A whole command transaction `w0 :: rest`, never empty (30_encoding.md R70). -/
  | command (w0 : Word) (rest : List Word)
  /-- `HRESET`, which samples the parameters (70_reset_and_hazards.md R250, R251). -/
  | hreset (p : Params)
deriving DecidableEq, Repr

/-- The state of the block (10_state.md R20), its instance constants (R39) and its two ports. -/
structure State where
  /-- The instance's parameters, constant until the next hardware reset (70_reset_and_hazards.md R251). -/
  params : Params
  /-- `FFT_SIZES`, the sizes the external engine accepts (00_scope.md R14). -/
  fftSizes : List Nat
  /-- Unit DLY. -/
  dly : Dly
  /-- Unit SPA. -/
  spa : Spa
  /-- Unit DBA. -/
  dba : Dba
  /-- The model's own: how many hardware resets there have been since `reset` (log 5). -/
  resets : Nat
  /-- The command port: host events not taken yet, oldest first (log 1). -/
  cmds : List HostEvent
  /-- The response port: the responses produced so far, oldest first (log 1). -/
  resps : List (List Word)
deriving DecidableEq, Repr

/-- Why the machine stops: a unit that a command addresses does not hold a state of the block. -/
inductive Fault where
  /-- DLY's parameter, memory length or cursor is outside its range: no rule defines a transition (20_memory.md R53,
  93_implementation_defined.md U9, U13). Raised by the DLY commands. Safe: no command leads there (log 10). -/
  | dlyNotAState
  /-- SPA's parameters, memory lengths or fill-length are outside their ranges (R53, U9, U13). Raised by the SPA
  commands. Safe: no command leads there (log 10). -/
  | spaNotAState
  /-- DBA's parameter, memory lengths or fill-lengths are outside their ranges (R53, U9, U13). Raised by the DBA
  commands. Safe: no command leads there (log 10). -/
  | dbaNotAState
deriving DecidableEq, Repr

/-- Why the model declines an input. -/
inductive Refusal where
  /-- The instruction has no meaning yet. Raised by no arm of this model. Safe. -/
  | notModelled (mnemonic : String)
  /-- A hardware reset with parameters outside their legal values: no such instance exists
  (70_reset_and_hazards.md R251, 93_implementation_defined.md U13). Raised by `step` on an HRESET event. Safe
  (log 11). -/
  | illegalInstance
deriving DecidableEq, Repr

/-- The state an instance comes into existence with (10_state.md R40, 70_reset_and_hazards.md R251), with empty
ports. -/
def State.ofParams (sizes : List Nat) (p : Params) : State where
  params := p
  fftSizes := sizes
  dly := dlyAtReset p 0
  spa := spaAtReset p 0 0
  dba := dbaAtReset p 0 0
  resets := 0
  cmds := []
  resps := []

/-- The machine right after hardware reset of the reference instance (log 2). -/
def State.reset : State := State.ofParams Config.referenceSizes Config.reference

end Sys2Proof.Machine
end

