-- ==== Sys2Proof/Machine/Flags.lean ====
section
/-!
DEFINITION. The block has no flags; its conditions are pure functions of the state (10_state.md R38).
-/

namespace Sys2Proof.Machine

/-- `AccIsFull` (41_accumulator.md R122). -/
def accIsFull (capacity : Nat) (acc : Acc) : Bool := decide (acc.fill = capacity)

/-- The state names of DBA (10_state.md R33). -/
inductive DbaPhase where
  | empty | aFull | bFull | invalid
deriving DecidableEq, Repr

/-- Which of the four states `(FA, FB)` is (10_state.md R33). -/
def dbaPhase (capacity : Nat) (u : Dba) : DbaPhase :=
  if accIsFull capacity u.a then (if accIsFull capacity u.b then .invalid else .aFull)
  else if accIsFull capacity u.b then .bFull
  else .empty

/-- "A completed frame exists" (10_state.md R38, 43_double_buffered.md R165). -/
def frameExists : DbaPhase → Bool
  | .empty => false
  | .aFull => true
  | .bFull => true
  | .invalid => false

/-- Smoothing is enabled exactly when `ALPHA != 0` (44_window_numerics.md R201); either zero disables it (log 13). -/
def smoothingEnabled (p : Params) : Bool := !isZero p.alpha

end Sys2Proof.Machine
end

