-- ==== Sys2Proof/Machine/Operands.lean ====
section
/-!
DEFINITION. The operands of responses: status codes, the header word and the payload words (30_encoding.md R79 to
R81), and the length operands of commands.
-/

namespace Sys2Proof.Machine

/-- The status codes (30_encoding.md R80). -/
inductive Status where
  | ok | illegal | length | tooBig | invariant
deriving DecidableEq, Repr

/-- The code of a status (30_encoding.md R80). -/
def statusCode : Status → BitVec 8
  | .ok => 0x00
  | .illegal => 0x01
  | .length => 0x02
  | .tooBig => 0x03
  | .invariant => 0x04

/-- A response header: status in bits 31:24, info in bits 23:0 (30_encoding.md R79). -/
def responseHeader (st : Status) (info : BitVec 24) : Word := statusCode st ++ info

/-- A length as an `info` field, its low 24 bits (60_exceptions.md R222). -/
def infoOf (n : Nat) : BitVec 24 := BitVec.ofNat 24 n

/-- A condition as an `info` field, 1 or 0 (30_encoding.md R81). -/
def infoFlag (b : Bool) : BitVec 24 := if b then 1 else 0

/-- A snapshot byte as a payload word, zero-extended (30_encoding.md R81). -/
def byteWord (b : Byte) : Word := b.setWidth 32

/-- The window weights of the kind an index selects (44_window_numerics.md R190, R191). -/
def weightsFor (wlut : List (List F32)) (win : Byte) : List F32 := wlut.getD (kindRow (kindOf win)) []

end Sys2Proof.Machine
end

