-- ==== Sys2Proof/Machine/Ops.lean ====
section
/-!
DEFINITION. The shared operations over memories and ports: element read and write, the accumulator's micro-operations,
responding, and reporting an error (the block's only "trap entry").
-/

namespace Sys2Proof.Machine

/-- `MemRead(M, i)`: one whole element (00_scope.md R17, 20_memory.md R51). An index out of range reads nothing. -/
def memRead {α : Type} (m : List α) (i : Nat) : Option α := m[i]?

/-- `MemWrite(M, i, v)`: one whole element (00_scope.md R17, 20_memory.md R51). -/
def memWrite {α : Type} (m : List α) (i : Nat) (v : α) : List α := m.set i v

/-- Consecutive elements written from index `i` up, in order. -/
def memWriteRun {α : Type} : (m : List α) → (i : Nat) → (vs : List α) → List α
  | m, _, [] => m
  | m, i, v :: vs => memWriteRun (memWrite m i v) (i + 1) vs

/-- How many samples an accumulator takes of a sequence (41_accumulator.md R121). -/
def accRoom (capacity : Nat) (acc : Acc) (s : List F32) : Nat := min s.length (capacity - acc.fill)

/-- `AccFill`: append what fits, and give back the unconsumed tail (41_accumulator.md R121). -/
def accFill (capacity : Nat) (acc : Acc) (s : List F32) : Acc × List F32 :=
  let k := accRoom capacity acc s
  ({ buf := memWriteRun acc.buf acc.fill (s.take k), fill := acc.fill + k }, s.drop k)

/-- `AccEmpty`: the fill-length to 0, the buffer untouched (41_accumulator.md R123, log 14). -/
def accEmpty (acc : Acc) : Acc := { acc with fill := 0 }

/-- An operation on each element in order, each one taking the draw counter its predecessor left. -/
def drawMap {α β : Type} (f : α → Nat → β × Nat) : List α → Nat → List β × Nat
  | [], d => ([], d)
  | x :: xs, d =>
    let y := f x d
    let ys := drawMap f xs y.2
    (y.1 :: ys.1, ys.2)

/-- `respond OK(info) [payload]`: one response at the response port (00_scope.md R17, 30_encoding.md R79, R81). -/
def State.respond (s : State) (info : BitVec 24) (payload : List Word) : State :=
  { s with resps := s.resps ++ [responseHeader .ok info :: payload] }

/-- `raise E(info)`: the error response, one word with no payload; no unit changes, nothing is saved, and the block is
ready for the next command, so there is no return from it (00_scope.md R17, 60_exceptions.md R226, R228). -/
def State.raise (s : State) (e : Status) (info : BitVec 24) : State :=
  { s with resps := s.resps ++ [[responseHeader e info]] }

/-- A command that the decoder rejects (60_exceptions.md R221). -/
def State.raiseIllegal (s : State) (why : Illegal) : State := s.raise .illegal (illegalInfo why)

/-- Hardware reset with the parameters `p`: every unit takes its reset value; the ports are the host's, and the
model's own counters go on (70_reset_and_hazards.md R250, R251; log 11). -/
def State.hardwareReset (s : State) (p : Params) : State :=
  { s with
    params := p
    dly := dlyAtReset p s.dly.draws
    spa := spaAtReset p (s.resets + 1) s.spa.draws
    dba := dbaAtReset p (s.resets + 1) s.dba.draws
    resets := s.resets + 1 }

end Sys2Proof.Machine
end

