-- ==== Sys2Proof/Machine/Numerics.lean ====
section
/-!
DEFINITION. The pure functions of 44_window_numerics.md sections 3 to 5. A function that computes takes the draw
counter of its unit and gives it back (log 4).
-/

namespace Sys2Proof.Machine

/-- The byte quantizer (44_window_numerics.md R195), in its closed form: for `t >= 0` the smaller of 255 and
`floor(t + 1/2)`, with `t` in units of 2^-149; 0 for a negative `t` or a NaN. -/
def q8 (t : F32) : Byte :=
  if isNaN t then 0
  else if isInf t then (if signOf t then 0 else 255)
  else if signOf t then 0
  else BitVec.ofNat 8 (min 255 ((2 * unitsOf t + 2 ^ 149) / 2 ^ 150))

/-- `TimeByte` (44_window_numerics.md R196). -/
def timeByte (s : F32) (d : Nat) : Byte × Nat :=
  let u := fadd32 .spa one32 s d
  let t := fmul32 .spa oneTwentyEight32 u.1 u.2
  (q8 t.1, t.2)

/-- `Mag` (44_window_numerics.md R197), in the unit that asks. -/
def mag (u : Agent) (re im : F32) (d : Nat) : F32 × Nat :=
  let a := fmul32 u re re d
  let b := fmul32 u im im a.2
  let c := fadd32 u a.1 b.1 b.2
  fsqrt32 u c.1 c.2

/-- `Norm` (44_window_numerics.md R198). -/
def norm (p : Params) (m : F32) (d : Nat) : F32 × Nat := fdiv32 .spa m (cvt32 p.n) d

/-- A pattern made a NaN, and left alone where it is one. -/
def toNaN (x : F32) : F32 := if isNaN x then x else x ||| 0x7FC00000#32

/-- `log10_32` (44_window_numerics.md R199): a function of its argument alone (L1), with NaN for NaN and negative
arguments (L2), and the values L3, L4, L5; open elsewhere (log 7). -/
def log10_32 (x : F32) : F32 :=
  if isNaN x then toNaN (Config.log10 x)
  else if isZero x then negInf
  else if signOf x then toNaN (Config.log10 x)
  else if isInf x then posInf
  else if x = one32 then posZero
  else Config.log10 x

/-- `ToDb` (44_window_numerics.md R200). -/
def toDb (p : Params) (m : F32) (d : Nat) : F32 × Nat :=
  let q := norm p m d
  fmul32 .spa twenty32 (log10_32 q.1) q.2

/-- `ONE_MINUS_ALPHA` (00_scope.md R12); the difference of finite values is never a NaN (log 15). -/
def oneMinusAlpha (p : Params) : F32 := (subCore one32 p.alpha).getD posZero

/-- `SCALE` (00_scope.md R11, 44_window_numerics.md R203); for a legal instance never a NaN (log 15). -/
def scale (p : Params) : F32 := (divCore twoFiftyFive32 ((subCore p.maxDb p.minDb).getD posZero)).getD posZero

/-- `Smooth` on one bin: the value to be quantized and the bin's new smoothing memory (44_window_numerics.md R201). -/
def smooth (p : Params) (sm v : F32) (d : Nat) : (F32 × F32) × Nat :=
  if smoothingEnabled p then
    let a := fmul32 .spa sm p.alpha d
    let b := fmul32 .spa v (oneMinusAlpha p) a.2
    let c := fadd32 .spa a.1 b.1 b.2
    ((c.1, c.1), c.2)
  else ((v, sm), d)

/-- `FreqByte` (44_window_numerics.md R203). -/
def freqByte (p : Params) (v : F32) (d : Nat) : Byte × Nat :=
  let a := fsub32 .spa v p.minDb d
  let t := fmul32 .spa (scale p) a.1 a.2
  (q8 t.1, t.2)

/-- The whole pipeline of one bin: its new smoothing memory and its byte (44_window_numerics.md R204,
42_analyzer.md R135). -/
def spaBin (p : Params) (sm : F32) (bin : F32 × F32) (d : Nat) : (F32 × Byte) × Nat :=
  let m := mag .spa bin.1 bin.2 d
  let v := toDb p m.1 m.2
  let w := smooth p sm v.1 v.2
  let b := freqByte p w.1.1 w.2
  ((w.1.2, b.1), b.2)

/-- `FFT_n`: `n` output pairs from the input pairs, a function of the input alone (44_window_numerics.md R205, R206;
log 8). -/
def fft (n : Nat) (xs : List (F32 × F32)) : List (F32 × F32) := (List.range n).map (Config.fftBin n xs)

/-- A computed sample as SPA's transform sees it: the draw of a NaN is not seen (44_window_numerics.md R181,
93_implementation_defined.md U1; log 23). -/
def engineValue (x : F32) : F32 := if isNaN x then quietNaN Config.engineNaN else x

end Sys2Proof.Machine
end

