-- ==== Sys2Proof/Machine/Analyzer.lean ====
section
/-!
DEFINITION. Unit SPA: FEED, TIME, FREQUENCY and CHANGE_WINDOWING (42_analyzer.md).
-/

namespace Sys2Proof.Machine

/-- Step 3 of a frame: the time snapshot of the raw samples (42_analyzer.md R132). -/
def spaTime (u : Spa) : List Byte × Nat := drawMap timeByte u.acc.buf u.draws

/-- Step 4 of a frame: the samples under the window in force (42_analyzer.md R133). -/
def spaWindowed (u : Spa) (d : Nat) : List F32 × Nat :=
  drawMap (fun xw => fmul32 .spa xw.1 xw.2) (u.acc.buf.zip (weightsFor u.wlut u.win)) d

/-- The transform's input: real parts with imaginary parts +0.0 (42_analyzer.md R133, 43_double_buffered.md R162). -/
def realInput (xs : List F32) : List (F32 × F32) := xs.map fun x => (x, posZero)

/-- Step 5 of a frame: what the transform is given of the windowed samples, with no draw to be seen in it
(42_analyzer.md R134, 44_window_numerics.md R181; log 23). -/
def spaInput (windowed : List F32) : List (F32 × F32) := realInput (windowed.map engineValue)

/-- Step 6 of a frame: the first N/2 bins, each to its smoothing memory and byte (42_analyzer.md R135). -/
def spaBins (p : Params) (sm : List F32) (out : List (F32 × F32)) (d : Nat) : List (F32 × Byte) × Nat :=
  drawMap (fun sb => spaBin p sb.1 sb.2) (sm.zip (out.take (p.n / 2))) d

/-- `SpaFrame`: steps 3 to 6 on a full accumulator (42_analyzer.md R131). -/
def spaFrame (p : Params) (u : Spa) : Spa :=
  let time := spaTime u
  let windowed := spaWindowed u time.2
  let out := fft p.n (spaInput windowed.1)
  let bins := spaBins p u.sm out windowed.2
  { u with
    tsnap := time.1
    wre := out.map Prod.fst
    wim := out.map Prod.snd
    sm := bins.1.map Prod.fst
    fsnap := bins.1.map Prod.snd
    scratch := Config.scratchAfter p.n (spaInput windowed.1) u.scratch
    draws := bins.2 }

/-- Steps 3 to 7 on a full accumulator: the frame, then the accumulator emptied (42_analyzer.md R130, R131). -/
def spaComplete (p : Params) (u : Spa) : Spa := { spaFrame p u with acc := accEmpty (spaFrame p u).acc }

/-- The frame loop of FEED (42_analyzer.md R130); `fuel` bounds the passes, and a block of `L` samples needs at most
`L + 2` (log 17). -/
def feedLoop (p : Params) : (fuel : Nat) → Spa → List F32 → Bool → Spa × Bool
  | 0, u, _, produced => (u, produced)
  | fuel + 1, u, rem, produced =>
    let r := accFill p.n u.acc rem
    if accIsFull p.n r.1 then
      let after := spaComplete p { u with acc := r.1 }
      if r.2.isEmpty then (after, true) else feedLoop p fuel after r.2 true
    else ({ u with acc := r.1 }, produced)

/-- FEED (42_analyzer.md R130). -/
def execFeed (samples : List F32) (s : State) : Host.Outcome State Fault Refusal :=
  if spaInRange s.fftSizes s.params s.spa then
    let r := feedLoop s.params (samples.length + 2) s.spa samples false
    .next ({ s with spa := r.1 }.respond (infoFlag r.2) [])
  else .fault .spaNotAState

/-- TIME (42_analyzer.md R145). -/
def execTime (lout : BitVec 24) (s : State) : Host.Outcome State Fault Refusal :=
  if spaInRange s.fftSizes s.params s.spa then
    if lout.toNat ≠ s.params.n then .next (s.raise .length (infoOf s.params.n))
    else .next (s.respond (infoOf s.params.n) (s.spa.tsnap.map byteWord))
  else .fault .spaNotAState

/-- FREQUENCY (42_analyzer.md R146). -/
def execFrequency (lout : BitVec 24) (s : State) : Host.Outcome State Fault Refusal :=
  if spaInRange s.fftSizes s.params s.spa then
    if lout.toNat ≠ s.params.n / 2 then .next (s.raise .length (infoOf (s.params.n / 2)))
    else .next (s.respond (infoOf (s.params.n / 2)) (s.spa.fsnap.map byteWord))
  else .fault .spaNotAState

/-- CHANGE_WINDOWING (42_analyzer.md R148). -/
def execChangeWindowing (idx : Byte) (s : State) : Host.Outcome State Fault Refusal :=
  if spaInRange s.fftSizes s.params s.spa then .next ({ s with spa := { s.spa with win := idx } }.respond 0 [])
  else .fault .spaNotAState

end Sys2Proof.Machine
end

