-- ==== Sys2Proof/Machine/Delay.lean ====
section
/-!
DEFINITION. Unit DLY: PROCESS, RESET and PANIC (40_delay.md).
-/

namespace Sys2Proof.Machine

/-- The cursor's advance (10_state.md R24, 44_window_numerics.md R184 (a)). -/
def advance (p : Params) (cur : Nat) : Nat := if cur + 1 < p.d then cur + 1 else 0

/-- `DlyStep`: read first, then add, scale, write back, advance (40_delay.md R103, 20_memory.md R60). -/
def dlyStep (p : Params) (x : F32) (u : Dly) : F32 × Dly :=
  let old := (memRead u.dl u.cur).getD posZero
  let y := fadd32 .dly x old u.draws
  let fed := fmul32 .dly y.1 gain y.2
  (y.1, { dl := memWrite u.dl u.cur fed.1, cur := advance p u.cur, draws := fed.2 })

/-- The sample loop of PROCESS, in index order (40_delay.md R100). -/
def dlyRun (p : Params) : List F32 → Dly → List F32 × Dly
  | [], u => ([], u)
  | x :: xs, u =>
    let y := dlyStep p x u
    let ys := dlyRun p xs y.2
    (y.1 :: ys.1, ys.2)

/-- The delay line cleared to silence and the cursor at 0 (40_delay.md R101). -/
def dlyClear (u : Dly) : Dly := { u with dl := u.dl.map fun _ => posZero, cur := 0 }

/-- PROCESS (40_delay.md R100). -/
def execProcess (lout : BitVec 32) (samples : List F32) (s : State) : Host.Outcome State Fault Refusal :=
  if dlyInRange s.params s.dly then
    if lout.toNat ≠ samples.length then .next (s.raise .length (infoOf samples.length))
    else
      let r := dlyRun s.params samples s.dly
      .next ({ s with dly := r.2 }.respond (infoOf samples.length) r.1)
  else .fault .dlyNotAState

/-- RESET (40_delay.md R101). -/
def execReset (s : State) : Host.Outcome State Fault Refusal :=
  if dlyInRange s.params s.dly then .next ({ s with dly := dlyClear s.dly }.respond 0 [])
  else .fault .dlyNotAState

/-- PANIC, a second name of RESET (40_delay.md R102). -/
def execPanic (s : State) : Host.Outcome State Fault Refusal :=
  if dlyInRange s.params s.dly then .next ({ s with dly := dlyClear s.dly }.respond 0 [])
  else .fault .dlyNotAState

end Sys2Proof.Machine
end

