-- ==== Sys2Proof/Machine/DoubleBuffered.lean ====
section
/-!
DEFINITION. Unit DBA: DB_FEED, DB_TIME and DB_FREQUENCY (43_double_buffered.md).
-/

namespace Sys2Proof.Machine

/-- Whether `A` is the accumulator being filled: in state BFull; in AFull and Empty it is `B`
(43_double_buffered.md R160, R161). -/
def fillsA (capacity : Nat) (u : Dba) : Bool := accIsFull capacity u.b

/-- The accumulator being filled. -/
def filling (capacity : Nat) (u : Dba) : Acc := if fillsA capacity u then u.a else u.b

/-- The accumulator that holds, or stands for, the completed frame. -/
def completed (capacity : Nat) (u : Dba) : Acc := if fillsA capacity u then u.b else u.a

/-- The unit with the two accumulators put back in their places. -/
def putAccs (intoA : Bool) (fill other : Acc) (u : Dba) : Dba :=
  if intoA then { u with a := fill, b := other } else { u with a := other, b := fill }

/-- The magnitudes of all bins (43_double_buffered.md R162). -/
def dbMags (out : List (F32 × F32)) (d : Nat) : List F32 × Nat := drawMap (fun bin => mag .dba bin.1 bin.2) out d

/-- `DbFrame` on the samples of a full accumulator: no window, no scaling, every bin (43_double_buffered.md R162). -/
def dbFrame (capacity : Nat) (samples : List F32) (u : Dba) : Dba :=
  let out := fft capacity (realInput samples)
  let mags := dbMags out u.draws
  { u with
    dwre := out.map Prod.fst
    dwim := out.map Prod.snd
    dfsnap := mags.1
    scratch := Config.scratchAfter capacity (realInput samples) u.scratch
    draws := mags.2 }

/-- The block would fill both accumulators (43_double_buffered.md R163). -/
abbrev oversize (capacity : Nat) (u : Dba) (samples : List F32) : Prop :=
  (capacity - (filling capacity u).fill) + capacity ≤ samples.length

/-- DB_FEED on an accepted block: whether a frame completed, and the unit after it (43_double_buffered.md R161). -/
def dbFeedAccepted (capacity : Nat) (samples : List F32) (u : Dba) : Bool × Dba :=
  let intoA := fillsA capacity u
  let r := accFill capacity (filling capacity u) samples
  if accIsFull capacity r.1 then
    let r2 := accFill capacity (accEmpty (completed capacity u)) r.2
    (true, putAccs intoA r.1 r2.1 (dbFrame capacity r.1.buf u))
  else (false, putAccs intoA r.1 (completed capacity u) u)

/-- DB_FEED (43_double_buffered.md R161, R163, R164; order of checks 60_exceptions.md R227). -/
def execDbFeed (samples : List F32) (s : State) : Host.Outcome State Fault Refusal :=
  if dbaInRange s.fftSizes s.params s.dba then
    if dbaPhase s.params.nb s.dba = .invalid then .next (s.raise .invariant 0)
    else if oversize s.params.nb s.dba samples then
      .next (s.raise .tooBig (infoOf samples.length))
    else
      let r := dbFeedAccepted s.params.nb samples s.dba
      .next ({ s with dba := r.2 }.respond (infoFlag r.1) [])
  else .fault .dbaNotAState

/-- The samples DB_TIME copies out: the completed accumulator's, and those of `A` in state Empty
(43_double_buffered.md R165). -/
def dbTimeSource (capacity : Nat) (u : Dba) : List F32 := (completed capacity u).buf

/-- DB_TIME (43_double_buffered.md R165). -/
def execDbTime (lout : BitVec 24) (s : State) : Host.Outcome State Fault Refusal :=
  if dbaInRange s.fftSizes s.params s.dba then
    if lout.toNat ≠ s.params.nb then .next (s.raise .length (infoOf s.params.nb))
    else if dbaPhase s.params.nb s.dba = .invalid then .next (s.raise .invariant 0)
    else .next (s.respond (infoFlag (frameExists (dbaPhase s.params.nb s.dba))) (dbTimeSource s.params.nb s.dba))
  else .fault .dbaNotAState

/-- DB_FREQUENCY (43_double_buffered.md R166). -/
def execDbFrequency (lout : BitVec 24) (s : State) : Host.Outcome State Fault Refusal :=
  if dbaInRange s.fftSizes s.params s.dba then
    if lout.toNat ≠ s.params.nb then .next (s.raise .length (infoOf s.params.nb))
    else .next (s.respond (infoOf s.params.nb) s.dba.dfsnap)
  else .fault .dbaNotAState

end Sys2Proof.Machine
end

