-- ==== Sys2Proof/Machine/Dispatch.lean ====
section
/-!
DEFINITION. One arm for each command: its meaning.
-/

namespace Sys2Proof.Machine

/-- The meaning of a command (30_encoding.md R82). -/
def exec (i : Instr) (s : State) : Host.Outcome State Fault Refusal :=
  match i with
  | .process lout samples => Sys2Proof.Machine.execProcess lout samples s
  | .reset => Sys2Proof.Machine.execReset s
  | .panic => Sys2Proof.Machine.execPanic s
  | .feed samples => Sys2Proof.Machine.execFeed samples s
  | .time lout => Sys2Proof.Machine.execTime lout s
  | .frequency lout => Sys2Proof.Machine.execFrequency lout s
  | .changeWindowing idx => Sys2Proof.Machine.execChangeWindowing idx s
  | .dbFeed samples => Sys2Proof.Machine.execDbFeed samples s
  | .dbTime lout => Sys2Proof.Machine.execDbTime lout s
  | .dbFrequency lout => Sys2Proof.Machine.execDbFrequency lout s

end Sys2Proof.Machine
end

