-- ==== Sys2Proof/Machine/Fetch.lean ====
section
/-!
DEFINITION. Taking a host event from the command port: a command transaction is decoded and executed, an HRESET makes
a new instance (20_memory.md R58, R59, 70_reset_and_hazards.md R250).
-/

namespace Sys2Proof.Machine

/-- One command transaction: executed, or answered with `E_ILLEGAL` (30_encoding.md R83, 60_exceptions.md R221). -/
def runTransaction (w0 : Word) (rest : List Word) (s : State) : Host.Outcome State Fault Refusal :=
  match decode w0 rest with
  | .ok i => exec i s
  | .error why => .next (s.raiseIllegal why)

/-- One HRESET: a new instance, or none where the parameters are not legal (70_reset_and_hazards.md R251, log 11). -/
def runHardwareReset (p : Params) (s : State) : Host.Outcome State Fault Refusal :=
  if paramsLegal s.fftSizes p then .next (s.hardwareReset p) else .refused .illegalInstance

/-- One host event. -/
def runEvent (e : HostEvent) (s : State) : Host.Outcome State Fault Refusal :=
  match e with
  | .command w0 rest => runTransaction w0 rest s
  | .hreset p => runHardwareReset p s

/-- The port with the transaction `w0 :: rest` next (log 19). -/
def sendFirst (w0 : Word) (rest : List Word) (s : State) : State := { s with cmds := .command w0 rest :: s.cmds }

end Sys2Proof.Machine
end

