-- ==== Sys2Proof/Machine/Step.lean ====
section
/-!
DEFINITION. One step of the machine.
-/

namespace Sys2Proof.Machine

/-- One step: the oldest host event is taken and run as one transition; with none the block waits
(20_memory.md R58, R59, 70_reset_and_hazards.md R252; log 1). -/
def step (s : State) : Host.Outcome State Fault Refusal :=
  match s.cmds with
  | [] => .next s
  | e :: rest => runEvent e { s with cmds := rest }

/-- The state in which the next step takes the transaction whose bits are the low `nbits` bits of `w` (log 19). -/
def State.withFetchWord (s : State) (nbits w : Nat) : State :=
  sendFirst (tableHeader nbits w) (tableRest nbits w) s

end Sys2Proof.Machine
end

