-- ==== Sys2Proof/Safety.lean ====
section
/-!
DEFINITION. What counts as a safe state, and the terms in which claims are made: runs of several commands, results of
operations with free draws, and states that differ only in what no command can observe.
-/

namespace Sys2Proof.Machine

/-! ### The invariants between two commands (10_state.md R41) -/

/-- R41 (i), with DLY's ranges. -/
abbrev dlyInv (p : Params) (u : Dly) : Prop := dlyInRange p u

/-- R41 (ii), with SPA's ranges. -/
abbrev spaInv (sizes : List Nat) (p : Params) (u : Spa) : Prop :=
  spaInRange sizes p u ∧ u.acc.fill < p.n

/-- R41 (iii) and (iv), with DBA's ranges. -/
abbrev dbaInv (sizes : List Nat) (p : Params) (u : Dba) : Prop :=
  dbaInRange sizes p u ∧ dbaPhase p.nb u ≠ .invalid ∧
  (dbaPhase p.nb u = .empty → u.a.fill = 0 ∧ ∀ x ∈ u.a.buf, x = posZero)

/-- The invariants of 10_state.md R41 with legal parameters and every memory of its length (R31). -/
abbrev State.inv (s : State) : Prop :=
  dlyInv s.params s.dly ∧ spaInv s.fftSizes s.params s.spa ∧ dbaInv s.fftSizes s.params s.dba

/-! ### Runs -/

/-- Several commands one after the other; `none` where one of them does not give a next state. -/
def execAll : List Instr → State → Option State
  | [], s => some s
  | i :: is, s =>
    match exec i s with
    | .next t => execAll is t
    | .fault _ => none
    | .refused _ => none

/-- The unit a command addresses (30_encoding.md R82). -/
def agentOf : Instr → Agent
  | .process _ _ => .dly
  | .reset => .dly
  | .panic => .dly
  | .feed _ => .spa
  | .time _ => .spa
  | .frequency _ => .spa
  | .changeWindowing _ => .spa
  | .dbFeed _ => .dba
  | .dbTime _ => .dba
  | .dbFrequency _ => .dba

/-- The response word with the given status code and info (30_encoding.md R79). -/
def statusWord (code info : Nat) : Word := BitVec.ofNat 32 (code * 2 ^ 24 + info)

/-! ### Results with free draws (44_window_numerics.md R181) -/

/-- `y` is a result of an operation whose value is `r`: that value, or any quiet NaN where there is none. -/
def isResult (r : Option F32) (y : F32) : Prop :=
  match r with
  | some v => y = v
  | none => isQuietNaN y = true

/-- The same value: the same pattern, or a NaN on both sides. -/
def sameValue (x y : F32) : Prop := x = y ∨ (isNaN x = true ∧ isNaN y = true)

/-- `m` is a magnitude of the complex bin `(re, im)` (44_window_numerics.md R197). -/
def magResult (re im m : F32) : Prop :=
  ∃ a b c, isResult (mulCore re re) a ∧ isResult (mulCore im im) b ∧ isResult (addCore a b) c ∧
    isResult (sqrtCore c) m

/-- `w` is the value to be quantized and `sm'` the new smoothing memory, from the decibels `v` and the old memory `sm`
(44_window_numerics.md R201). -/
def smoothResult (p : Params) (sm v w sm' : F32) : Prop :=
  if isZero p.alpha then w = v ∧ sm' = sm
  else ∃ a b, isResult (mulCore sm p.alpha) a ∧ isResult (mulCore v (oneMinusAlpha p)) b ∧
    isResult (addCore a b) w ∧ sm' = w

/-- `sm'` and `byte` are results of the pipeline of one bin (44_window_numerics.md R204). -/
def binResult (p : Params) (sm : F32) (bin : F32 × F32) (sm' : F32) (byte : Byte) : Prop :=
  ∃ m q v w g t, magResult bin.1 bin.2 m ∧ isResult (divCore m (cvt32 p.n)) q ∧
    isResult (mulCore twenty32 (log10_32 q)) v ∧ smoothResult p sm v w sm' ∧
    isResult (subCore w p.minDb) g ∧ isResult (mulCore (scale p) g) t ∧ byte = q8 t

/-- The real number a finite value stands for. -/
noncomputable def realOf (x : F32) : ℝ := (valueOf x : ℝ) / 2 ^ 149

/-- `v` is a binary32 value nearest to `x`, even where two are equally near (44_window_numerics.md R180, R183). -/
def isNearest (v : F32) (x : ℝ) : Prop :=
  isFinite v = true ∧ ∀ w : F32, isFinite w = true →
    |realOf v - x| ≤ |realOf w - x| ∧ (|realOf v - x| = |realOf w - x| → realOf w ≠ realOf v → magBits v % 2 = 0)

/-! ### DBA's stream (43_double_buffered.md R168) -/

/-- The samples in the accumulator being filled. -/
def pending (capacity : Nat) (u : Dba) : List F32 := (filling capacity u).buf.take (filling capacity u).fill

/-! ### What no command can observe -/

/-- `t` is `s` with other contents of the work buffers and of the transform scratch (10_state.md R27, R34, R36). -/
def sameButWork (s t : State) : Prop :=
  t = { s with
    spa := { s.spa with wre := t.spa.wre, wim := t.spa.wim, scratch := t.spa.scratch }
    dba := { s.dba with dwre := t.dba.dwre, dwim := t.dba.dwim, scratch := t.dba.scratch } } ∧
  (t.spa.wre.length = s.spa.wre.length ∧ t.spa.wim.length = s.spa.wim.length) ∧
  (t.dba.dwre.length = s.dba.dwre.length ∧ t.dba.dwim.length = s.dba.dwim.length)

/-- Two accumulators with the same fill-length and the same samples below it (41_accumulator.md R123). -/
def sameSamples (x y : Acc) : Prop :=
  x.fill = y.fill ∧ x.buf.length = y.buf.length ∧ x.buf.take x.fill = y.buf.take y.fill

/-- `t` is `s` with other stale samples: elements at or above the fill-length of SPA's accumulator and of the DBA
accumulator being filled (70_reset_and_hazards.md R264). -/
def sameButStale (s t : State) : Prop :=
  t = { s with
    spa := { s.spa with acc := t.spa.acc }
    dba := { s.dba with a := t.dba.a, b := t.dba.b } } ∧
  sameSamples s.spa.acc t.spa.acc ∧
  fillsA s.params.nb s.dba = fillsA s.params.nb t.dba ∧
  sameSamples (filling s.params.nb s.dba) (filling s.params.nb t.dba) ∧
  completed s.params.nb s.dba = completed s.params.nb t.dba

/-! ### Named assumptions about the open functions -/

/-- L6: the logarithm is monotone on positive arguments (44_window_numerics.md R199). An assumption, used by no
definition (log 7). -/
def Log10Monotone : Prop :=
  ∀ x y : F32, isFinite x = true → isFinite y = true → 0 < valueOf x → valueOf x ≤ valueOf y →
    isFinite (log10_32 x) = true ∧ isFinite (log10_32 y) = true ∧ valueOf (log10_32 x) ≤ valueOf (log10_32 y)

/-- L7: for a positive finite argument the logarithm is within one unit in the last place of the result
(44_window_numerics.md R199). An assumption, used by no definition (log 7). -/
def Log10WithinOneUlp : Prop :=
  ∀ x : F32, isFinite x = true → 0 < valueOf x →
    isFinite (log10_32 x) = true ∧
    |realOf (log10_32 x) - Real.logb 10 (realOf x)| < 2 ^ (expField (log10_32 x) - 1) / (2 ^ 149 : ℝ)

/-- The real window functions (44_window_numerics.md R185 to R189). -/
noncomputable def weightReal (w : WindowKind) (r : ℝ) : ℝ :=
  match w with
  | .rectangular => 1
  | .bartlett => if r < 1 / 2 then 2 * r else 2 - 2 * r
  | .hanning => 0.5 - 0.5 * Real.cos (2 * Real.pi * r)
  | .hamming => 0.54 - 0.46 * Real.cos (2 * Real.pi * r)
  | .blackman => 0.42 + 0.5 * Real.cos (2 * Real.pi * r) + 0.08 * Real.cos (4 * Real.pi * r)

end Sys2Proof.Machine
end

