-- ==== Sys2Proof/Certificates/Slice0/Obligations.lean ====
section
/-!
DEFINITION. The statements for the provers.
-/

open Sys2Proof Sys2Proof.Machine

/-! ### Encoding and stepping -/

/-- Decoding the words of a well-formed command gives the command back, with every operand at every value the encoding
admits; PANIC's word is RESET's (30_encoding.md R72 to R78, R82, R88). -/
def Obligations.DecodeOfEncodeIsCanonical : Prop :=
  ∀ i : Instr, i.wf = true → ∃ w0 rest, encode i = w0 :: rest ∧ decode w0 rest = .ok (canonical i)

/-- Every transaction that decodes to a command is that command's encoding, and the command is well-formed. -/
def Obligations.DecodedCommandEncodesBack : Prop :=
  ∀ (w0 : Word) (rest : List Word) (i : Instr), decode w0 rest = .ok i → encode i = w0 :: rest ∧ i.wf = true

/-- The decoder rejects by the first of: an unassigned opcode, a word count other than the header states, non-zero
reserved bits; and accepts everything else (30_encoding.md R82, R83, R84). Written on the header as a number. -/
def Obligations.DecodeRejectsInOrder : Prop :=
  ∀ (w0 : Word) (rest : List Word),
    let op := w0.toNat / 2 ^ 24
    let arg := w0.toNat % 2 ^ 24
    let assigned := op ∈ [0x01, 0x02, 0x10, 0x11, 0x12, 0x13, 0x20, 0x21, 0x22]
    let words := if op = 0x01 then 2 + arg else if op = 0x10 ∨ op = 0x20 then 1 + arg else 1
    let reserved := (op = 0x02 ∧ arg ≠ 0) ∨ (op = 0x13 ∧ arg / 2 ^ 8 ≠ 0)
    (decode w0 rest = .error .unassignedOpcode ↔ ¬ assigned) ∧
    (decode w0 rest = .error .wordCount ↔ assigned ∧ rest.length + 1 ≠ words) ∧
    (decode w0 rest = .error .reservedBits ↔ assigned ∧ rest.length + 1 = words ∧ reserved) ∧
    ((∃ i, decode w0 rest = .ok i) ↔ assigned ∧ rest.length + 1 = words ∧ ¬ reserved)

/-- A few transactions written out from the spec's encoding tables decode to the commands they stand for
(95_test_vectors.md V-E1). -/
def Obligations.WordsOfTheSpecDecode : Prop :=
  decode 0x01000002 [0x00000003, 0x3F000000, 0xBE800000] = .ok (.process 3 [0x3F000000, 0xBE800000]) ∧
  decode 0x02000000 [] = .ok .reset ∧
  decode 0x10000003 [0x3F800000, 0x00000000, 0xBF800000] = .ok (.feed [0x3F800000, 0x00000000, 0xBF800000]) ∧
  decode 0x13000003 [] = .ok (.changeWindowing 3) ∧
  decode 0x20000001 [0x40000000] = .ok (.dbFeed [0x40000000]) ∧
  decode 0x21000004 [] = .ok (.dbTime 4)

/-- Where the oldest host event is a transaction that decodes to a command, a step takes it from the command port and is
that command's execution (20_memory.md R58, R59). -/
def Obligations.StepRunsDecodedCommand : Prop :=
  ∀ (s : State) (w0 : Word) (rest : List Word) (later : List HostEvent) (i : Instr),
    s.cmds = .command w0 rest :: later → decode w0 rest = .ok i → step s = exec i { s with cmds := later }

/-- Where the oldest host event is a transaction that decodes to no command, a step answers `E_ILLEGAL` with the reason
and changes nothing else (30_encoding.md R84, 60_exceptions.md R221, R226). -/
def Obligations.StepAnswersIllegalTransaction : Prop :=
  ∀ (s : State) (w0 : Word) (rest : List Word) (later : List HostEvent) (why : Illegal),
    s.cmds = .command w0 rest :: later → decode w0 rest = .error why →
    step s = .next { s with
      cmds := later
      resps := s.resps ++ [[statusWord 1 (match why with
        | .unassignedOpcode => 1
        | .reservedBits => 2
        | .wordCount => 3)]] }

/-- A step with no host event waits: nothing changes (70_reset_and_hazards.md R252; the waiting step is the model's
choice, log 1). -/
def Obligations.StepWaitsWithoutEvent : Prop :=
  ∀ s : State, s.cmds = [] → step s = .next s

/-- An HRESET with legal parameters makes the instance with these parameters: every memory has its length, every element
the spec gives a reset value has it, and SPA's window table holds the weights of `N` (10_state.md R40,
44_window_numerics.md R191, 70_reset_and_hazards.md R250, R251). That the host's two ports and the engine's sizes are as
before is the model's choice (log 11). -/
def Obligations.HardwareResetGivesResetValues : Prop :=
  ∀ (s : State) (p : Params) (later : List HostEvent),
    s.cmds = .hreset p :: later → paramsLegal s.fftSizes p = true →
    ∃ t, step s = .next t ∧ t.params = p ∧ t.fftSizes = s.fftSizes ∧ t.cmds = later ∧ t.resps = s.resps ∧
      t.dly.dl = List.replicate p.d 0x00000000#32 ∧ t.dly.cur = 0 ∧
      t.spa.acc = { buf := List.replicate p.n 0x00000000#32, fill := 0 } ∧ t.spa.win = p.winInit ∧
      t.spa.wre.length = p.n ∧ t.spa.wim.length = p.n ∧ t.spa.sm = List.replicate (p.n / 2) 0x00000000#32 ∧
      t.spa.tsnap = List.replicate p.n 0#8 ∧ t.spa.fsnap = List.replicate (p.n / 2) 0#8 ∧
      t.spa.wlut = windowTable p.n ∧
      t.dba.a = { buf := List.replicate p.nb 0x00000000#32, fill := 0 } ∧
      t.dba.b = { buf := List.replicate p.nb 0x00000000#32, fill := 0 } ∧
      t.dba.dwre.length = p.nb ∧ t.dba.dwim.length = p.nb ∧ t.dba.dfsnap = List.replicate p.nb 0x00000000#32

/-- An HRESET is refused where a parameter is outside its legal values, and makes an instance where all are legal
(00_scope.md R7 to R12, 70_reset_and_hazards.md R251). -/
def Obligations.IllegalInstanceIsRefused : Prop :=
  ∀ (s : State) (p : Params) (later : List HostEvent), s.cmds = .hreset p :: later →
    let legal :=
      (1 ≤ p.d ∧ p.d ≤ 16777215) ∧
      (p.n % 2 = 0 ∧ 2 ≤ p.n ∧ p.n ≤ 16777214 ∧ p.n ∈ s.fftSizes) ∧
      (1 ≤ p.nb ∧ p.nb ≤ 8388608 ∧ p.nb ∈ s.fftSizes) ∧
      (isFinite p.minDb = true ∧ isFinite p.maxDb = true ∧ realOf p.minDb < realOf p.maxDb) ∧
      (isFinite p.alpha = true ∧ 0 ≤ realOf p.alpha ∧ realOf p.alpha ≤ 1)
    (¬ legal → step s = .refused .illegalInstance) ∧ (legal → ∃ t, step s = .next t ∧ t.params = p)

/-! ### Unit DLY -/

/-- PROCESS with equal lengths completes; output `n` is the sum of sample `n` and the value the delay line holds for it,
which is the stored one for the first `D` samples and `G` times output `n - D` after them; at the end the cursor has
advanced by the block's length, the visited elements hold `G` times the last output at them, and nothing else has
changed (40_delay.md R100, R103). -/
def Obligations.ProcessComputesDelayRecurrence : Prop :=
  ∀ (s : State) (xs : List F32), dlyInRange s.params s.dly = true → xs.length < 2 ^ 24 →
    ∃ (ys : List F32) (u : Dly),
      exec (.process (BitVec.ofNat 32 xs.length) xs) s =
        .next { s with dly := u, resps := s.resps ++ [statusWord 0 xs.length :: ys] } ∧
      ys.length = xs.length ∧ u.dl.length = s.params.d ∧
      u.cur = (s.dly.cur + xs.length) % s.params.d ∧
      (∀ (n : Nat) (x y : F32), xs[n]? = some x → ys[n]? = some y → ∃ old,
        (if n < s.params.d then s.dly.dl[(s.dly.cur + n) % s.params.d]? = some old
         else ∃ y', ys[n - s.params.d]? = some y' ∧ isResult (mulCore y' 0x3F34FDF4#32) old) ∧
        isResult (addCore x old) y) ∧
      (∀ (n : Nat) (y : F32), ys[n]? = some y → xs.length ≤ n + s.params.d →
        ∃ fed, u.dl[(s.dly.cur + n) % s.params.d]? = some fed ∧ isResult (mulCore y 0x3F34FDF4#32) fed) ∧
      (∀ n, xs.length ≤ n → n < s.params.d →
        u.dl[(s.dly.cur + n) % s.params.d]? = s.dly.dl[(s.dly.cur + n) % s.params.d]?)

/-- A stated length other than the required one is reported with the required length, and nothing else changes
(60_exceptions.md R222, R226, R227). -/
def Obligations.LengthMismatchIsReported : Prop :=
  ∀ (s : State),
    (∀ (lout : BitVec 32) (xs : List F32), dlyInRange s.params s.dly = true → xs.length < 2 ^ 24 →
      lout.toNat ≠ xs.length →
      exec (.process lout xs) s = .next { s with resps := s.resps ++ [[statusWord 2 xs.length]] }) ∧
    (∀ lout : BitVec 24, spaInRange s.fftSizes s.params s.spa = true → lout.toNat ≠ s.params.n →
      exec (.time lout) s = .next { s with resps := s.resps ++ [[statusWord 2 s.params.n]] }) ∧
    (∀ lout : BitVec 24, spaInRange s.fftSizes s.params s.spa = true → lout.toNat ≠ s.params.n / 2 →
      exec (.frequency lout) s = .next { s with resps := s.resps ++ [[statusWord 2 (s.params.n / 2)]] }) ∧
    (∀ lout : BitVec 24, dbaInRange s.fftSizes s.params s.dba = true → lout.toNat ≠ s.params.nb →
      exec (.dbTime lout) s = .next { s with resps := s.resps ++ [[statusWord 2 s.params.nb]] } ∧
      exec (.dbFrequency lout) s = .next { s with resps := s.resps ++ [[statusWord 2 s.params.nb]] })

/-- PROCESS of a block in two parts gives the outputs of the whole block in two payloads, and the same state of DLY
(40_delay.md R107). -/
def Obligations.ProcessChunksLikeOneBlock : Prop :=
  ∀ (s : State) (xs ys : List F32), dlyInRange s.params s.dly = true → xs.length + ys.length < 2 ^ 24 →
    ∃ (t t2 : State) (us vs : List F32),
      execAll [.process (BitVec.ofNat 32 xs.length) xs, .process (BitVec.ofNat 32 ys.length) ys] s = some t ∧
      t.resps = s.resps ++ [statusWord 0 xs.length :: us, statusWord 0 ys.length :: vs] ∧
      us.length = xs.length ∧ vs.length = ys.length ∧
      execAll [.process (BitVec.ofNat 32 (xs.length + ys.length)) (xs ++ ys)] s = some t2 ∧
      t2.resps = s.resps ++ [statusWord 0 (xs.length + ys.length) :: (us ++ vs)] ∧ t.dly = t2.dly

/-- From a silent delay line with the cursor at 0, over any sequence of PROCESS commands: output `n` is sample `n` plus
`+0.0` for `n < D`, and plus `G` times output `n - D` from then on (40_delay.md R104). -/
def Obligations.DelayRecurrenceFromReset : Prop :=
  ∀ (s : State) (blocks : List (List F32)), dlyInRange s.params s.dly = true →
    (∀ x ∈ s.dly.dl, x = 0x00000000#32) → s.dly.cur = 0 → (∀ b ∈ blocks, b.length < 2 ^ 24) →
    ∃ (t : State) (outs : List (List F32)),
      execAll (blocks.map fun b => .process (BitVec.ofNat 32 b.length) b) s = some t ∧
      t.resps = s.resps ++ outs.map (fun ys => statusWord 0 ys.length :: ys) ∧
      outs.map List.length = blocks.map List.length ∧
      t.dly.cur = blocks.flatten.length % s.params.d ∧
      ∀ (n : Nat) (x y : F32), blocks.flatten[n]? = some x → outs.flatten[n]? = some y → ∃ old,
        (if n < s.params.d then old = 0x00000000#32
         else ∃ y', outs.flatten[n - s.params.d]? = some y' ∧ isResult (mulCore y' 0x3F34FDF4#32) old) ∧
        isResult (addCore x old) y

/-- RESET, and PANIC with it, clears the delay line and the cursor and changes nothing else of any unit
(40_delay.md R101, R102). -/
def Obligations.ResetClearsOnlyTheDelayLine : Prop :=
  ∀ (s : State), dlyInRange s.params s.dly = true → ∀ i ∈ [Instr.reset, Instr.panic],
    exec i s = .next { s with
      dly := { dl := List.replicate s.params.d 0x00000000#32, cur := 0, draws := s.dly.draws }
      resps := s.resps ++ [[0x00000000#32]] }

/-- PANIC is RESET: the same encoding, the same execution (40_delay.md R102, 30_encoding.md R88). -/
def Obligations.PanicIsReset : Prop :=
  encode .panic = [0x02000000#32] ∧ encode .reset = [0x02000000#32] ∧ ∀ s : State, exec .panic s = exec .reset s

/-- From a silent delay line, zeros of either sign give outputs `+0.0` and leave the line silent (40_delay.md R105). -/
def Obligations.SilenceInSilenceOut : Prop :=
  ∀ (s : State) (xs : List F32), dlyInRange s.params s.dly = true → (∀ x ∈ s.dly.dl, x = 0x00000000#32) →
    (∀ x ∈ xs, x = 0x00000000#32 ∨ x = 0x80000000#32) → xs.length < 2 ^ 24 →
    ∃ t, exec (.process (BitVec.ofNat 32 xs.length) xs) s = .next t ∧
      t.resps = s.resps ++ [statusWord 0 xs.length :: List.replicate xs.length 0x00000000#32] ∧
      ∀ x ∈ t.dly.dl, x = 0x00000000#32

/-- After RESET, from any prior state, each of the first `D` samples comes out as it went in, but for `-0.0`, which comes
out as `+0.0`, and a NaN, which comes out as a quiet NaN (40_delay.md R106). -/
def Obligations.NoMemoryAcrossReset : Prop :=
  ∀ (s : State) (xs : List F32), dlyInRange s.params s.dly = true → xs.length ≤ s.params.d →
    ∃ (t : State) (ys : List F32),
      execAll [.reset, .process (BitVec.ofNat 32 xs.length) xs] s = some t ∧
      t.resps = s.resps ++ [[0x00000000#32], statusWord 0 xs.length :: ys] ∧ ys.length = xs.length ∧
      ∀ (n : Nat) (x y : F32), xs[n]? = some x → ys[n]? = some y →
        (isNaN x = true → isQuietNaN y = true) ∧ (isNaN x = false → x ≠ 0x80000000#32 → y = x) ∧
        (x = 0x80000000#32 → y = 0x00000000#32)

/-- A NaN in the delay line stays a NaN through every PROCESS, and every output at its index is a NaN
(70_reset_and_hazards.md R265, 40_delay.md R100 corner case (e)). -/
def Obligations.NaNInDelayLinePersists : Prop :=
  ∀ (s : State) (xs : List F32) (j : Nat) (x : F32), dlyInRange s.params s.dly = true → xs.length < 2 ^ 24 →
    s.dly.dl[j]? = some x → isNaN x = true →
    ∃ (t : State) (ys : List F32), exec (.process (BitVec.ofNat 32 xs.length) xs) s = .next t ∧
      t.resps = s.resps ++ [statusWord 0 xs.length :: ys] ∧
      (∃ x', t.dly.dl[j]? = some x' ∧ isNaN x' = true) ∧
      ∀ (n : Nat) (y : F32), ys[n]? = some y → (s.dly.cur + n) % s.params.d = j → isNaN y = true

/-- An echo that has decayed to the smallest subnormal stays there: it comes out for every zero sample and never dies
(40_delay.md R100 corner case (h)). -/
def Obligations.SmallestEchoNeverDies : Prop :=
  ∀ (s : State) (xs : List F32), dlyInRange s.params s.dly = true → xs.length < 2 ^ 24 →
    (∀ x ∈ s.dly.dl, x = 0x00000001#32) → (∀ x ∈ xs, x = 0x00000000#32) →
    ∃ t, exec (.process (BitVec.ofNat 32 xs.length) xs) s = .next t ∧
      t.resps = s.resps ++ [statusWord 0 xs.length :: List.replicate xs.length 0x00000001#32] ∧
      ∀ x ∈ t.dly.dl, x = 0x00000001#32

/-! ### The accumulator -/

/-- `AccFill` copies what fits to the fill position, bit for bit, touches no other element, advances the fill-length and
gives the unconsumed tail back (41_accumulator.md R121). -/
def Obligations.AccFillCopiesWhatFits : Prop :=
  ∀ (c : Nat) (acc : Acc) (xs : List F32), acc.buf.length = c → acc.fill ≤ c →
    let r := accFill c acc xs
    let k := min xs.length (c - acc.fill)
    (∀ j, j < k → r.1.buf[acc.fill + j]? = xs[j]?) ∧
    (∀ j, j < acc.fill ∨ acc.fill + k ≤ j → r.1.buf[j]? = acc.buf[j]?) ∧
    r.1.buf.length = c ∧ r.1.fill = acc.fill + k ∧ r.2 = xs.drop k

/-- Any sequence of `AccFill` calls from an empty accumulator holds the first samples of the concatenation, as many as
fit (41_accumulator.md R124 (ii)). -/
def Obligations.AccFillSequenceIsOneFill : Prop :=
  ∀ (c : Nat) (acc : Acc) (blocks : List (List F32)), acc.buf.length = c → acc.fill = 0 →
    let last := blocks.foldl (fun a b => (accFill c a b).1) acc
    last.fill = min blocks.flatten.length c ∧ last.buf.take last.fill = blocks.flatten.take last.fill

/-! ### Unit SPA -/

/-- FEED completes on every block: it says whether a frame completed, the fill-length is the sum modulo `N`, the
accumulator holds the samples after the last frame, the window index and table are as before; without a frame nothing
but the accumulator changes, and its elements above the fill-length do not (42_analyzer.md R130). -/
def Obligations.FeedConsumesTheBlock : Prop :=
  ∀ (s : State) (xs : List F32), spaInv s.fftSizes s.params s.spa →
    let n := s.params.n
    let total := s.spa.acc.fill + xs.length
    ∃ u : Spa,
      exec (.feed xs) s = .next { s with
        spa := u, resps := s.resps ++ [[statusWord 0 (if n ≤ total then 1 else 0)]] } ∧
      u.acc.fill = total % n ∧ u.acc.buf.length = n ∧ u.win = s.spa.win ∧ u.wlut = s.spa.wlut ∧
      u.acc.buf.take u.acc.fill = (s.spa.acc.buf.take s.spa.acc.fill ++ xs).drop (total / n * n) ∧
      (total < n → u = { s.spa with acc := u.acc } ∧
        u.acc.buf.drop u.acc.fill = s.spa.acc.buf.drop u.acc.fill)

/-- After a FEED that completes a frame the time snapshot is the byte view of the last completed frame's raw samples,
whatever was drawn, and the accumulator's elements above the fill-length are that frame's (42_analyzer.md R130,
R132). -/
def Obligations.TimeSnapshotIsOfLastFrame : Prop :=
  ∀ (s t : State) (xs : List F32), spaInv s.fftSizes s.params s.spa → exec (.feed xs) s = .next t →
    s.params.n ≤ s.spa.acc.fill + xs.length →
    let n := s.params.n
    let frames := (s.spa.acc.fill + xs.length) / n
    let last := ((s.spa.acc.buf.take s.spa.acc.fill ++ xs).drop ((frames - 1) * n)).take n
    t.spa.tsnap.length = n ∧ (∀ (j : Nat) (x : F32) (d : Nat), last[j]? = some x → t.spa.tsnap[j]? = some (timeByte x d).1) ∧
    t.spa.acc.buf.drop t.spa.acc.fill = last.drop t.spa.acc.fill

/-- A FEED that completes exactly one frame, with or without samples left over: the frame is windowed with the window in
force, transformed, and each of the first `N/2` bins goes through the pipeline of R204; the samples left over lie in the
accumulator over the frame's (42_analyzer.md R130, R131, R133 to R135). That the transform sees one NaN for all draws is
log 23, that a negative zero `ALPHA` disables smoothing is log 13. -/
def Obligations.FeedProcessesOneFrame : Prop :=
  ∀ (s : State) (xs : List F32), spaInv s.fftSizes s.params s.spa →
    s.params.n ≤ s.spa.acc.fill + xs.length → s.spa.acc.fill + xs.length < 2 * s.params.n →
    let frame := s.spa.acc.buf.take s.spa.acc.fill ++ xs.take (s.params.n - s.spa.acc.fill)
    let rest := xs.drop (s.params.n - s.spa.acc.fill)
    ∃ (u : Spa) (row ws : List F32),
      exec (.feed xs) s = .next { s with spa := u, resps := s.resps ++ [[0x00000001#32]] } ∧
      u.acc = { buf := rest ++ frame.drop rest.length, fill := rest.length } ∧
      s.spa.wlut[kindRow (kindOf s.spa.win)]? = some row ∧ ws.length = s.params.n ∧
      (∀ (j : Nat) (x w : F32), frame[j]? = some x → row[j]? = some w → ∃ y, ws[j]? = some y ∧ isResult (mulCore x w) y) ∧
      (let out := fft s.params.n (ws.map fun re => (engineValue re, 0x00000000#32))
       u.wre = out.map Prod.fst ∧ u.wim = out.map Prod.snd ∧
       u.sm.length = s.params.n / 2 ∧ u.fsnap.length = s.params.n / 2 ∧
       ∀ k, k < s.params.n / 2 → ∃ sm bin sm' byte, s.spa.sm[k]? = some sm ∧ out[k]? = some bin ∧
         u.sm[k]? = some sm' ∧ u.fsnap[k]? = some byte ∧ binResult s.params sm bin sm' byte)

/-- Two sequences of FEED commands whose blocks concatenate to the same samples end in the same state of SPA
(42_analyzer.md R139). -/
def Obligations.FeedChunkingLaw : Prop :=
  ∀ (s : State) (bs cs : List (List F32)), spaInv s.fftSizes s.params s.spa → bs.flatten = cs.flatten →
    ∃ t1 t2, execAll (bs.map .feed) s = some t1 ∧ execAll (cs.map .feed) s = some t2 ∧ t1.spa = t2.spa

/-- TIME answers the snapshot's bytes, zero-extended, or the required length, and changes nothing else
(42_analyzer.md R145). -/
def Obligations.TimeCopiesTheSnapshot : Prop :=
  ∀ (s : State) (lout : BitVec 24), spaInRange s.fftSizes s.params s.spa = true →
    exec (.time lout) s = .next { s with
      resps := s.resps ++ [if lout.toNat ≠ s.params.n then [statusWord 2 s.params.n]
        else statusWord 0 s.params.n :: s.spa.tsnap.map fun b => BitVec.ofNat 32 b.toNat] }

/-- FREQUENCY answers the snapshot's bytes, zero-extended, or the required length, and changes nothing else
(42_analyzer.md R146). -/
def Obligations.FrequencyCopiesTheSnapshot : Prop :=
  ∀ (s : State) (lout : BitVec 24), spaInRange s.fftSizes s.params s.spa = true →
    exec (.frequency lout) s = .next { s with
      resps := s.resps ++ [if lout.toNat ≠ s.params.n / 2 then [statusWord 2 (s.params.n / 2)]
        else statusWord 0 (s.params.n / 2) :: s.spa.fsnap.map fun b => BitVec.ofNat 32 b.toNat] }

/-- CHANGE_WINDOWING stores the index as given, whatever it is, and changes nothing else (42_analyzer.md R148). -/
def Obligations.ChangeWindowingWritesOnlyTheIndex : Prop :=
  ∀ (s : State) (idx : Byte), spaInRange s.fftSizes s.params s.spa = true →
    exec (.changeWindowing idx) s = .next { s with
      spa := { s.spa with win := idx }, resps := s.resps ++ [[0x00000000#32]] }

/-- Indices 1 to 4 select their own row of the window table, every other index the rectangular row
(44_window_numerics.md R190). -/
def Obligations.WindowIndexSelectsKind : Prop :=
  ∀ i : Byte, kindRow (kindOf i) = if 1 ≤ i.toNat ∧ i.toNat ≤ 4 then i.toNat else 0

/-- The entries of the window table that involve no rounding of a cosine, for every legal `N`
(44_window_numerics.md R192). -/
def Obligations.WindowTableFixedEntries : Prop :=
  ∀ n : Nat, n % 2 = 0 → 2 ≤ n → n ≤ 2 ^ 24 - 2 →
    let entry (w k : Nat) : Option F32 := (windowTable n)[w]?.bind fun row => row[k]?
    (∀ k, k < n → entry 0 k = some 0x3F800000#32) ∧
    (∀ k, k < n → entry 1 k = some (if 2 * k < n then rnd32 (2 * k) n else rnd32 (2 * n - 2 * k) n)) ∧
    entry 1 0 = some 0x00000000#32 ∧ entry 2 0 = some 0x00000000#32 ∧
    entry 1 (n / 2) = some 0x3F800000#32 ∧ entry 2 (n / 2) = some 0x3F800000#32 ∧
    entry 3 (n / 2) = some 0x3F800000#32 ∧ entry 3 0 = some 0x3DA3D70A#32 ∧
    entry 4 0 = some 0x3F800000#32 ∧ entry 4 (n / 2) = some 0x00000000#32 ∧
    (n % 4 = 0 → entry 1 (n / 4) = some 0x3F000000#32 ∧ entry 2 (n / 4) = some 0x3F000000#32 ∧
      entry 3 (n / 4) = some 0x3F0A3D71#32 ∧ entry 4 (n / 4) = some 0x3EAE147B#32)

/-- Window weights are the binary32 values nearest to the real weights: every weight of the rectangular and Bartlett
windows; every weight of a cosine window whose two bounds of the cosine round alike, the others being left open (log 9);
and of these last every one where the cosine is a multiple of one half (44_window_numerics.md R185 to R189, R191). -/
def Obligations.WindowWeightsAreNearest : Prop :=
  ∀ n m : Nat, n < m →
    isNearest (weight .rectangular n m) (weightReal .rectangular ((n : ℝ) / m)) ∧
    isNearest (weight .bartlett n m) (weightReal .bartlett ((n : ℝ) / m)) ∧
    ∀ w : WindowKind,
      (weightAt w (cosBounds n m).1 = weightAt w (cosBounds n m).2 →
        isNearest (weight w n m) (weightReal w ((n : ℝ) / m))) ∧
      (n = 0 ∨ 2 * n = m ∨ 4 * n = m ∨ 4 * n = 3 * m ∨ 6 * n = m ∨ 6 * n = 5 * m ∨ 3 * n = m ∨ 3 * n = 2 * m →
        isNearest (weight w n m) (weightReal w ((n : ℝ) / m)))

/-- With smoothing disabled FEED neither writes nor needs the smoothing memory: it is as before, whatever completes
(44_window_numerics.md R201). -/
def Obligations.SmoothingDisabledKeepsMemory : Prop :=
  ∀ (s : State) (xs : List F32), spaInv s.fftSizes s.params s.spa → isZero s.params.alpha = true →
    ∃ t, exec (.feed xs) s = .next t ∧ t.spa.sm = s.spa.sm

/-- With `0 < ALPHA < 1` a bin whose components are zero drives its smoothing memory from any value but a NaN or `+inf`
to `-inf` and its byte to 0; and from `-inf` no decibel value but a NaN or `+inf` moves the memory
(70_reset_and_hazards.md R263, 44_window_numerics.md R201). -/
def Obligations.SilentBinSticksAtMinusInfinity : Prop :=
  ∀ (sizes : List Nat) (p : Params) (d : Nat), paramsLegal sizes p = true → 0 < valueOf p.alpha →
    valueOf p.alpha < valueOf 0x3F800000#32 →
    (∀ (sm : F32) (bin : F32 × F32), isNaN sm = false → sm ≠ 0x7F800000#32 → isZero bin.1 = true →
      isZero bin.2 = true → (spaBin p sm bin d).1 = (0xFF800000#32, 0#8)) ∧
    (∀ v : F32, isNaN v = false → v ≠ 0x7F800000#32 →
      (smooth p 0xFF800000#32 v d).1 = (0xFF800000#32, 0xFF800000#32) ∧ (freqByte p 0xFF800000#32 d).1 = 0#8)

/-- No byte output depends on a free draw: neither a time byte nor the pipeline of a bin depends on the draws of its own
operations or on the payload of a NaN in the smoothing memory; and a whole FEED, whatever it draws and whichever NaNs the
smoothing memory holds, gives the same response and the same snapshots, and smoothing memories that again agree up to
their NaNs (44_window_numerics.md R181, R195; log 23 for the transform's input). -/
def Obligations.ByteOutputsIgnoreDraws : Prop :=
  (∀ (x : F32) (d e : Nat), (timeByte x d).1 = (timeByte x e).1) ∧
  (∀ (p : Params) (sm sm2 : F32) (bin : F32 × F32) (d e : Nat), sameValue sm sm2 →
    (spaBin p sm bin d).1.2 = (spaBin p sm2 bin e).1.2 ∧
    sameValue (spaBin p sm bin d).1.1 (spaBin p sm2 bin e).1.1) ∧
  ∀ (s t : State) (xs sm2 : List F32) (e : Nat), List.Forall₂ sameValue s.spa.sm sm2 → exec (.feed xs) s = .next t →
    ∃ t2, exec (.feed xs) { s with spa := { s.spa with sm := sm2, draws := e } } = .next t2 ∧
      t2.resps = t.resps ∧ t2.spa.acc = t.spa.acc ∧ t2.spa.tsnap = t.spa.tsnap ∧ t2.spa.fsnap = t.spa.fsnap ∧
      List.Forall₂ sameValue t.spa.sm t2.spa.sm

/-! ### Numerics -/

/-- The byte quantizer's closed form (44_window_numerics.md R195). -/
def Obligations.ByteQuantizerRoundsAndSaturates : Prop :=
  ∀ t : F32,
    (isNaN t = true → q8 t = 0#8) ∧ (t = 0x7F800000#32 → q8 t = 255#8) ∧ (t = 0xFF800000#32 → q8 t = 0#8) ∧
    (isFinite t = true → realOf t < 0 → q8 t = 0#8) ∧
    (isFinite t = true → 0 ≤ realOf t → (q8 t).toNat = min 255 ⌊realOf t + 1 / 2⌋₊)

/-- The time byte is 0 exactly when `1 + s`, rounded, is below 1/256 or a NaN, and 255 exactly when it is at least
1.98828125 (44_window_numerics.md R196). -/
def Obligations.TimeByteThresholds : Prop :=
  ∀ (s u : F32) (d : Nat), isResult (addCore 0x3F800000#32 s) u →
    ((timeByte s d).1 = 0#8 ↔ isNaN u = true ∨ u = 0xFF800000#32 ∨ (isFinite u = true ∧ realOf u < 1 / 256)) ∧
    ((timeByte s d).1 = 255#8 ↔ u = 0x7F800000#32 ∨ (isFinite u = true ∧ 1.98828125 ≤ realOf u))

/-- Decibels of the magnitudes 0, `N`, `+inf` and NaN (44_window_numerics.md R200). -/
def Obligations.DecibelSpecialValues : Prop :=
  ∀ (sizes : List Nat) (p : Params) (d : Nat), paramsLegal sizes p = true →
    (toDb p 0x00000000#32 d).1 = 0xFF800000#32 ∧ (toDb p (cvt32 p.n) d).1 = 0x00000000#32 ∧
    (toDb p 0x7F800000#32 d).1 = 0x7F800000#32 ∧ ∀ m, isNaN m = true → isNaN (toDb p m d).1 = true

/-- The ends of the decibel range: `MIN_DB`, what lies below it, `-inf` and a NaN give byte 0; `MAX_DB`, what lies above
it and `+inf` give 255 where `SCALE` is not zero (44_window_numerics.md R203). -/
def Obligations.FrequencyByteEnds : Prop :=
  ∀ (sizes : List Nat) (p : Params) (d : Nat), paramsLegal sizes p = true →
    (freqByte p p.minDb d).1 = 0#8 ∧ (freqByte p 0xFF800000#32 d).1 = 0#8 ∧
    (∀ v, isNaN v = true → (freqByte p v d).1 = 0#8) ∧
    (∀ v, isFinite v = true → valueOf v < valueOf p.minDb → (freqByte p v d).1 = 0#8) ∧
    (isZero (scale p) = false →
      (freqByte p p.maxDb d).1 = 255#8 ∧ (freqByte p 0x7F800000#32 d).1 = 255#8 ∧
      ∀ v, isFinite v = true → valueOf p.maxDb < valueOf v → (freqByte p v d).1 = 255#8)

/-- More decibels never give a smaller byte (44_window_numerics.md R203). -/
def Obligations.FrequencyByteIsMonotone : Prop :=
  ∀ (sizes : List Nat) (p : Params) (d : Nat) (v w : F32), paramsLegal sizes p = true →
    isFinite v = true → isFinite w = true → valueOf v ≤ valueOf w →
    (freqByte p v d).1.toNat ≤ (freqByte p w d).1.toNat

/-- A magnitude is a NaN exactly when a component is, and is never negative (44_window_numerics.md R197). -/
def Obligations.MagnitudeIsNeverNegative : Prop :=
  ∀ (u : Agent) (re im : F32) (d : Nat),
    (isNaN (mag u re im d).1 = true ↔ isNaN re = true ∨ isNaN im = true) ∧
    (isNaN (mag u re im d).1 = false → signOf (mag u re im d).1 = false)

/-- Rounding is to nearest, ties to even: no finite magnitude is nearer, and an equally near other one is odd's
(44_window_numerics.md R180). -/
def Obligations.RoundingIsNearestTiesToEven : Prop :=
  ∀ num den : Nat, 0 < den → roundMag num den < infBits → ∀ m, m < infBits →
    |((magUnits (roundMag num den) * den : Nat) : ℤ) - num| ≤ |((magUnits m * den : Nat) : ℤ) - num| ∧
    (|((magUnits (roundMag num den) * den : Nat) : ℤ) - num| = |((magUnits m * den : Nat) : ℤ) - num| →
      m ≠ roundMag num den → roundMag num den % 2 = 0)

/-- Rounding overflows to an infinity exactly from half a step above the greatest finite value
(44_window_numerics.md R180). -/
def Obligations.RoundingOverflowsToInfinity : Prop :=
  ∀ num den : Nat, 0 < den → (roundMag num den = infBits ↔ (2 ^ 25 - 1) * 2 ^ 252 * den ≤ num)

/-- Each of the five operations on finite operands with a finite result gives a binary32 value nearest to the exact real
result, ties to even (44_window_numerics.md R180). -/
def Obligations.ArithmeticIsCorrectlyRounded : Prop :=
  ∀ a b c : F32, isFinite a = true → isFinite b = true → isFinite c = true →
    (addCore a b = some c → isNearest c (realOf a + realOf b)) ∧
    (subCore a b = some c → isNearest c (realOf a - realOf b)) ∧
    (mulCore a b = some c → isNearest c (realOf a * realOf b)) ∧
    (divCore a b = some c → realOf b ≠ 0 → isNearest c (realOf a / realOf b)) ∧
    (sqrtCore a = some c → isNearest c (Real.sqrt (realOf a)))

/-! ### Unit DBA -/

/-- DB_FEED of a block that leaves room: the filling accumulator takes it, nothing else changes
(43_double_buffered.md R160, R161). -/
def Obligations.DbFeedWithoutFrame : Prop :=
  ∀ (s : State) (xs : List F32), dbaInRange s.fftSizes s.params s.dba = true →
    ¬ (s.dba.a.fill = s.params.nb ∧ s.dba.b.fill = s.params.nb) →
    let f := if s.dba.b.fill = s.params.nb then s.dba.a else s.dba.b
    f.fill + xs.length < s.params.nb →
    let f' : Acc :=
      { buf := f.buf.take f.fill ++ xs ++ f.buf.drop (f.fill + xs.length), fill := f.fill + xs.length }
    exec (.dbFeed xs) s = .next { s with
      dba := if s.dba.b.fill = s.params.nb then { s.dba with a := f' } else { s.dba with b := f' }
      resps := s.resps ++ [[0x00000000#32]] }

/-- DB_FEED of a block that completes a frame and fits: the filling accumulator holds the frame, the other one the rest
of the block over its old samples, and the snapshot holds the magnitude of every bin of the frame's transform
(43_double_buffered.md R161, R162). -/
def Obligations.DbFeedCompletesFrame : Prop :=
  ∀ (s : State) (xs : List F32), dbaInRange s.fftSizes s.params s.dba = true →
    ¬ (s.dba.a.fill = s.params.nb ∧ s.dba.b.fill = s.params.nb) →
    let nb := s.params.nb
    let inA := s.dba.b.fill = nb
    let f := if inA then s.dba.a else s.dba.b
    let o := if inA then s.dba.b else s.dba.a
    nb ≤ f.fill + xs.length → xs.length < (nb - f.fill) + nb →
    let frame := f.buf.take f.fill ++ xs.take (nb - f.fill)
    let rest := xs.drop (nb - f.fill)
    let refilled : Acc := { buf := rest ++ o.buf.drop rest.length, fill := rest.length }
    let out := fft nb (frame.map fun x => (x, 0x00000000#32))
    ∃ u : Dba, exec (.dbFeed xs) s = .next { s with dba := u, resps := s.resps ++ [[0x00000001#32]] } ∧
      (if inA then u.a = { buf := frame, fill := nb } ∧ u.b = refilled
       else u.b = { buf := frame, fill := nb } ∧ u.a = refilled) ∧
      u.dwre = out.map Prod.fst ∧ u.dwim = out.map Prod.snd ∧ u.dfsnap.length = nb ∧
      ∀ k, k < nb → ∃ bin m, out[k]? = some bin ∧ u.dfsnap[k]? = some m ∧ magResult bin.1 bin.2 m

/-- DB_FEED of a block that would complete two frames is refused with its length, before anything is written
(43_double_buffered.md R163, 60_exceptions.md R223). -/
def Obligations.DbFeedReportsOversizeBlock : Prop :=
  ∀ (s : State) (xs : List F32), dbaInRange s.fftSizes s.params s.dba = true → xs.length < 2 ^ 24 →
    ¬ (s.dba.a.fill = s.params.nb ∧ s.dba.b.fill = s.params.nb) →
    (let f := if s.dba.b.fill = s.params.nb then s.dba.a else s.dba.b
     (s.params.nb - f.fill) + s.params.nb ≤ xs.length) →
    exec (.dbFeed xs) s = .next { s with resps := s.resps ++ [[statusWord 3 xs.length]] }

/-- In state Invalid DB_FEED, whatever its block, and DB_TIME with the matching length answer `E_INVARIANT(0)` and change
nothing (60_exceptions.md R224, 43_double_buffered.md R164). -/
def Obligations.InvalidStateIsReported : Prop :=
  ∀ (s : State) (xs : List F32) (lout : BitVec 24), dbaInRange s.fftSizes s.params s.dba = true →
    s.dba.a.fill = s.params.nb → s.dba.b.fill = s.params.nb → lout.toNat = s.params.nb →
    exec (.dbFeed xs) s = .next { s with resps := s.resps ++ [[0x04000000#32]] } ∧
    exec (.dbTime lout) s = .next { s with resps := s.resps ++ [[0x04000000#32]] }

/-- No command leaves state Invalid, or changes DBA in it (43_double_buffered.md R164). -/
def Obligations.InvalidStateIsNeverLeft : Prop :=
  ∀ (i : Instr) (s t : State), s.dba.a.fill = s.params.nb → s.dba.b.fill = s.params.nb →
    exec i s = .next t → t.dba = s.dba ∧ t.params = s.params

/-- DB_TIME answers the completed accumulator's samples and whether there is one, those of `A` in state Empty, or the
error, and changes nothing else; under the invariant the payload in state Empty is zero words
(43_double_buffered.md R165). -/
def Obligations.DbTimeCopiesTheCompletedFrame : Prop :=
  ∀ (s : State) (lout : BitVec 24), dbaInRange s.fftSizes s.params s.dba = true →
    let nb := s.params.nb
    exec (.dbTime lout) s = .next { s with
      resps := s.resps ++ [if lout.toNat ≠ nb then [statusWord 2 nb]
        else if s.dba.a.fill = nb ∧ s.dba.b.fill = nb then [statusWord 4 0]
        else if s.dba.b.fill = nb then statusWord 0 1 :: s.dba.b.buf
        else if s.dba.a.fill = nb then statusWord 0 1 :: s.dba.a.buf
        else statusWord 0 0 :: s.dba.a.buf] } ∧
    (dbaInv s.fftSizes s.params s.dba → s.dba.a.fill ≠ nb → s.dba.b.fill ≠ nb →
      s.dba.a.buf = List.replicate nb 0x00000000#32)

/-- DB_FREQUENCY answers the magnitude snapshot or the required length, in every state of DBA, and changes nothing else
(43_double_buffered.md R166). -/
def Obligations.DbFrequencyCopiesTheSnapshot : Prop :=
  ∀ (s : State) (lout : BitVec 24), dbaInRange s.fftSizes s.params s.dba = true →
    exec (.dbFrequency lout) s = .next { s with
      resps := s.resps ++ [if lout.toNat ≠ s.params.nb then [statusWord 2 s.params.nb]
        else statusWord 0 s.params.nb :: s.dba.dfsnap] }

/-- DB_FEED loses and repeats no sample: over any sequence of blocks, each is accepted or answered with `E_TOOBIG`, which
happens only to blocks of more than `NB` samples; the samples pending before and the accepted blocks are the completed
frames and the samples pending after, in order; every frame has `NB` samples, one is completed for each `OK(1)`, each
exchanges the roles of the two accumulators, and the last one is what DBA holds as completed, which is as before where
there is none (43_double_buffered.md R168, 70_reset_and_hazards.md R262 (c)). -/
def Obligations.DbFeedLosesNoSample : Prop :=
  ∀ (s : State) (blocks : List (List F32)), dbaInv s.fftSizes s.params s.dba → (∀ b ∈ blocks, b.length < 2 ^ 24) →
    ∃ (t : State) (answers : List Word) (frames : List (List F32)),
      execAll (blocks.map .dbFeed) s = some t ∧ t.resps = s.resps ++ answers.map (fun w => [w]) ∧
      answers.length = blocks.length ∧
      (∀ (n : Nat) (b : List F32) (w : Word), blocks[n]? = some b → answers[n]? = some w →
        w = 0x00000000#32 ∨ w = 0x00000001#32 ∨ (s.params.nb < b.length ∧ w = statusWord 3 b.length)) ∧
      (let accepted := ((blocks.zip answers).filter fun x => decide (x.2 = 0x00000000#32 ∨ x.2 = 0x00000001#32)).map Prod.fst
       pending s.params.nb s.dba ++ accepted.flatten = frames.flatten ++ pending s.params.nb t.dba) ∧
      (∀ f ∈ frames, f.length = s.params.nb) ∧ frames.length = answers.count 0x00000001#32 ∧
      fillsA s.params.nb t.dba = (fillsA s.params.nb s.dba ^^ decide (frames.length % 2 = 1)) ∧
      (∀ f, frames.getLast? = some f → completed s.params.nb t.dba = { buf := f, fill := s.params.nb }) ∧
      (frames = [] → completed s.params.nb t.dba = completed s.params.nb s.dba)

/-! ### The whole machine -/

/-- The invariants of R41, with the lengths of R31 and legal parameters, hold after every step from every state in which
they hold (10_state.md R41). -/
def Obligations.StepKeepsInvariants : Prop :=
  ∀ s t : State, s.inv → step s = .next t → t.inv

/-- The state after reset meets the invariants (10_state.md R40, R41). The instance's parameters are the model's choice
(log 2). -/
def Obligations.ResetStateMeetsInvariants : Prop := State.reset.inv

/-- A command gives a next state exactly where the unit it addresses holds a state of the block; elsewhere it stops with
that unit's fault (20_memory.md R53, 93_implementation_defined.md U9). -/
def Obligations.CommandsStopOnlyOutsideTheRanges : Prop :=
  ∀ (i : Instr) (s : State),
    (agentOf i = .dly → ((∃ t, exec i s = .next t) ↔ dlyInRange s.params s.dly = true) ∧
      (dlyInRange s.params s.dly = false → exec i s = .fault .dlyNotAState)) ∧
    (agentOf i = .spa → ((∃ t, exec i s = .next t) ↔ spaInRange s.fftSizes s.params s.spa = true) ∧
      (spaInRange s.fftSizes s.params s.spa = false → exec i s = .fault .spaNotAState)) ∧
    (agentOf i = .dba → ((∃ t, exec i s = .next t) ↔ dbaInRange s.fftSizes s.params s.dba = true) ∧
      (dbaInRange s.fftSizes s.params s.dba = false → exec i s = .fault .dbaNotAState))

/-- Every command produces exactly one response, of a status code the spec lists; a response with an error code has no
payload and its command has changed nothing else (20_memory.md R58, 30_encoding.md R79, R80, 60_exceptions.md R226). -/
def Obligations.ErrorsChangeNothing : Prop :=
  ∀ (i : Instr) (s t : State), exec i s = .next t →
    ∃ w payload, t.resps = s.resps ++ [w :: payload] ∧ w.toNat / 2 ^ 24 ≤ 4 ∧
      (w.toNat / 2 ^ 24 ≠ 0 → payload = [] ∧ t = { s with resps := s.resps ++ [[w]] })

/-- A command changes at most the unit it addresses; no command changes a parameter, the engine's sizes, the window
table or the command port, and no command but CHANGE_WINDOWING the window index (20_memory.md R61, 42_analyzer.md
R149). -/
def Obligations.CommandsChangeOnlyTheirUnit : Prop :=
  ∀ (i : Instr) (s t : State), exec i s = .next t →
    t.params = s.params ∧ t.fftSizes = s.fftSizes ∧ t.resets = s.resets ∧ t.cmds = s.cmds ∧
    t.spa.wlut = s.spa.wlut ∧ ((∀ idx, i ≠ .changeWindowing idx) → t.spa.win = s.spa.win) ∧
    (agentOf i ≠ .dly → t.dly = s.dly) ∧ (agentOf i ≠ .spa → t.spa = s.spa) ∧ (agentOf i ≠ .dba → t.dba = s.dba)

/-- TIME, FREQUENCY, DB_TIME and DB_FREQUENCY change nothing but the response port, so that each may be repeated with the
same answer (20_memory.md R55). -/
def Obligations.AccessorsChangeNothing : Prop :=
  ∀ (i : Instr) (s t : State),
    (∃ lout, i = .time lout ∨ i = .frequency lout ∨ i = .dbTime lout ∨ i = .dbFrequency lout) → exec i s = .next t →
    ∃ r, t = { s with resps := s.resps ++ [r] } ∧ exec i t = .next { t with resps := t.resps ++ [r] }

/-- Two adjacent commands addressed to different units can be exchanged: each gets the same response, and every unit
ends in the same state (20_memory.md R61). -/
def Obligations.CommandsOfDifferentUnitsCommute : Prop :=
  ∀ (i j : Instr) (s s1 s2 : State), agentOf i ≠ agentOf j → exec i s = .next s1 → exec j s1 = .next s2 →
    ∃ (r1 r2 : List Word) (s3 s4 : State), exec j s = .next s3 ∧ exec i s3 = .next s4 ∧
      s1.resps = s.resps ++ [r1] ∧ s2.resps = s.resps ++ [r1, r2] ∧
      s3.resps = s.resps ++ [r2] ∧ s4.resps = s.resps ++ [r2, r1] ∧
      s4 = { s2 with resps := s4.resps }

/-- No step shows what the work buffers and the transform scratch held: two states that differ only there step to states
that differ only there, with the same responses (10_state.md R27, R34, R36, 44_window_numerics.md R206). -/
def Obligations.WorkBuffersAreUnobservable : Prop :=
  ∀ s t s' : State, sameButWork s t → step s = .next s' → ∃ t', step t = .next t' ∧ sameButWork s' t'

/-- No step shows a stale sample: two states that differ only in elements of an accumulator above its fill-length step
to states that differ only there, with the same responses (70_reset_and_hazards.md R264, 41_accumulator.md R123). -/
def Obligations.StaleSamplesAreUnobservable : Prop :=
  ∀ s t s' : State, sameButStale s t → step s = .next s' → ∃ t', step t = .next t' ∧ sameButStale s' t'
end

