-- ==== Sys2Proof/Laws/State.lean ====
section
/-!
SUPPORT. The fields of a state after each of its updates, true by computation.
-/

namespace Sys2Proof.Machine

@[simp] theorem respond_params (s : State) (info : BitVec 24) (payload : List Word) : (s.respond info payload).params = s.params := rfl
@[simp] theorem respond_fftSizes (s : State) (info : BitVec 24) (payload : List Word) : (s.respond info payload).fftSizes = s.fftSizes := rfl
@[simp] theorem respond_dly (s : State) (info : BitVec 24) (payload : List Word) : (s.respond info payload).dly = s.dly := rfl
@[simp] theorem respond_spa (s : State) (info : BitVec 24) (payload : List Word) : (s.respond info payload).spa = s.spa := rfl
@[simp] theorem respond_dba (s : State) (info : BitVec 24) (payload : List Word) : (s.respond info payload).dba = s.dba := rfl
@[simp] theorem respond_resets (s : State) (info : BitVec 24) (payload : List Word) : (s.respond info payload).resets = s.resets := rfl
@[simp] theorem respond_cmds (s : State) (info : BitVec 24) (payload : List Word) : (s.respond info payload).cmds = s.cmds := rfl
@[simp] theorem respond_resps (s : State) (info : BitVec 24) (payload : List Word) : (s.respond info payload).resps = s.resps ++ [responseHeader .ok info :: payload] := rfl

@[simp] theorem raise_params (s : State) (e : Status) (info : BitVec 24) : (s.raise e info).params = s.params := rfl
@[simp] theorem raise_fftSizes (s : State) (e : Status) (info : BitVec 24) : (s.raise e info).fftSizes = s.fftSizes := rfl
@[simp] theorem raise_dly (s : State) (e : Status) (info : BitVec 24) : (s.raise e info).dly = s.dly := rfl
@[simp] theorem raise_spa (s : State) (e : Status) (info : BitVec 24) : (s.raise e info).spa = s.spa := rfl
@[simp] theorem raise_dba (s : State) (e : Status) (info : BitVec 24) : (s.raise e info).dba = s.dba := rfl
@[simp] theorem raise_resets (s : State) (e : Status) (info : BitVec 24) : (s.raise e info).resets = s.resets := rfl
@[simp] theorem raise_cmds (s : State) (e : Status) (info : BitVec 24) : (s.raise e info).cmds = s.cmds := rfl
@[simp] theorem raise_resps (s : State) (e : Status) (info : BitVec 24) : (s.raise e info).resps = s.resps ++ [[responseHeader e info]] := rfl

@[simp] theorem raiseIllegal_params (s : State) (why : Illegal) : (s.raiseIllegal why).params = s.params := rfl
@[simp] theorem raiseIllegal_fftSizes (s : State) (why : Illegal) : (s.raiseIllegal why).fftSizes = s.fftSizes := rfl
@[simp] theorem raiseIllegal_dly (s : State) (why : Illegal) : (s.raiseIllegal why).dly = s.dly := rfl
@[simp] theorem raiseIllegal_spa (s : State) (why : Illegal) : (s.raiseIllegal why).spa = s.spa := rfl
@[simp] theorem raiseIllegal_dba (s : State) (why : Illegal) : (s.raiseIllegal why).dba = s.dba := rfl
@[simp] theorem raiseIllegal_resets (s : State) (why : Illegal) : (s.raiseIllegal why).resets = s.resets := rfl
@[simp] theorem raiseIllegal_cmds (s : State) (why : Illegal) : (s.raiseIllegal why).cmds = s.cmds := rfl
@[simp] theorem raiseIllegal_resps (s : State) (why : Illegal) : (s.raiseIllegal why).resps = s.resps ++ [[responseHeader .illegal (illegalInfo why)]] := rfl

@[simp] theorem hardwareReset_params (s : State) (p : Params) : (s.hardwareReset p).params = p := rfl
@[simp] theorem hardwareReset_fftSizes (s : State) (p : Params) : (s.hardwareReset p).fftSizes = s.fftSizes := rfl
@[simp] theorem hardwareReset_dly (s : State) (p : Params) : (s.hardwareReset p).dly = dlyAtReset p s.dly.draws := rfl
@[simp] theorem hardwareReset_spa (s : State) (p : Params) : (s.hardwareReset p).spa = spaAtReset p (s.resets + 1) s.spa.draws := rfl
@[simp] theorem hardwareReset_dba (s : State) (p : Params) : (s.hardwareReset p).dba = dbaAtReset p (s.resets + 1) s.dba.draws := rfl
@[simp] theorem hardwareReset_resets (s : State) (p : Params) : (s.hardwareReset p).resets = s.resets + 1 := rfl
@[simp] theorem hardwareReset_cmds (s : State) (p : Params) : (s.hardwareReset p).cmds = s.cmds := rfl
@[simp] theorem hardwareReset_resps (s : State) (p : Params) : (s.hardwareReset p).resps = s.resps := rfl

@[simp] theorem sendFirst_params (w0 : Word) (rest : List Word) (s : State) : (sendFirst w0 rest s).params = s.params := rfl
@[simp] theorem sendFirst_fftSizes (w0 : Word) (rest : List Word) (s : State) : (sendFirst w0 rest s).fftSizes = s.fftSizes := rfl
@[simp] theorem sendFirst_dly (w0 : Word) (rest : List Word) (s : State) : (sendFirst w0 rest s).dly = s.dly := rfl
@[simp] theorem sendFirst_spa (w0 : Word) (rest : List Word) (s : State) : (sendFirst w0 rest s).spa = s.spa := rfl
@[simp] theorem sendFirst_dba (w0 : Word) (rest : List Word) (s : State) : (sendFirst w0 rest s).dba = s.dba := rfl
@[simp] theorem sendFirst_resets (w0 : Word) (rest : List Word) (s : State) : (sendFirst w0 rest s).resets = s.resets := rfl
@[simp] theorem sendFirst_cmds (w0 : Word) (rest : List Word) (s : State) : (sendFirst w0 rest s).cmds = .command w0 rest :: s.cmds := rfl
@[simp] theorem sendFirst_resps (w0 : Word) (rest : List Word) (s : State) : (sendFirst w0 rest s).resps = s.resps := rfl

@[simp] theorem withFetchWord_params (s : State) (nbits w : Nat) : (s.withFetchWord nbits w).params = s.params := rfl
@[simp] theorem withFetchWord_fftSizes (s : State) (nbits w : Nat) : (s.withFetchWord nbits w).fftSizes = s.fftSizes := rfl
@[simp] theorem withFetchWord_dly (s : State) (nbits w : Nat) : (s.withFetchWord nbits w).dly = s.dly := rfl
@[simp] theorem withFetchWord_spa (s : State) (nbits w : Nat) : (s.withFetchWord nbits w).spa = s.spa := rfl
@[simp] theorem withFetchWord_dba (s : State) (nbits w : Nat) : (s.withFetchWord nbits w).dba = s.dba := rfl
@[simp] theorem withFetchWord_resets (s : State) (nbits w : Nat) : (s.withFetchWord nbits w).resets = s.resets := rfl
@[simp] theorem withFetchWord_cmds (s : State) (nbits w : Nat) : (s.withFetchWord nbits w).cmds = .command (tableHeader nbits w) (tableRest nbits w) :: s.cmds := rfl
@[simp] theorem withFetchWord_resps (s : State) (nbits w : Nat) : (s.withFetchWord nbits w).resps = s.resps := rfl

@[simp] theorem accEmpty_buf (acc : Acc) : (accEmpty acc).buf = acc.buf := rfl
@[simp] theorem accEmpty_fill (acc : Acc) : (accEmpty acc).fill = 0 := rfl

@[simp] theorem dlyClear_dl (u : Dly) : (dlyClear u).dl = u.dl.map fun _ => posZero := rfl
@[simp] theorem dlyClear_cur (u : Dly) : (dlyClear u).cur = 0 := rfl
@[simp] theorem dlyClear_draws (u : Dly) : (dlyClear u).draws = u.draws := rfl

@[simp] theorem spaFrame_acc (p : Params) (u : Spa) : (spaFrame p u).acc = u.acc := rfl
@[simp] theorem spaFrame_win (p : Params) (u : Spa) : (spaFrame p u).win = u.win := rfl
@[simp] theorem spaFrame_wlut (p : Params) (u : Spa) : (spaFrame p u).wlut = u.wlut := rfl
@[simp] theorem dbFrame_a (capacity : Nat) (samples : List F32) (u : Dba) : (dbFrame capacity samples u).a = u.a := rfl
@[simp] theorem dbFrame_b (capacity : Nat) (samples : List F32) (u : Dba) : (dbFrame capacity samples u).b = u.b := rfl

/-- The accumulators that are put back, and nothing else of the unit, change. -/
@[simp] theorem putAccs_true (fill other : Acc) (u : Dba) : putAccs true fill other u = { u with a := fill, b := other } := rfl

@[simp] theorem putAccs_false (fill other : Acc) (u : Dba) :
    putAccs false fill other u = { u with a := other, b := fill } := rfl

@[simp] theorem putAccs_dwre (i : Bool) (x y : Acc) (u : Dba) : (putAccs i x y u).dwre = u.dwre := by cases i <;> rfl
@[simp] theorem putAccs_dwim (i : Bool) (x y : Acc) (u : Dba) : (putAccs i x y u).dwim = u.dwim := by cases i <;> rfl
@[simp] theorem putAccs_dfsnap (i : Bool) (x y : Acc) (u : Dba) : (putAccs i x y u).dfsnap = u.dfsnap := by
  cases i <;> rfl
@[simp] theorem putAccs_scratch (i : Bool) (x y : Acc) (u : Dba) : (putAccs i x y u).scratch = u.scratch := by
  cases i <;> rfl
@[simp] theorem putAccs_draws (i : Bool) (x y : Acc) (u : Dba) : (putAccs i x y u).draws = u.draws := by
  cases i <;> rfl

end Sys2Proof.Machine
end

