-- ==== Sys2Proof/Laws/Ops.lean ====
section
/-!
SUPPORT. What the shared operations over memories, accumulators and draws can do, said once.
-/

namespace Sys2Proof.Machine

variable {α β : Type}

/-! ### Ranges -/

theorem paramsLegal_iff {sizes : List Nat} {p : Params} :
    paramsLegal sizes p = true ↔ dlyParamsLegal p ∧ spaParamsLegal sizes p ∧ dbaParamsLegal sizes p :=
  decide_eq_true_iff

theorem dlyInRange_iff {p : Params} {u : Dly} :
    dlyInRange p u = true ↔ dlyParamsLegal p ∧ Memory.wf p.d u.dl ∧ u.cur < p.d :=
  decide_eq_true_iff

theorem spaInRange_iff {sizes : List Nat} {p : Params} {u : Spa} :
    spaInRange sizes p u = true ↔ spaParamsLegal sizes p ∧
      (Memory.wf p.n u.acc.buf ∧ u.acc.fill ≤ p.n) ∧
      (Memory.wf p.n u.wre ∧ Memory.wf p.n u.wim) ∧
      Memory.wf (p.n / 2) u.sm ∧ Memory.wf p.n u.tsnap ∧ Memory.wf (p.n / 2) u.fsnap ∧
      (Memory.wf 5 u.wlut ∧ ∀ row ∈ u.wlut, Memory.wf p.n row) :=
  decide_eq_true_iff

theorem dbaInRange_iff {sizes : List Nat} {p : Params} {u : Dba} :
    dbaInRange sizes p u = true ↔ dbaParamsLegal sizes p ∧
      (Memory.wf p.nb u.a.buf ∧ u.a.fill ≤ p.nb) ∧ (Memory.wf p.nb u.b.buf ∧ u.b.fill ≤ p.nb) ∧
      (Memory.wf p.nb u.dwre ∧ Memory.wf p.nb u.dwim) ∧ Memory.wf p.nb u.dfsnap :=
  decide_eq_true_iff

/-! ### Element read and write -/

/-- A write keeps the length: the memory stays in form. -/
@[simp] theorem memWrite_length (m : List α) (i : Nat) (v : α) : (memWrite m i v).length = m.length := by
  simp [memWrite]

/-- Reading after a write: the value at the written index, every other element as before. -/
theorem memRead_memWrite (m : List α) (i j : Nat) (v : α) :
    memRead (memWrite m i v) j = if i = j then (if j < m.length then some v else none) else memRead m j := by
  simp only [memRead, memWrite, List.getElem?_set]
  split_ifs <;> simp_all

theorem memWrite_keeps_wf {len : Nat} {m : List α} (h : Memory.wf len m) (i : Nat) (v : α) :
    Memory.wf len (memWrite m i v) := by simpa [Memory.wf] using h

/-- A run of writes keeps the length. -/
@[simp] theorem memWriteRun_length (m : List α) (i : Nat) (vs : List α) :
    (memWriteRun m i vs).length = m.length := by
  induction vs generalizing m i with
  | nil => rfl
  | cons v vs ih => simp [memWriteRun, ih]

theorem memWriteRun_keeps_wf {len : Nat} {m : List α} (h : Memory.wf len m) (i : Nat) (vs : List α) :
    Memory.wf len (memWriteRun m i vs) := by simpa [Memory.wf] using h

/-- Reading after a run of writes that fits: the run's values at its indices, every other element as before. -/
theorem memRead_memWriteRun (m : List α) (i j : Nat) (vs : List α) (h : i + vs.length ≤ m.length) :
    memRead (memWriteRun m i vs) j = if i ≤ j ∧ j < i + vs.length then vs[j - i]? else memRead m j := by
  induction vs generalizing m i with
  | nil =>
    rw [memWriteRun, if_neg (by simp)]
  | cons v vs ih =>
    simp only [List.length_cons] at h
    rw [memWriteRun, ih _ _ (by simpa using by omega), memRead_memWrite, List.length_cons]
    rcases Nat.lt_trichotomy j i with hji | rfl | hij
    · rw [if_neg (by omega), if_neg (by omega), if_neg (by omega)]
    · rw [if_neg (by omega), if_pos rfl, if_pos (by omega), if_pos (by omega)]; simp
    · obtain ⟨k, rfl⟩ : ∃ k, j = i + 1 + k := ⟨j - (i + 1), by omega⟩
      rw [show i + 1 + k - (i + 1) = k by omega, show i + 1 + k - i = k + 1 by omega, List.getElem?_cons_succ]
      rw [if_neg (show ¬ i = i + 1 + k by omega)]
      exact if_congr (by omega) rfl rfl

/-- A run of writes that fits, as a list: the elements before it, the run, the elements after it. -/
theorem memWriteRun_eq (m : List α) (i : Nat) (vs : List α) (h : i + vs.length ≤ m.length) :
    memWriteRun m i vs = m.take i ++ vs ++ m.drop (i + vs.length) := by
  induction vs generalizing m i with
  | nil => simp [memWriteRun]
  | cons v vs ih =>
    simp only [List.length_cons] at h
    rw [memWriteRun, ih _ _ (by simpa using by omega)]
    have hi : i < m.length := by omega
    have e1 : (memWrite m i v).take (i + 1) = m.take i ++ [v] := by
      rw [memWrite, List.take_set, List.take_add_one, List.getElem?_eq_getElem hi]
      rw [List.set_append]; simp [Nat.min_eq_left hi.le]
    have e2 : (memWrite m i v).drop (i + 1 + vs.length) = m.drop (i + (vs.length + 1)) := by
      rw [memWrite, List.drop_set]
      rw [if_pos (by omega)]
      congr 1; omega
    rw [e1, e2]; simp

/-- Two adjoining runs of writes are one. -/
theorem memWriteRun_append (m : List α) (i : Nat) (vs ws : List α) :
    memWriteRun m i (vs ++ ws) = memWriteRun (memWriteRun m i vs) (i + vs.length) ws := by
  induction vs generalizing m i with
  | nil => rfl
  | cons v vs ih =>
    simp only [List.cons_append, memWriteRun, ih, List.length_cons]
    congr 1; omega

/-! ### Accumulators (41_accumulator.md) -/

/-- `AccFill` takes no more than the room, and no more than there is. -/
theorem accRoom_le (c : Nat) (acc : Acc) (s : List F32) :
    accRoom c acc s ≤ s.length ∧ accRoom c acc s ≤ c - acc.fill := by
  simp only [accRoom]; omega

@[simp] theorem accFill_buf (c : Nat) (acc : Acc) (s : List F32) :
    (accFill c acc s).1.buf = memWriteRun acc.buf acc.fill (s.take (accRoom c acc s)) := rfl
@[simp] theorem accFill_fill (c : Nat) (acc : Acc) (s : List F32) :
    (accFill c acc s).1.fill = acc.fill + accRoom c acc s := rfl
@[simp] theorem accFill_rest (c : Nat) (acc : Acc) (s : List F32) :
    (accFill c acc s).2 = s.drop (accRoom c acc s) := rfl

/-- `AccFill` keeps the buffer's length and the accumulator's invariant. -/
theorem accFill_keeps_wf {c : Nat} {acc : Acc} (hb : Memory.wf c acc.buf) (hf : acc.fill ≤ c) (s : List F32) :
    Memory.wf c (accFill c acc s).1.buf ∧ (accFill c acc s).1.fill ≤ c := by
  have := accRoom_le c acc s
  refine ⟨by simpa [Memory.wf] using hb, ?_⟩
  simp only [accFill_fill]; omega

/-- Everything `AccFill` does (41_accumulator.md R121): the buffer up to the new fill-length is the old contents
followed by what was taken, the elements above it are as before, and the rest is given back. -/
theorem accFill_spec {c : Nat} {acc : Acc} (hb : Memory.wf c acc.buf) (hf : acc.fill ≤ c) (s : List F32) :
    (accFill c acc s).1.fill = min (acc.fill + s.length) c ∧
    (accFill c acc s).1.buf =
      acc.buf.take acc.fill ++ s.take (c - acc.fill) ++ acc.buf.drop (min (acc.fill + s.length) c) ∧
    (accFill c acc s).2 = s.drop (c - acc.fill) := by
  have hk := accRoom_le c acc s
  have hlen : (s.take (accRoom c acc s)).length = accRoom c acc s := by simp [hk.1]
  have htake : s.take (accRoom c acc s) = s.take (c - acc.fill) := by
    rw [accRoom]
    rcases Nat.le_total s.length (c - acc.fill) with h | h
    · rw [Nat.min_eq_left h, List.take_of_length_le (Nat.le_refl _), List.take_of_length_le h]
    · rw [Nat.min_eq_right h]
  have hdrop : s.drop (accRoom c acc s) = s.drop (c - acc.fill) := by
    rw [accRoom]
    rcases Nat.le_total s.length (c - acc.fill) with h | h
    · rw [Nat.min_eq_left h, List.drop_length, List.drop_of_length_le h]
    · rw [Nat.min_eq_right h]
  have hadd : acc.fill + accRoom c acc s = min (acc.fill + s.length) c := by simp only [accRoom]; omega
  refine ⟨by simp [hadd], ?_, by simp [hdrop]⟩
  rw [accFill_buf, memWriteRun_eq _ _ _ (by rw [hlen]; simp only [Memory.wf] at hb; omega), hlen, hadd, htake]

/-- A block that leaves room is taken whole. -/
theorem accFill_of_fits {c : Nat} {acc : Acc} (s : List F32) (h : acc.fill + s.length ≤ c) :
    accFill c acc s = ({ buf := memWriteRun acc.buf acc.fill s, fill := acc.fill + s.length }, []) := by
  have : accRoom c acc s = s.length := by simp only [accRoom]; omega
  simp [accFill, this]

/-- After `AccFill` the accumulator is full exactly when the room was used up. -/
theorem accIsFull_accFill {c : Nat} {acc : Acc} (hf : acc.fill ≤ c) (s : List F32) :
    accIsFull c (accFill c acc s).1 = decide (c ≤ acc.fill + s.length) := by
  have : accRoom c acc s = min s.length (c - acc.fill) := rfl
  exact decide_eq_decide.mpr (by rw [accFill_fill]; omega)

/-- Filling twice is filling once with the concatenation, while the first block leaves room. -/
theorem accFill_append {c : Nat} {acc : Acc} (s t : List F32) (h : acc.fill + s.length ≤ c) :
    accFill c acc (s ++ t) = accFill c (accFill c acc s).1 t := by
  rw [accFill_of_fits s h]
  have e : accRoom c acc (s ++ t) =
      s.length + accRoom c { buf := memWriteRun acc.buf acc.fill s, fill := acc.fill + s.length } t := by
    simp only [accRoom, List.length_append]; omega
  simp only [accFill, e]
  refine Prod.ext ?_ ?_
  · simp only [Acc.mk.injEq]
    refine ⟨?_, by omega⟩
    rw [List.take_length_add_append, memWriteRun_append]
  · simp

/-! ### Draws -/

/-- A map with draws keeps the length. -/
@[simp] theorem drawMap_length (f : α → Nat → β × Nat) (xs : List α) (d : Nat) :
    (drawMap f xs d).1.length = xs.length := by
  induction xs generalizing d with
  | nil => rfl
  | cons x xs ih => simp [drawMap, ih]

/-- Each element of a map with draws is the function's answer at some draw counter. -/
theorem drawMap_getElem? (f : α → Nat → β × Nat) (xs : List α) (d j : Nat) :
    ∃ e, (drawMap f xs d).1[j]? = xs[j]?.map fun x => (f x e).1 := by
  induction xs generalizing d j with
  | nil => exact ⟨0, by simp [drawMap]⟩
  | cons x xs ih =>
    cases j with
    | zero => exact ⟨d, by simp [drawMap]⟩
    | succ j => simpa [drawMap] using ih (f x d).2 j

/-- A map with draws whose values do not depend on the draws is a plain map. -/
theorem drawMap_of_indep (f : α → Nat → β × Nat) (g : α → β) (h : ∀ x d, (f x d).1 = g x) (xs : List α) (d : Nat) :
    (drawMap f xs d).1 = xs.map g := by
  induction xs generalizing d with
  | nil => rfl
  | cons x xs ih => simp [drawMap, ih, h]

/-! ### The transform -/

/-- The transform gives as many pairs as its size. -/
@[simp] theorem fft_length (n : Nat) (xs : List (F32 × F32)) : (fft n xs).length = n := by simp [fft]

@[simp] theorem realInput_length (xs : List F32) : (realInput xs).length = xs.length := by simp [realInput]

end Sys2Proof.Machine
end

