-- ==== Sys2Proof/Laws/Float.lean ====
section
/-!
SUPPORT. Binary32 patterns and rounding: what each piece of the arithmetic is, said once.
-/

namespace Sys2Proof.Machine

/-! ### Patterns -/

theorem signOf_eq (x : F32) : signOf x = decide (2 ^ 31 ≤ x.toNat) := by
  have := x.isLt
  simp only [signOf, BitVec.getLsbD, Nat.testBit, Nat.shiftRight_eq_div_pow, Nat.one_and_eq_mod_two]
  rcases Nat.lt_or_ge x.toNat (2 ^ 31) with h | h
  · rw [Nat.div_eq_of_lt h, decide_eq_false (by omega)]; rfl
  · rw [show x.toNat / 2 ^ 31 = 1 by omega, decide_eq_true h]; rfl

theorem magBits_lt (x : F32) : magBits x < 2 ^ 31 := Nat.mod_lt _ (by norm_num)

theorem toNat_pack (s : Bool) {m : Nat} (h : m < 2 ^ 31) : (pack s m).toNat = (if s then 2 ^ 31 else 0) + m := by
  simp only [pack, BitVec.toNat_ofNat]
  exact Nat.mod_eq_of_lt (by split <;> omega)

@[simp] theorem signOf_pack (s : Bool) {m : Nat} (h : m < 2 ^ 31) : signOf (pack s m) = s := by
  rw [signOf_eq, toNat_pack s h]; cases s <;> simp; omega

@[simp] theorem magBits_pack (s : Bool) {m : Nat} (h : m < 2 ^ 31) : magBits (pack s m) = m := by
  rw [magBits, toNat_pack s h]; split <;> omega

/-- A pattern is its sign and its magnitude bits. -/
theorem pack_signOf_magBits (x : F32) : pack (signOf x) (magBits x) = x := by
  apply BitVec.eq_of_toNat_eq
  rw [toNat_pack _ (magBits_lt x), signOf_eq, magBits]
  have := x.isLt
  split <;> simp_all; omega

/-- Every pattern is a NaN, an infinity or finite, and no two of them. -/
theorem classify (x : F32) :
    (isNaN x = true ∧ isInf x = false ∧ isFinite x = false) ∨
    (isNaN x = false ∧ isInf x = true ∧ isFinite x = false) ∨
    (isNaN x = false ∧ isInf x = false ∧ isFinite x = true) := by
  simp only [isNaN, isInf, isFinite, decide_eq_true_eq, decide_eq_false_iff_not]; omega

theorem infBits_lt : infBits < 2 ^ 31 := by norm_num

/-! ### NaN results -/

theorem toNat_quietNaN (p : BitVec 23) :
    (quietNaN p).toNat = p.toNat / 2 ^ 22 * 2 ^ 31 + 0x7FC00000 + p.toNat % 2 ^ 22 := by
  have := p.isLt
  have h1 : p.toNat / 2 ^ 22 < 2 := by omega
  have h2 : p.toNat % 2 ^ 22 < 2 ^ 22 := Nat.mod_lt _ (by norm_num)
  simp only [quietNaN, BitVec.toNat_append, BitVec.extractLsb'_toNat, Nat.shiftRight_eq_div_pow, BitVec.toNat_ofNat]
  have e2 : p.toNat / 2 ^ 0 % 2 ^ 22 = p.toNat % 2 ^ 22 := by simp
  rw [e2]
  have e3 : (0x1FF % 2 ^ 9) <<< 22 ||| (p.toNat % 2 ^ 22) = 0x7FC00000 + p.toNat % 2 ^ 22 := by
    rw [← Nat.shiftLeft_add_eq_or_of_lt h2]; rfl
  rw [e3, ← Nat.shiftLeft_add_eq_or_of_lt (by omega), Nat.mod_eq_of_lt (by omega : p.toNat / 2 ^ 22 < 2 ^ 1),
    Nat.shiftLeft_eq]
  omega

/-- A draw is a quiet NaN, whatever it is. -/
@[simp] theorem isQuietNaN_quietNaN (p : BitVec 23) : isQuietNaN (quietNaN p) = true := by
  have := p.isLt
  have hi : infBits = 2139095040 := rfl
  rw [isQuietNaN, decide_eq_true_eq, magBits, toNat_quietNaN]; omega

theorem isNaN_of_isQuietNaN {x : F32} (h : isQuietNaN x = true) : isNaN x = true := by
  rw [isQuietNaN, decide_eq_true_eq] at h
  rw [isNaN, decide_eq_true_eq]; omega

@[simp] theorem isNaN_quietNaN (p : BitVec 23) : isNaN (quietNaN p) = true :=
  isNaN_of_isQuietNaN (isQuietNaN_quietNaN p)

@[simp] theorem settle_some (u : Agent) (v : F32) (d : Nat) : settle u (some v) d = (v, d) := rfl

/-- Everything an operation's result can be: the value where there is one, else a quiet NaN. -/
theorem settle_cases (u : Agent) (r : Option F32) (d : Nat) :
    (∃ v, r = some v ∧ settle u r d = (v, d)) ∨
    (r = none ∧ isQuietNaN (settle u r d).1 = true ∧ (settle u r d).2 = d + 1) := by
  cases r with
  | none => exact .inr ⟨rfl, by simp [settle], rfl⟩
  | some v => exact .inl ⟨v, rfl, rfl⟩

/-! ### Rounding -/

/-- The rounded quotient is the floor or the next integer, and at most half a divisor away. -/
theorem roundQuot_near (num : Nat) {den : Nat} (h : 0 < den) :
    2 * num ≤ (2 * roundQuot num den + 1) * den ∧ 2 * (roundQuot num den * den) ≤ 2 * num + den := by
  have hd := Nat.div_add_mod' num den
  have hm := Nat.mod_lt num h
  have e : ∀ q : Nat, (2 * q + 1) * den = 2 * (q * den) + den := fun q => by ring
  have e1 : (num / den + 1) * den = num / den * den + den := by ring
  unfold roundQuot
  split <;> rw [e] <;> omega

/-- Rounding an exact multiple gives the multiple. -/
@[simp] theorem roundQuot_mul (n : Nat) {den : Nat} (h : 0 < den) : roundQuot (n * den) den = n := by
  unfold roundQuot
  rw [Nat.mul_mod_left, Nat.mul_div_cancel _ h]
  simp; omega

/-- The rounded quotient does not fall below an integer bound of the quotient. -/
theorem le_roundQuot {num den b : Nat} (h : 0 < den) (hb : b * den ≤ num) : b ≤ roundQuot num den := by
  have := (Nat.le_div_iff_mul_le h).mpr hb
  unfold roundQuot; split <;> omega

/-- The rounded quotient does not pass an integer bound of the quotient. -/
theorem roundQuot_le {num den b : Nat} (h : 0 < den) (hb : num ≤ b * den) : roundQuot num den ≤ b := by
  by_contra hlt
  have h1 : (b + 1) * den ≤ roundQuot num den * den := Nat.mul_le_mul_right _ (by omega)
  have h2 := (roundQuot_near num h).2
  have h3 : num = b * den := by nlinarith
  rw [h3, roundQuot_mul _ h] at hlt
  omega

/-- A magnitude `n * 2^k` units has the magnitude bits `k * 2^23 + n`, where `n` is a significand of that spacing or
one step past it. -/
theorem magUnits_of_significand (k : Nat) {n : Nat} (hn : n ≤ 2 ^ 24) (hk : k = 0 ∨ 2 ^ 23 ≤ n) :
    magUnits (k * 2 ^ 23 + n) = n * 2 ^ k := by
  unfold magUnits
  rcases Nat.lt_or_ge n (2 ^ 23) with h | h
  · have hk0 : k = 0 := by omega
    subst hk0
    have e1 : (0 * 2 ^ 23 + n) / 2 ^ 23 = 0 := by omega
    have e2 : (0 * 2 ^ 23 + n) % 2 ^ 23 = n := by omega
    rw [if_pos e1, e2, Nat.pow_zero, Nat.mul_one]
  · rcases Nat.lt_or_eq_of_le hn with h24 | rfl
    · have e1 : (k * 2 ^ 23 + n) / 2 ^ 23 = k + 1 := by omega
      have e2 : (k * 2 ^ 23 + n) % 2 ^ 23 = n - 2 ^ 23 := by omega
      rw [if_neg (by omega), e1, e2, Nat.add_sub_cancel, show 2 ^ 23 + (n - 2 ^ 23) = n by omega]
    · have e1 : (k * 2 ^ 23 + 2 ^ 24) / 2 ^ 23 = k + 2 := by omega
      have e2 : (k * 2 ^ 23 + 2 ^ 24) % 2 ^ 23 = 0 := by omega
      rw [if_neg (by omega), e1, e2]
      rw [show k + 2 - 1 = k + 1 by omega, Nat.pow_succ]; ring

/-- The two kinds of magnitude: below 2^24 units it is its own magnitude bits; otherwise a 24-bit significand with a
spacing. -/
theorem magUnits_cases (m : Nat) :
    (m < 2 ^ 23 ∧ magUnits m = m) ∨
    ∃ k n, 2 ^ 23 ≤ n ∧ n < 2 ^ 24 ∧ m = k * 2 ^ 23 + n ∧ magUnits m = n * 2 ^ k := by
  rcases Nat.lt_or_ge m (2 ^ 23) with h | h
  · exact .inl ⟨h, by simpa using magUnits_of_significand 0 (n := m) (by omega) (.inl rfl)⟩
  · refine .inr ⟨m / 2 ^ 23 - 1, 2 ^ 23 + m % 2 ^ 23, by omega, by omega, by omega, ?_⟩
    have := magUnits_of_significand (m / 2 ^ 23 - 1) (n := 2 ^ 23 + m % 2 ^ 23) (by omega) (.inr (by omega))
    rwa [show (m / 2 ^ 23 - 1) * 2 ^ 23 + (2 ^ 23 + m % 2 ^ 23) = m by omega] at this

/-- Where the spacing puts the quotient: below 2^24 steps, and at least 2^23 steps where a step is more than a unit. -/
theorem spacing_bounds (num : Nat) {den : Nat} (h : 0 < den) :
    num < 2 ^ 24 * (den * 2 ^ spacing num den) ∧
    (spacing num den = 0 ∨ 2 ^ 23 * (den * 2 ^ spacing num den) ≤ num) := by
  unfold spacing
  have hq := Nat.lt_mul_div_succ num h
  have hle : num / den * den ≤ num := Nat.div_mul_le_self num den
  have hlt : num / den < 2 ^ (Nat.log2 (num / den) + 1) := Nat.lt_log2_self
  constructor
  · have e : 2 ^ (Nat.log2 (num / den) + 1) ≤ 2 ^ 24 * 2 ^ (Nat.log2 (num / den) - 23) := by
      rw [← Nat.pow_add]; exact Nat.pow_le_pow_right (by norm_num) (by omega)
    calc num < den * (num / den + 1) := hq
      _ ≤ den * (2 ^ 24 * 2 ^ (Nat.log2 (num / den) - 23)) := Nat.mul_le_mul_left _ (by omega)
      _ = _ := by ring
  · rcases Nat.lt_or_ge (Nat.log2 (num / den)) 24 with h24 | h24
    · exact .inl (by omega)
    · right
      have hne : num / den ≠ 0 := by intro h0; rw [h0] at h24; simp at h24
      have e : 2 ^ 23 * 2 ^ (Nat.log2 (num / den) - 23) = 2 ^ Nat.log2 (num / den) := by
        rw [← Nat.pow_add]; congr 1; omega
      calc 2 ^ 23 * (den * 2 ^ (Nat.log2 (num / den) - 23))
          = den * (2 ^ 23 * 2 ^ (Nat.log2 (num / den) - 23)) := by ring
        _ = den * 2 ^ Nat.log2 (num / den) := by rw [e]
        _ ≤ den * (num / den) := Nat.mul_le_mul_left _ (Nat.log2_self_le hne)
        _ ≤ num := by rw [Nat.mul_comm]; exact hle

/-- The rounded significand at the chosen spacing. -/
def significand (num den : Nat) : Nat := roundQuot num (den * 2 ^ spacing num den)

theorem significand_bounds (num : Nat) {den : Nat} (h : 0 < den) :
    significand num den ≤ 2 ^ 24 ∧ (spacing num den = 0 ∨ 2 ^ 23 ≤ significand num den) := by
  have hs := spacing_bounds num h
  have hpos : 0 < den * 2 ^ spacing num den := by positivity
  exact ⟨roundQuot_le hpos hs.1.le, hs.2.imp id fun hb => le_roundQuot hpos hb⟩

/-- Everything rounding can give: the significand at its spacing, or an infinity. -/
theorem roundMag_eq (num den : Nat) :
    roundMag num den = min (spacing num den * 2 ^ 23 + significand num den) infBits := rfl

theorem roundMag_le (num den : Nat) : roundMag num den ≤ infBits := Nat.min_le_right _ _

theorem roundMag_lt (num den : Nat) : roundMag num den < 2 ^ 31 := lt_of_le_of_lt (roundMag_le num den) infBits_lt

/-- A finite rounded magnitude is its significand times its spacing. -/
theorem magUnits_roundMag (num : Nat) {den : Nat} (h : 0 < den) (hf : roundMag num den < infBits) :
    magUnits (roundMag num den) = significand num den * 2 ^ spacing num den := by
  have hb := significand_bounds num h
  rw [roundMag_eq] at hf ⊢
  rw [Nat.min_eq_left (by omega)]
  exact magUnits_of_significand _ hb.1 hb.2

/-- A multiple of a significand and its spacing is chosen with that spacing. -/
theorem spacing_of_exact {k n : Nat} (h1 : 2 ^ 23 ≤ n) (h2 : n < 2 ^ 24) : spacing (n * 2 ^ k) 1 = k := by
  have hne : n * 2 ^ k ≠ 0 := by positivity
  have hlog : Nat.log2 (n * 2 ^ k) = k + 23 := by
    rw [Nat.log2_eq_iff hne]
    constructor
    · calc 2 ^ (k + 23) = 2 ^ 23 * 2 ^ k := by ring
        _ ≤ n * 2 ^ k := Nat.mul_le_mul_right _ h1
    · calc n * 2 ^ k < 2 ^ 24 * 2 ^ k := Nat.mul_lt_mul_of_pos_right h2 (by positivity)
        _ = 2 ^ (k + 23 + 1) := by ring
  rw [spacing, Nat.div_one, hlog, Nat.add_sub_cancel]

theorem spacing_of_small {q : Nat} (h : q < 2 ^ 24) : spacing q 1 = 0 := by
  rw [spacing, Nat.div_one]
  have : Nat.log2 q < 24 := by
    rcases Nat.eq_zero_or_pos q with rfl | hq
    · simp
    · exact (Nat.log2_lt (by omega)).mpr h
  omega

/-- Rounding an exact magnitude gives it back. -/
theorem roundMag_magUnits {m : Nat} (hm : m < infBits) : roundMag (magUnits m) 1 = m := by
  rw [roundMag_eq, significand]
  rcases magUnits_cases m with ⟨hlt, he⟩ | ⟨k, n, h1, h2, rfl, he⟩
  · rw [he, spacing_of_small (by omega)]
    rw [show roundQuot m (1 * 2 ^ 0) = m by simpa using roundQuot_mul m (den := 1) (by norm_num)]
    omega
  · rw [he, spacing_of_exact h1 h2, Nat.one_mul, roundQuot_mul _ (by positivity)]
    omega

/-- A quotient written with a common factor rounds alike. -/
theorem roundMag_mul_right (num den : Nat) {c : Nat} (hc : 0 < c) : roundMag (num * c) (den * c) = roundMag num den := by
  have hs : spacing (num * c) (den * c) = spacing num den := by rw [spacing, spacing, Nat.mul_div_mul_right _ _ hc]
  have hq : ∀ d, roundQuot (num * c) (d * c) = roundQuot num d := fun d => by
    have e1 : d * c < 2 * (num % d * c) ↔ d < 2 * (num % d) := by
      rw [← Nat.mul_assoc]; exact Nat.mul_lt_mul_right hc
    have e2 : 2 * (num % d * c) = d * c ↔ 2 * (num % d) = d := by
      rw [← Nat.mul_assoc]; exact Nat.mul_left_inj hc.ne'
    simp only [roundQuot, Nat.mul_div_mul_right _ _ hc, Nat.mul_mod_mul_right, e1, e2]
  rw [roundMag, roundMag, hs, Nat.mul_right_comm, hq]

end Sys2Proof.Machine
end

