-- ==== Sys2Proof/Laws/Delay.lean ====
section
/-!
SUPPORT. What the delay line's operations can do, said once.
-/

namespace Sys2Proof.Machine

/-- The cursor's advance is addition modulo `D` (10_state.md R24). -/
theorem advance_eq (p : Params) {cur : Nat} (h : cur < p.d) : advance p cur = (cur + 1) % p.d := by
  unfold advance
  split
  · rw [Nat.mod_eq_of_lt (by assumption)]
  · rw [show cur + 1 = p.d by omega, Nat.mod_self]

theorem advance_lt (p : Params) {cur : Nat} (h : cur < p.d) : advance p cur < p.d := by
  unfold advance; split <;> omega

@[simp] theorem dlyStep_dl_length (p : Params) (x : F32) (u : Dly) : (dlyStep p x u).2.dl.length = u.dl.length := by
  simp [dlyStep]

@[simp] theorem dlyStep_cur (p : Params) (x : F32) (u : Dly) : (dlyStep p x u).2.cur = advance p u.cur := rfl

/-- A sample step stays in DLY's ranges. -/
theorem dlyStep_keeps_inRange {p : Params} {u : Dly} (h : dlyInRange p u) (x : F32) :
    dlyInRange p (dlyStep p x u).2 :=
  by
  rw [dlyInRange_iff] at h ⊢
  exact ⟨h.1, by simpa [Memory.wf] using h.2.1, by rw [dlyStep_cur]; exact advance_lt p h.2.2⟩

/-- The sample loop gives one output a sample (40_delay.md R107). -/
@[simp] theorem dlyRun_length (p : Params) (xs : List F32) (u : Dly) : (dlyRun p xs u).1.length = xs.length := by
  induction xs generalizing u with
  | nil => rfl
  | cons x xs ih => simp [dlyRun, ih]

theorem dlyRun_keeps_inRange {p : Params} {u : Dly} (h : dlyInRange p u) (xs : List F32) :
    dlyInRange p (dlyRun p xs u).2 := by
  induction xs generalizing u with
  | nil => exact h
  | cons x xs ih => exact ih (dlyStep_keeps_inRange h x)

/-- The sample loop is a left fold: a block in two parts is one block (40_delay.md R107). -/
theorem dlyRun_append (p : Params) (xs ys : List F32) (u : Dly) :
    dlyRun p (xs ++ ys) u =
      ((dlyRun p xs u).1 ++ (dlyRun p ys (dlyRun p xs u).2).1, (dlyRun p ys (dlyRun p xs u).2).2) := by
  induction xs generalizing u with
  | nil => rfl
  | cons x xs ih => simp [dlyRun, ih]

/-- Where the cursor ends (40_delay.md R100). -/
theorem dlyRun_cur {p : Params} {u : Dly} (h : dlyInRange p u) (xs : List F32) :
    (dlyRun p xs u).2.cur = (u.cur + xs.length) % p.d := by
  induction xs generalizing u with
  | nil => exact (Nat.mod_eq_of_lt (dlyInRange_iff.mp h).2.2).symm
  | cons x xs ih =>
    rw [dlyRun, ih (dlyStep_keeps_inRange h x), dlyStep_cur, advance_eq p (dlyInRange_iff.mp h).2.2, Nat.mod_add_mod, List.length_cons]
    congr 1; omega

/-- Clearing stays in DLY's ranges. -/
theorem dlyClear_keeps_inRange {p : Params} {u : Dly} (h : dlyInRange p u) : dlyInRange p (dlyClear u) :=
  by
  rw [dlyInRange_iff] at h ⊢
  exact ⟨h.1, by simpa [Memory.wf] using h.2.1, by have := h.1.1; simp; omega⟩

/-- A cleared delay line is the one hardware reset leaves (40_delay.md R101). -/
theorem dlyClear_eq_reset {p : Params} {u : Dly} (h : dlyInRange p u) : dlyClear u = dlyAtReset p u.draws := by
  have := (dlyInRange_iff.mp h).2.1
  simp only [Memory.wf] at this
  simp [dlyClear, dlyAtReset, List.map_const', this]

end Sys2Proof.Machine
end

