-- ==== Sys2Proof/Laws/Analyzer.lean ====
section
/-!
SUPPORT. What a frame and the frame loop of SPA can do, said once.
-/

namespace Sys2Proof.Machine

@[simp] theorem spaComplete_acc (p : Params) (u : Spa) : (spaComplete p u).acc = accEmpty u.acc := rfl
@[simp] theorem spaComplete_win (p : Params) (u : Spa) : (spaComplete p u).win = u.win := rfl
@[simp] theorem spaComplete_wlut (p : Params) (u : Spa) : (spaComplete p u).wlut = u.wlut := rfl

theorem weightsFor_length {sizes : List Nat} {p : Params} {u : Spa} (h : spaInRange sizes p u) :
    (weightsFor u.wlut u.win).length = p.n := by
  rw [spaInRange_iff] at h
  have h5 : u.wlut.length = 5 := h.2.2.2.2.2.2.1
  have hk : kindRow (kindOf u.win) < u.wlut.length := by rw [h5]; cases kindOf u.win <;> decide
  rw [weightsFor, List.getD_eq_getElem _ _ hk]
  exact h.2.2.2.2.2.2.2 _ (List.getElem_mem hk)

/-- The transform sees the same of two patterns that agree up to a NaN (44_window_numerics.md R181, log 23). -/
theorem engineValue_of_isNaN {x y : F32} (hx : isNaN x = true) (hy : isNaN y = true) : engineValue x = engineValue y := by
  simp [engineValue, hx, hy]

@[simp] theorem spaInput_length (xs : List F32) : (spaInput xs).length = xs.length := by simp [spaInput]

/-- A frame stays in SPA's ranges. -/
theorem spaFrame_keeps_inRange {sizes : List Nat} {p : Params} {u : Spa} (h : spaInRange sizes p u) :
    spaInRange sizes p (spaFrame p u) := by
  rw [spaInRange_iff] at h ⊢
  have hsm : u.sm.length = p.n / 2 := h.2.2.2.1
  have hb : u.acc.buf.length = p.n := h.2.1.1
  refine ⟨h.1, h.2.1, ⟨by simp [Memory.wf, spaFrame], by simp [Memory.wf, spaFrame]⟩, ?_, ?_, ?_, h.2.2.2.2.2.2⟩
  · simp [Memory.wf, spaFrame, spaBins, hsm]; omega
  · simpa [Memory.wf, spaFrame, spaTime] using hb
  · simp [Memory.wf, spaFrame, spaBins, hsm]; omega

theorem spaComplete_keeps_inRange {sizes : List Nat} {p : Params} {u : Spa} (h : spaInRange sizes p u) :
    spaInRange sizes p (spaComplete p u) := by
  have hf := spaFrame_keeps_inRange h
  rw [spaInRange_iff] at hf ⊢
  exact ⟨hf.1, ⟨hf.2.1.1, Nat.zero_le _⟩, hf.2.2⟩

/-- Filling the accumulator stays in SPA's ranges. -/
theorem spaFill_keeps_inRange {sizes : List Nat} {p : Params} {u : Spa} (h : spaInRange sizes p u) (xs : List F32) :
    spaInRange sizes p { u with acc := (accFill p.n u.acc xs).1 } :=
by
  rw [spaInRange_iff] at h ⊢
  exact ⟨h.1, accFill_keeps_wf h.2.1.1 h.2.1.2 xs, h.2.2⟩

/-- A pass of the frame loop that leaves the accumulator partly filled (42_analyzer.md R130, step 2). -/
theorem feedLoop_partial {p : Params} {u : Spa} {xs : List F32} (h : u.acc.fill + xs.length < p.n) (fuel : Nat)
    (b : Bool) : feedLoop p (fuel + 1) u xs b = ({ u with acc := (accFill p.n u.acc xs).1 }, b) := by
  have hn : accIsFull p.n (accFill p.n u.acc xs).1 = false := by
    rw [accIsFull_accFill (by omega)]; simpa using h
  rw [feedLoop]
  simp only [hn]
  rfl

/-- A pass of the frame loop that completes a frame (42_analyzer.md R130, steps 3 to 8). -/
theorem feedLoop_frame {p : Params} {u : Spa} {xs : List F32} (hf : u.acc.fill ≤ p.n)
    (h : p.n ≤ u.acc.fill + xs.length) (fuel : Nat) (b : Bool) :
    feedLoop p (fuel + 1) u xs b =
      if (xs.drop (p.n - u.acc.fill)).isEmpty then
        (spaComplete p { u with acc := (accFill p.n u.acc xs).1 }, true)
      else feedLoop p fuel (spaComplete p { u with acc := (accFill p.n u.acc xs).1 })
        (xs.drop (p.n - u.acc.fill)) true := by
  have hn : accIsFull p.n (accFill p.n u.acc xs).1 = true := by rw [accIsFull_accFill hf]; simpa using h
  have hr : accRoom p.n u.acc xs = p.n - u.acc.fill := by simp only [accRoom]; omega
  rw [feedLoop]
  simp only [hn, accFill_rest, hr]
  rfl

/-- FEED's loop with the fuel its meaning gives it. -/
def feedRun (p : Params) (u : Spa) (xs : List F32) : Spa × Bool := feedLoop p (xs.length + 2) u xs false

/-- Fuel beyond what the block needs changes nothing (log 17). -/
theorem feedLoop_fuel {p : Params} (hN : 0 < p.n) (xs : List F32) (u : Spa) (hf : u.acc.fill ≤ p.n) (b : Bool)
    (fuel : Nat) (h : xs.length + (if u.acc.fill = p.n then 2 else 1) ≤ fuel) :
    feedLoop p fuel u xs b = feedLoop p (xs.length + 2) u xs b := by
  induction hl : xs.length using Nat.strong_induction_on generalizing xs u b fuel with
  | _ l ih =>
    subst hl
    obtain ⟨f, rfl⟩ : ∃ f, fuel = f + 1 := ⟨fuel - 1, by split at h <;> omega⟩
    rcases Nat.lt_or_ge (u.acc.fill + xs.length) p.n with hlt | hge
    · rw [feedLoop_partial hlt, feedLoop_partial hlt]
    · rw [feedLoop_frame hf hge, feedLoop_frame hf hge]
      by_cases he : (xs.drop (p.n - u.acc.fill)).isEmpty
      · rw [if_pos he, if_pos he]
      · rw [if_neg he, if_neg he]
        have hne : xs.drop (p.n - u.acc.fill) ≠ [] := by simpa using he
        have hlen : (xs.drop (p.n - u.acc.fill)).length = xs.length - (p.n - u.acc.fill) := List.length_drop
        by_cases hfull : u.acc.fill = p.n
        · simp only [hfull, Nat.sub_self, List.drop_zero] at hne hlen ⊢
          rw [if_pos hfull] at h
          -- one more pass on each side, now from an empty accumulator
          obtain ⟨g, rfl⟩ : ∃ g, f = g + 1 := ⟨f - 1, by omega⟩
          have hpos : 0 < xs.length := List.length_pos_iff.mpr hne
          generalize hu : spaComplete p { u with acc := (accFill p.n u.acc xs).1 } = v
          have hv : v.acc.fill = 0 := by rw [← hu]; rfl
          rcases Nat.lt_or_ge (v.acc.fill + xs.length) p.n with hlt' | hge'
          · rw [feedLoop_partial hlt', feedLoop_partial hlt']
          · rw [feedLoop_frame (by omega) hge', feedLoop_frame (by omega) hge']
            by_cases he' : (xs.drop (p.n - v.acc.fill)).isEmpty
            · rw [if_pos he', if_pos he']
            · rw [if_neg he', if_neg he']
              have hl' : (xs.drop (p.n - v.acc.fill)).length = xs.length - (p.n - v.acc.fill) := List.length_drop
              have hz : (spaComplete p { v with acc := (accFill p.n v.acc xs).1 }).acc.fill = 0 := rfl
              rw [ih _ (by rw [hl']; omega) (xs.drop (p.n - v.acc.fill)) _ (by rw [hz]; omega) true g
                    (by rw [hz, hl', if_neg (by omega)]; omega) rfl,
                  ih _ (by rw [hl']; omega) (xs.drop (p.n - v.acc.fill)) _ (by rw [hz]; omega) true xs.length
                    (by rw [hz, hl', if_neg (by omega)]; omega) rfl]
        · have hz : (spaComplete p { u with acc := (accFill p.n u.acc xs).1 }).acc.fill = 0 := rfl
          rw [if_neg hfull] at h
          rw [ih _ (by rw [hlen]; omega) (xs.drop (p.n - u.acc.fill)) _ (by rw [hz]; omega) true f
                (by rw [hz, hlen, if_neg (by omega)]; omega) rfl,
              ih _ (by rw [hlen]; omega) (xs.drop (p.n - u.acc.fill)) _ (by rw [hz]; omega) true (xs.length + 1)
                (by rw [hz, hlen, if_neg (by omega)]; omega) rfl]

/-- The flag of the frame loop only rises. -/
theorem feedLoop_flag (p : Params) (fuel : Nat) (u : Spa) (xs : List F32) :
    (feedLoop p fuel u xs true).1 = (feedLoop p fuel u xs false).1 ∧ (feedLoop p fuel u xs true).2 = true := by
  cases fuel with
  | zero => exact ⟨rfl, rfl⟩
  | succ fuel =>
    have aux : ∀ f v ys, (feedLoop p f v ys true).2 = true := by
      intro f
      induction f with
      | zero => intros; rfl
      | succ f ih => intro v ys; rw [feedLoop]; simp only; split_ifs <;> first | rfl | exact ih _ _
    refine ⟨?_, aux _ _ _⟩
    simp only [feedLoop]
    split_ifs <;> rfl

/-- FEED of a block that leaves the accumulator partly filled. -/
theorem feedRun_partial {p : Params} {u : Spa} {xs : List F32} (h : u.acc.fill + xs.length < p.n) :
    feedRun p u xs = ({ u with acc := (accFill p.n u.acc xs).1 }, false) := feedLoop_partial h _ _

/-- FEED of a block that completes a frame: the frame, then FEED of the rest of the block. -/
theorem feedRun_frame {p : Params} {u : Spa} {xs : List F32} (hf : u.acc.fill < p.n)
    (h : p.n ≤ u.acc.fill + xs.length) :
    feedRun p u xs =
      ((feedRun p (spaComplete p { u with acc := (accFill p.n u.acc xs).1 }) (xs.drop (p.n - u.acc.fill))).1, true) := by
  rw [feedRun, feedLoop_frame (by omega) h]
  generalize hv : spaComplete p { u with acc := (accFill p.n u.acc xs).1 } = v
  have hz : v.acc.fill = 0 := by rw [← hv]; rfl
  split_ifs with he
  · have hnil : xs.drop (p.n - u.acc.fill) = [] := by simpa using he
    rw [hnil, feedRun_partial (by simp only [hz, List.length_nil]; omega)]
    simp [accFill, accRoom, memWriteRun]
  · have hl : (xs.drop (p.n - u.acc.fill)).length = xs.length - (p.n - u.acc.fill) := List.length_drop
    rw [feedLoop_fuel (by omega) _ _ (by omega) true _ (by rw [hl, hz, if_neg (by omega)]; omega)]
    have := feedLoop_flag p ((xs.drop (p.n - u.acc.fill)).length + 2) v (xs.drop (p.n - u.acc.fill))
    exact Prod.ext this.1 this.2

/-- FEED stays in SPA's ranges, keeps the window index and the window table, and leaves room. -/
theorem feedRun_keeps {sizes : List Nat} {p : Params} (xs : List F32) {u : Spa} (h : spaInRange sizes p u)
    (hf : u.acc.fill < p.n) :
    spaInRange sizes p (feedRun p u xs).1 ∧ (feedRun p u xs).1.acc.fill < p.n ∧
    (feedRun p u xs).1.win = u.win ∧ (feedRun p u xs).1.wlut = u.wlut := by
  induction hl : xs.length using Nat.strong_induction_on generalizing xs u with
  | _ l ih =>
    subst hl
    rcases Nat.lt_or_ge (u.acc.fill + xs.length) p.n with hlt | hge
    · rw [feedRun_partial hlt]
      refine ⟨spaFill_keeps_inRange h xs, ?_, rfl, rfl⟩
      show (accFill p.n u.acc xs).1.fill < p.n
      rw [(accFill_spec (spaInRange_iff.mp h).2.1.1 (spaInRange_iff.mp h).2.1.2 xs).1]; omega
    · rw [feedRun_frame hf hge]
      have hc := spaComplete_keeps_inRange (spaFill_keeps_inRange h xs)
      exact ih _ (by rw [List.length_drop]; omega) _ hc (by show 0 < p.n; omega) rfl

/-- A block in two parts is one block: the frames and the state are the same (42_analyzer.md R139). -/
theorem feedRun_append {p : Params} (xs ys : List F32) {u : Spa} (hf : u.acc.fill < p.n) :
    (feedRun p u (xs ++ ys)).1 = (feedRun p (feedRun p u xs).1 ys).1 := by
  induction hl : xs.length using Nat.strong_induction_on generalizing xs u with
  | _ l ih =>
    subst hl
    rcases Nat.lt_or_ge (u.acc.fill + xs.length) p.n with hlt | hge
    · rw [feedRun_partial hlt]
      have hfill : (accFill p.n u.acc xs).1.fill = u.acc.fill + xs.length := by rw [accFill_of_fits xs (by omega)]
      rcases Nat.lt_or_ge (u.acc.fill + (xs ++ ys).length) p.n with hlt2 | hge2
      · rw [feedRun_partial hlt2, feedRun_partial (by rw [hfill]; simpa [Nat.add_assoc] using hlt2)]
        simp only [accFill_append xs ys (Nat.le_of_lt hlt)]
      · rw [feedRun_frame hf hge2, feedRun_frame (u := { u with acc := (accFill p.n u.acc xs).1 })
          (by simp only [hfill]; exact hlt) (by simp only [hfill]; simpa [Nat.add_assoc] using hge2)]
        simp only [accFill_append xs ys (Nat.le_of_lt hlt), hfill]
        rw [List.drop_append, List.drop_of_length_le (by omega), List.nil_append, Nat.sub_sub]
    · have hge2 : p.n ≤ u.acc.fill + (xs ++ ys).length := by rw [List.length_append]; omega
      rw [feedRun_frame hf hge2, feedRun_frame hf hge]
      have hacc : (accFill p.n u.acc (xs ++ ys)).1 = (accFill p.n u.acc xs).1 := by
        have e : accRoom p.n u.acc (xs ++ ys) = p.n - u.acc.fill := by
          simp only [accRoom, List.length_append]; omega
        have e' : accRoom p.n u.acc xs = p.n - u.acc.fill := by simp only [accRoom]; omega
        simp only [accFill, e, e']
        rw [List.take_append_of_le_length (by omega)]
      rw [hacc, List.drop_append_of_le_length (by omega)]
      exact ih _ (by rw [List.length_drop]; omega) _ (by show 0 < p.n; omega) rfl

end Sys2Proof.Machine
end

