-- ==== Sys2Proof/Laws/Cosine.lean ====
section
/-!
SUPPORT. The enclosure of the cosine that the window table is computed from is one of the real cosine: the remainders
of its series, the digits of pi, and the bounds over the whole turn (log 9).
-/

namespace Sys2Proof.Machine

/-! ### The remainders of the cosine series -/

/-- The sum of the first `m` terms of the cosine series at `x`. -/
noncomputable def cosSum (m : Nat) (x : ℝ) : ℝ :=
  ∑ k ∈ Finset.range m, (-1) ^ k * x ^ (2 * k) / ((2 * k).factorial : ℝ)

/-- Between two partial sums: from the second one on, the cosine differs from a partial sum by at most the next term,
in that term's direction. -/
theorem cos_sub_cosSum {x : ℝ} (hx : x ^ 2 ≤ 12) {m : Nat} (hm : 1 ≤ m) :
    0 ≤ (-1) ^ m * (Real.cos x - cosSum m x) ∧
    (-1) ^ m * (Real.cos x - cosSum m x) ≤ x ^ (2 * m) / ((2 * m).factorial : ℝ) := by
  let f : Nat → ℝ := fun i => x ^ (2 * (m + i)) / ((2 * (m + i)).factorial : ℝ)
  have hanti : Antitone f := antitone_nat_of_succ_le fun i => by
    have hfac : ((2 * (m + (i + 1))).factorial : ℝ) =
        (2 * (m + i)).factorial * ((2 * (m + i) + 1 : ℝ) * (2 * (m + i) + 2)) := by
      rw [show 2 * (m + (i + 1)) = 2 * (m + i) + 1 + 1 by ring, Nat.factorial_succ, Nat.factorial_succ]
      push_cast; ring
    have hpow : x ^ (2 * (m + (i + 1))) = x ^ (2 * (m + i)) * x ^ 2 := by rw [← pow_add]; congr 1
    have h1 : (1 : ℝ) ≤ m := by exact_mod_cast hm
    have h2 : (0 : ℝ) ≤ i := Nat.cast_nonneg i
    have hbig : x ^ 2 ≤ (2 * (m + i) + 1 : ℝ) * (2 * (m + i) + 2) := by nlinarith
    have hpos : 0 ≤ x ^ (2 * (m + i)) := by rw [pow_mul]; positivity
    show x ^ (2 * (m + (i + 1))) / ((2 * (m + (i + 1))).factorial : ℝ) ≤ _
    rw [hfac, hpow, div_le_div_iff₀ (by positivity) (by positivity)]
    have hfp : (0 : ℝ) < (2 * (m + i)).factorial := by positivity
    nlinarith [mul_le_mul_of_nonneg_left hbig (mul_nonneg hpos hfp.le)]
  have hlim : Filter.Tendsto (fun n => ∑ i ∈ Finset.range n, (-1 : ℝ) ^ i * f i) Filter.atTop
      (nhds ((-1) ^ m * (Real.cos x - cosSum m x))) := by
    have hs := (Real.hasSum_cos x).tendsto_sum_nat
    have hs' := ((Filter.tendsto_add_atTop_iff_nat m).mpr hs).sub_const (cosSum m x)
    refine (hs'.const_mul ((-1) ^ m)).congr fun n => ?_
    rw [Nat.add_comm n m, Finset.sum_range_add, cosSum, add_sub_cancel_left, Finset.mul_sum]
    refine Finset.sum_congr rfl fun i _ => ?_
    show (-1 : ℝ) ^ m * ((-1) ^ (m + i) * x ^ (2 * (m + i)) / _) = (-1) ^ i * (x ^ (2 * (m + i)) / _)
    have h1 : (-1 : ℝ) ^ m * (-1) ^ m = 1 := by rw [← mul_pow]; norm_num
    rw [pow_add (-1 : ℝ), mul_div_assoc, ← mul_assoc, ← mul_assoc, h1, one_mul]
  have hlo := hanti.alternating_series_le_tendsto hlim 0
  have hhi := hanti.tendsto_le_alternating_series hlim 0
  simp only [Nat.mul_zero, Finset.range_zero, Finset.sum_empty] at hlo
  simp only [Nat.mul_zero, Nat.zero_add, Finset.range_one, Finset.sum_singleton, pow_zero, one_mul] at hhi
  exact ⟨hlo, by simpa [f] using hhi⟩

/-- The bracket of the nested cosine series from its `m`-th term on: what remains of the cosine, over that term. -/
noncomputable def cosRest (m : Nat) (x : ℝ) : ℝ :=
  (-1) ^ m * (Real.cos x - cosSum m x) * ((2 * m).factorial : ℝ) / x ^ (2 * m)

theorem cosRest_zero (x : ℝ) : cosRest 0 x = Real.cos x := by simp [cosRest, cosSum]

/-- A bracket of the nested series from the next one. -/
theorem cosRest_succ {x : ℝ} (hx : x ≠ 0) (m : Nat) :
    cosRest m x = 1 - x ^ 2 * cosRest (m + 1) x / ((2 * m + 1) * (2 * m + 2)) := by
  have hfac : ((2 * (m + 1)).factorial : ℝ) = (2 * m).factorial * ((2 * m + 1 : ℝ) * (2 * m + 2)) := by
    rw [show 2 * (m + 1) = 2 * m + 1 + 1 by ring, Nat.factorial_succ, Nat.factorial_succ]
    push_cast; ring
  have hf : ((2 * m).factorial : ℝ) ≠ 0 := by positivity
  have hj : ((2 * m + 1 : ℝ) * (2 * m + 2)) ≠ 0 := by positivity
  have hp : x ^ (2 * m) ≠ 0 := pow_ne_zero _ hx
  have hs : (-1 : ℝ) ^ m * (-1) ^ m = 1 := by rw [← mul_pow]; norm_num
  have hsum : cosSum (m + 1) x = cosSum m x + (-1) ^ m * x ^ (2 * m) / ((2 * m).factorial : ℝ) := by
    rw [cosSum, Finset.sum_range_succ, ← cosSum]
  rw [cosRest, cosRest, hsum, hfac, pow_succ (-1 : ℝ) m, show x ^ (2 * (m + 1)) = x ^ (2 * m) * x ^ 2 by
    rw [← pow_add]; congr 1]
  field_simp
  linear_combination x ^ (2 * m) * hs

/-- From the second term on a bracket lies between 0 and 1. -/
theorem cosRest_bounds {x : ℝ} (h0 : x ≠ 0) (hx : x ^ 2 ≤ 12) {m : Nat} (hm : 1 ≤ m) :
    0 ≤ cosRest m x ∧ cosRest m x ≤ 1 := by
  have h := cos_sub_cosSum hx hm
  have hp : 0 < x ^ (2 * m) := by rw [pow_mul]; positivity
  have hf : (0 : ℝ) < (2 * m).factorial := by positivity
  rw [le_div_iff₀ hf] at h
  exact ⟨div_nonneg (mul_nonneg h.1 hf.le) hp.le, (div_le_one hp).mpr h.2⟩

/-! ### Exact bounds at a rational, and pi -/

/-- The nested cosine series with `terms` factors at `t = p / q`, as an exact fraction; the bracket after the last
factor is taken to be `last`. -/
def nested (p q : Int) (last : Int) : (terms : Nat) → (j : Int) → Int × Int
  | 0, _ => (last, 1)
  | k + 1, j =>
    let c := nested p q last k (j + 2)
    (c.2 * q * (j * (j + 1)) - p * c.1, c.2 * q * (j * (j + 1)))

theorem nested_den_pos {p q : Int} (hq : 0 < q) (last : Int) (terms : Nat) {j : Int} (hj : 0 < j) :
    0 < (nested p q last terms j).2 := by
  induction terms generalizing j with
  | zero => exact one_pos
  | succ k ih =>
    have := ih (j := j + 2) (by omega)
    have hjj : 0 < j * (j + 1) := by positivity
    exact Int.mul_pos (Int.mul_pos this hq) hjj

/-- One factor of the nested series as a fraction. -/
theorem nested_succ {p q : Int} (hq : 0 < q) (last : Int) (k : Nat) {j : Int} (hj : 0 < j) :
    ((nested p q last (k + 1) j).1 : ℝ) / (nested p q last (k + 1) j).2 =
      1 - (p / q : ℝ) * ((nested p q last k (j + 2)).1 / (nested p q last k (j + 2)).2) / (j * (j + 1)) := by
  have hd : ((nested p q last k (j + 2)).2 : ℝ) ≠ 0 := by
    exact_mod_cast (nested_den_pos hq last k (j := j + 2) (by omega)).ne'
  have hq' : (q : ℝ) ≠ 0 := by exact_mod_cast hq.ne'
  have hj' : (j : ℝ) ≠ 0 := by exact_mod_cast hj.ne'
  have hj1 : (j : ℝ) + 1 ≠ 0 := by exact_mod_cast (show j + 1 ≠ 0 by omega)
  simp only [nested]
  push_cast
  field_simp

/-- With an even number of factors, the nested series with last bracket 0 is a lower bound and with last bracket 1 an
upper bound. -/
theorem nested_bounds {p q : Int} (hq : 0 < q) {x : ℝ} (h0 : x ≠ 0) (hx : x ^ 2 ≤ 12)
    (hpq : (p / q : ℝ) = x ^ 2) (k m : Nat) (hm : 1 ≤ m ∨ 0 < k) :
    ((nested p q 0 (2 * k) (2 * m + 1)).1 : ℝ) / (nested p q 0 (2 * k) (2 * m + 1)).2 ≤ cosRest m x ∧
    cosRest m x ≤ ((nested p q 1 (2 * k) (2 * m + 1)).1 : ℝ) / (nested p q 1 (2 * k) (2 * m + 1)).2 := by
  induction k generalizing m with
  | zero =>
    have := cosRest_bounds h0 hx (m := m) (by omega)
    simpa [nested] using this
  | succ k ih =>
    have h := ih (m + 2) (.inl (by omega))
    have e : ((2 * (m + 2 : Nat) : Int) + 1) = 2 * m + 1 + 2 + 2 := by push_cast; ring
    rw [e] at h
    have hj1 : (0 : Int) < 2 * m + 1 := by omega
    have hj2 : (0 : Int) < 2 * m + 1 + 2 := by omega
    have hx2 : 0 ≤ x ^ 2 := sq_nonneg x
    rw [cosRest_succ h0 m, cosRest_succ h0 (m + 1), show 2 * (k + 1) = 2 * k + 1 + 1 by ring, nested_succ hq 0 _ hj1,
      nested_succ hq 1 _ hj1, nested_succ hq 0 _ hj2, nested_succ hq 1 _ hj2, hpq]
    push_cast
    have c1 : (0 : ℝ) < (2 * m + 1) * (2 * m + 1 + 1) := by positivity
    have c2 : (0 : ℝ) < (2 * m + 1 + 2) * (2 * m + 1 + 2 + 1) := by positivity
    have e1 : ((2 * m + 1 : ℝ) * (2 * m + 2)) = (2 * m + 1) * (2 * m + 1 + 1) := by ring
    have e2 : ((2 * (m + 1 : ℝ) + 1) * (2 * (m + 1) + 2)) = (2 * m + 1 + 2) * (2 * m + 1 + 2 + 1) := by ring
    rw [e1, e2]
    constructor <;> gcongr
    · exact h.1
    · exact h.2

/-- The fixed-point value of pi is its integer part (44_window_numerics.md R187; log 9). -/
theorem pi_bounds : (piFloor : ℝ) < Real.pi * fixOne ∧ Real.pi * fixOne < piFloor + 1 := by
  have hf : (0 : ℝ) < fixOne := by rw [fixOne]; positivity
  have h3 := Real.pi_gt_three
  have h4 := Real.pi_le_four
  have key : ∀ a : Nat, 2 * fixOne < a → a < 4 * fixOne →
      ((a : ℝ) / (2 * fixOne) ≠ 0 ∧ ((a : ℝ) / (2 * fixOne)) ^ 2 ≤ 12 ∧ (a : ℝ) / (2 * fixOne) < 2 ∧
        (((a * a : Nat) : Int) / ((4 * fixOne * fixOne : Nat) : Int) : ℝ) = ((a : ℝ) / (2 * fixOne)) ^ 2) := by
    intro a h1 h2
    have h1' : (2 * fixOne : ℝ) < a := by exact_mod_cast h1
    have h2' : (a : ℝ) < 4 * fixOne := by exact_mod_cast h2
    have hlt : (a : ℝ) / (2 * fixOne) < 2 := by rw [div_lt_iff₀ (by positivity)]; linarith
    have hgt : 0 < (a : ℝ) / (2 * fixOne) := by apply div_pos <;> linarith
    refine ⟨hgt.ne', by nlinarith, hlt, ?_⟩
    push_cast
    rw [div_pow]; ring
  constructor
  · obtain ⟨k0, k1, k2, k3⟩ := key piFloor (by decide +kernel) (by decide +kernel)
    have hb := (nested_bounds (by decide +kernel) k0 k1 k3 30 0 (.inr (by norm_num))).1
    rw [cosRest_zero] at hb
    have hpos : (0 : ℝ) <
        ((nested (piFloor * piFloor : Nat) (4 * fixOne * fixOne : Nat) 0 (2 * 30) (2 * (0 : Nat) + 1)).1 : ℝ) /
        (nested (piFloor * piFloor : Nat) (4 * fixOne * fixOne : Nat) 0 (2 * 30) (2 * (0 : Nat) + 1)).2 :=
      div_pos (by exact_mod_cast (by decide +kernel))
        (by exact_mod_cast nested_den_pos (by decide +kernel) _ _ (by norm_num))
    by_contra hle
    rw [not_lt] at hle
    have hge : Real.pi / 2 ≤ (piFloor : ℝ) / (2 * fixOne) := by
      rw [div_le_div_iff₀ (by norm_num) (by positivity)]; linarith
    have := Real.cos_nonpos_of_pi_div_two_le_of_le hge (by linarith)
    linarith
  · obtain ⟨k0, k1, k2, k3⟩ := key (piFloor + 1) (by decide +kernel) (by decide +kernel)
    have hb := (nested_bounds (by decide +kernel) k0 k1 k3 30 0 (.inr (by norm_num))).2
    rw [cosRest_zero] at hb
    have hneg :
        ((nested ((piFloor + 1) * (piFloor + 1) : Nat) (4 * fixOne * fixOne : Nat) 1 (2 * 30) (2 * (0 : Nat) + 1)).1 : ℝ) /
        (nested ((piFloor + 1) * (piFloor + 1) : Nat) (4 * fixOne * fixOne : Nat) 1 (2 * 30) (2 * (0 : Nat) + 1)).2 < 0 :=
      div_neg_of_neg_of_pos (by exact_mod_cast (by decide +kernel))
        (by exact_mod_cast nested_den_pos (by decide +kernel) _ _ (by norm_num))
    by_contra hle
    rw [not_lt] at hle
    have hge : ((piFloor + 1 : Nat) : ℝ) / (2 * fixOne) ≤ Real.pi / 2 := by
      rw [div_le_div_iff₀ (by positivity) (by norm_num)]; push_cast; linarith
    have h0 : (0 : ℝ) ≤ ((piFloor + 1 : Nat) : ℝ) / (2 * fixOne) := by positivity
    have := Real.cos_nonneg_of_mem_Icc (x := ((piFloor + 1 : Nat) : ℝ) / (2 * fixOne)) ⟨by linarith, hge⟩
    linarith

/-! ### The enclosure of the cosine -/

/-- The fixed-point bracket encloses the real one (log 9). -/
theorem cosBracket_sound {x : ℝ} (h0 : x ≠ 0) (hx : x ^ 2 ≤ 12) (hc : 0 ≤ Real.cos x) {tLo tHi : Nat}
    (hlo : (tLo : ℝ) ≤ x ^ 2 * fixOne) (hhi : x ^ 2 * fixOne ≤ tHi) (terms m : Nat) (hm : 1 ≤ m ∨ 0 < terms) :
    ((cosBracket terms tLo tHi (2 * m + 1)).1 : ℝ) ≤ cosRest m x * fixOne ∧
    cosRest m x * fixOne ≤ (cosBracket terms tLo tHi (2 * m + 1)).2 := by
  have hf : (0 : ℝ) < fixOne := by rw [fixOne]; positivity
  induction terms generalizing m with
  | zero =>
    have := cosRest_bounds h0 hx (m := m) (by omega)
    simp only [cosBracket, Nat.cast_zero]
    exact ⟨mul_nonneg this.1 hf.le, by nlinarith⟩
  | succ k ih =>
    have h := ih (m + 1) (.inl (by omega))
    have hr := cosRest_bounds h0 hx (m := m + 1) (by omega)
    have hnn : 0 ≤ cosRest m x := by
      rcases Nat.eq_zero_or_pos m with rfl | hm'
      · rw [cosRest_zero]; exact hc
      · exact (cosRest_bounds h0 hx hm').1
    rw [show 2 * (m + 1) + 1 = 2 * m + 1 + 2 by ring] at h
    have hs := cosRest_succ h0 m
    set r := cosRest (m + 1) x
    set c := cosBracket k tLo tHi (2 * m + 1 + 2)
    set d : Nat := fixOne * ((2 * m + 1) * (2 * m + 1 + 1)) with hd
    have hdpos : 0 < d := by rw [hd, fixOne]; positivity
    have hdR : (d : ℝ) = fixOne * ((2 * m + 1) * (2 * m + 2)) := by rw [hd]; push_cast; ring
    have hj : (0 : ℝ) < (2 * m + 1) * (2 * m + 2) := by positivity
    have hval : cosRest m x * fixOne = fixOne - (x ^ 2 * fixOne) * (r * fixOne) / d := by
      rw [hs, hdR]; field_simp
    have hx2 : 0 ≤ x ^ 2 * fixOne := by positivity
    have hdR' : (0 : ℝ) < d := by exact_mod_cast hdpos
    simp only [cosBracket, cosStepLo, cosStepHi]
    constructor
    · rcases Nat.lt_or_ge fixOne (tHi * c.2 / d + 1) with hlt | hge
      · rw [Nat.sub_eq_zero_of_le hlt.le, Nat.cast_zero]; exact mul_nonneg hnn hf.le
      · rw [Nat.cast_sub hge, hval]
        have h1 : ((tHi * c.2 : Nat) : ℝ) < (tHi * c.2 / d + 1 : Nat) * d := by
          exact_mod_cast Nat.lt_mul_of_div_lt (Nat.lt_succ_self _) hdpos
        have h2 : (x ^ 2 * fixOne) * (r * fixOne) ≤ tHi * c.2 :=
          mul_le_mul hhi h.2 (mul_nonneg hr.1 hf.le) (Nat.cast_nonneg _)
        have h3 : (x ^ 2 * fixOne) * (r * fixOne) / d ≤ (tHi * c.2 / d + 1 : Nat) := by
          rw [div_le_iff₀ hdR']; push_cast at h1 ⊢; linarith
        linarith
    · have h2 : (tLo * c.1 : ℝ) ≤ (x ^ 2 * fixOne) * (r * fixOne) := mul_le_mul hlo h.1 (Nat.cast_nonneg _) hx2
      have h1 : ((tLo * c.1 / d : Nat) : ℝ) ≤ (x ^ 2 * fixOne) * (r * fixOne) / d := by
        refine le_trans Nat.cast_div_le ?_
        push_cast
        gcongr
      have h4 : tLo * c.1 / d ≤ fixOne := by
        have : ((tLo * c.1 / d : Nat) : ℝ) ≤ fixOne := by
          have := mul_nonneg hnn hf.le
          linarith
        exact_mod_cast this
      rw [Nat.cast_sub h4, hval]
      linarith

/-- The enclosure in the first quarter turn. -/
theorem cosQuarter_sound {n m : Nat} (h0 : 0 < n) (h1 : 4 * n < m) :
    ((cosQuarter n m).1 : ℝ) ≤ Real.cos (2 * Real.pi * (n / m)) * fixOne ∧
    Real.cos (2 * Real.pi * (n / m)) * fixOne ≤ (cosQuarter n m).2 := by
  have hf : (0 : ℝ) < fixOne := by rw [fixOne]; positivity
  have hp := pi_bounds
  have hn : (0 : ℝ) < n := by exact_mod_cast h0
  have hm : (0 : ℝ) < m := by exact_mod_cast (show 0 < m by omega)
  have hq : (n : ℝ) / m < 1 / 4 := by rw [div_lt_div_iff₀ hm (by norm_num)]; exact_mod_cast (by omega)
  have hq0 : 0 < (n : ℝ) / m := div_pos hn hm
  set x := 2 * Real.pi * ((n : ℝ) / m) with hx
  have hpi := Real.pi_pos
  have hx0 : 0 < x := by positivity
  have hxh : x ≤ Real.pi / 2 := by rw [hx]; nlinarith
  have hx12 : x ^ 2 ≤ 12 := by have := Real.pi_le_four; nlinarith
  have hcos : 0 ≤ Real.cos x := Real.cos_nonneg_of_mem_Icc ⟨by linarith, hxh⟩
  have hlo : ((2 * piFloor * n / m : Nat) : ℝ) ≤ x * fixOne := by
    refine le_trans Nat.cast_div_le ?_
    push_cast
    rw [hx, div_le_iff₀ hm]
    have : 2 * Real.pi * (n / m) * fixOne * m = 2 * (Real.pi * fixOne) * n := by field_simp
    rw [this]; nlinarith
  have hhi : x * fixOne ≤ ((2 * (piFloor + 1) * n / m + 1 : Nat) : ℝ) := by
    have h2 : ((2 * (piFloor + 1) * n : Nat) : ℝ) < (2 * (piFloor + 1) * n / m + 1 : Nat) * m := by
      exact_mod_cast Nat.lt_mul_of_div_lt (Nat.lt_succ_self _) (by omega)
    have : x * fixOne = 2 * (Real.pi * fixOne) * n / m := by rw [hx]; field_simp
    rw [this, div_le_iff₀ hm]
    push_cast at h2 ⊢
    nlinarith
  set lo := 2 * piFloor * n / m
  set hi := 2 * (piFloor + 1) * n / m + 1
  have ht1 : ((lo * lo / fixOne : Nat) : ℝ) ≤ x ^ 2 * fixOne := by
    refine le_trans Nat.cast_div_le ?_
    push_cast
    rw [div_le_iff₀ hf]
    have := mul_le_mul hlo hlo (Nat.cast_nonneg _) (by positivity)
    linarith [show x ^ 2 * fixOne * fixOne = x * fixOne * (x * fixOne) by ring]
  have ht2 : x ^ 2 * fixOne ≤ ((hi * hi / fixOne + 1 : Nat) : ℝ) := by
    have h2 : ((hi * hi : Nat) : ℝ) < (hi * hi / fixOne + 1 : Nat) * fixOne := by
      exact_mod_cast Nat.lt_mul_of_div_lt (Nat.lt_succ_self _) (by rw [fixOne]; positivity)
    have h3 := mul_le_mul hhi hhi (by positivity) (Nat.cast_nonneg _)
    have h4 : x ^ 2 * fixOne * fixOne = x * fixOne * (x * fixOne) := by ring
    push_cast at h2 h3 ⊢
    nlinarith
  have := cosBracket_sound hx0.ne' hx12 hcos ht1 ht2 40 0 (.inr (by norm_num))
  rw [cosRest_zero] at this
  exact this

/-- The enclosure in the first half turn, but for its middle. -/
theorem cosHalf_sound {k m : Nat} (h0 : 0 < k) (h1 : 2 * k < m) (h2 : 4 * k ≠ m) :
    (if 4 * k < m then ((cosQuarter k m).1 : ℝ) else -((cosQuarter (m - 2 * k) (2 * m)).2 : ℝ)) ≤
      Real.cos (2 * Real.pi * (k / m)) * fixOne ∧
    Real.cos (2 * Real.pi * (k / m)) * fixOne ≤
      (if 4 * k < m then ((cosQuarter k m).2 : ℝ) else -((cosQuarter (m - 2 * k) (2 * m)).1 : ℝ)) := by
  split_ifs with h4
  · exact cosQuarter_sound h0 h4
  · have hm : (m : ℝ) ≠ 0 := by exact_mod_cast (show m ≠ 0 by omega)
    have e : 2 * Real.pi * ((k : ℝ) / m) =
        Real.pi - 2 * Real.pi * (((m - 2 * k : Nat) : ℝ) / (2 * m : Nat)) := by
      rw [Nat.cast_sub h1.le]; push_cast; field_simp; ring
    have h := cosQuarter_sound (n := m - 2 * k) (m := 2 * m) (by omega) (by omega)
    rw [e, Real.cos_pi_sub]
    constructor <;> linarith [h.1, h.2]

/-- The enclosure of the cosine, over the whole turn (44_window_numerics.md R187 to R189, R191; log 9). -/
theorem cosBounds_sound {n m : Nat} (h : n < m) :
    ((cosBounds n m).1 : ℝ) ≤ Real.cos (2 * Real.pi * (n / m)) * fixOne ∧
    Real.cos (2 * Real.pi * (n / m)) * fixOne ≤ (cosBounds n m).2 := by
  have hf : (0 : ℝ) < fixOne := by rw [fixOne]; positivity
  have hm : (m : ℝ) ≠ 0 := by exact_mod_cast (show m ≠ 0 by omega)
  have frac : ∀ a b : Nat, 0 < a → a * n = b * m → (n : ℝ) / m = b / a := fun a b ha e => by
    rw [div_eq_div_iff hm (by exact_mod_cast ha.ne')]
    have : (a : ℝ) * n = b * m := by exact_mod_cast e
    linarith
  have half : ((((fixOne : Int) / 2 : Int)) : ℝ) = fixOne / 2 := by
    rw [show ((fixOne : Int) / 2) = 2 ^ 207 by decide +kernel, show (fixOne : ℝ) = 2 ^ 208 by rw [fixOne]; norm_num]
    norm_num
  have mirror : Real.cos (2 * Real.pi * (n / m)) = Real.cos (2 * Real.pi * (((m - n : Nat) : ℝ) / m)) := by
    rw [← Real.cos_two_pi_sub, Nat.cast_sub h.le]
    congr 1; field_simp
  unfold cosBounds
  simp only
  split_ifs with h1 h2 h3 h4 h5 h6 h7 h8
  · subst h1; simp
  · rw [frac 2 1 (by norm_num) (by omega),
        show 2 * Real.pi * (((1 : Nat) : ℝ) / (2 : Nat)) = Real.pi by push_cast; ring]
    simp
  · rcases h3 with h3 | h3
    · rw [frac 4 1 (by norm_num) (by omega),
        show 2 * Real.pi * (((1 : Nat) : ℝ) / (4 : Nat)) = Real.pi / 2 by push_cast; ring]
      simp
    · rw [frac 4 3 (by norm_num) (by omega),
        show 2 * Real.pi * (((3 : Nat) : ℝ) / (4 : Nat)) = Real.pi / 2 + Real.pi by push_cast; ring]
      simp [Real.cos_add_pi]
  · rcases h4 with h4 | h4
    · rw [frac 6 1 (by norm_num) (by omega),
        show 2 * Real.pi * (((1 : Nat) : ℝ) / (6 : Nat)) = Real.pi / 3 by push_cast; ring,
        Real.cos_pi_div_three, half]
      constructor <;> linarith
    · rw [frac 6 5 (by norm_num) (by omega),
        show 2 * Real.pi * (((5 : Nat) : ℝ) / (6 : Nat)) = 2 * Real.pi - Real.pi / 3 by push_cast; ring,
        Real.cos_two_pi_sub, Real.cos_pi_div_three, half]
      constructor <;> linarith
  · rcases h5 with h5 | h5
    · rw [frac 3 1 (by norm_num) (by omega),
        show 2 * Real.pi * (((1 : Nat) : ℝ) / (3 : Nat)) = Real.pi - Real.pi / 3 by push_cast; ring,
        Real.cos_pi_sub, Real.cos_pi_div_three]
      push_cast [half]
      constructor <;> linarith
    · rw [frac 3 2 (by norm_num) (by omega),
        show 2 * Real.pi * (((2 : Nat) : ℝ) / (3 : Nat)) = Real.pi / 3 + Real.pi by push_cast; ring,
        Real.cos_add_pi, Real.cos_pi_div_three]
      push_cast [half]
      constructor <;> linarith
  · have := cosHalf_sound (k := n) (m := m) (by omega) h6 (by omega)
    rw [if_pos h7, if_pos h7] at this
    exact_mod_cast this
  · have := cosHalf_sound (k := n) (m := m) (by omega) h6 (by omega)
    rw [if_neg h7, if_neg h7] at this
    exact_mod_cast this
  · have := cosHalf_sound (k := m - n) (m := m) (by omega) (by omega) (by omega)
    rw [if_pos h8, if_pos h8, ← mirror] at this
    exact_mod_cast this
  · have := cosHalf_sound (k := m - n) (m := m) (by omega) (by omega) (by omega)
    rw [if_neg h8, if_neg h8, ← mirror] at this
    exact_mod_cast this

end Sys2Proof.Machine
end

