-- ==== Sys2Proof/Laws/Decode.lean ====
section
/-!
SUPPORT. The header's fields, the opcode map, and what a decoded transaction can be, said once.
-/

namespace Sys2Proof

@[simp] theorem opOf_opCode (op : Op) : opOf (opCode op) = some op := by cases op <;> rfl

/-- The opcode map has no two opcodes for one value. -/
theorem opCode_of_opOf {b : BitVec 8} {op : Op} (h : opOf b = some op) : b = opCode op := by
  unfold opOf at h
  split_ifs at h with h1 h2 h3 h4 h5 h6 h7 h8 h9 <;> cases h <;> assumption

theorem header_toNat (op : Op) (arg : BitVec 24) : (header op arg).toNat = (opCode op).toNat * 2 ^ 24 + arg.toNat := by
  rw [header, BitVec.toNat_append, ← Nat.shiftLeft_add_eq_or_of_lt arg.isLt, Nat.shiftLeft_eq]

theorem headerOp_toNat (w : Word) : (headerOp w).toNat = w.toNat / 2 ^ 24 := by
  have := w.isLt
  rw [headerOp, BitVec.extractLsb'_toNat, Nat.shiftRight_eq_div_pow]; omega

theorem headerArg_toNat (w : Word) : (headerArg w).toNat = w.toNat % 2 ^ 24 := by
  rw [headerArg, BitVec.extractLsb'_toNat, Nat.shiftRight_zero]

@[simp] theorem headerOp_header (op : Op) (arg : BitVec 24) : headerOp (header op arg) = opCode op := by
  have := arg.isLt
  apply BitVec.eq_of_toNat_eq
  rw [headerOp_toNat, header_toNat]; omega

@[simp] theorem headerArg_header (op : Op) (arg : BitVec 24) : headerArg (header op arg) = arg := by
  have := arg.isLt
  apply BitVec.eq_of_toNat_eq
  rw [headerArg_toNat, header_toNat]; omega

/-- A header is its two fields. -/
theorem header_fields {w : Word} {op : Op} (h : opOf (headerOp w) = some op) : header op (headerArg w) = w := by
  have e := congrArg BitVec.toNat (opCode_of_opOf h)
  have := w.isLt
  apply BitVec.eq_of_toNat_eq
  rw [header_toNat, headerArg_toNat, ← e, headerOp_toNat]; omega

theorem argIdx_toNat (arg : BitVec 24) : (argIdx arg).toNat = arg.toNat % 2 ^ 8 := by
  rw [argIdx, BitVec.extractLsb'_toNat, Nat.shiftRight_zero]

theorem argHigh_toNat (arg : BitVec 24) : (argHigh arg).toNat = arg.toNat / 2 ^ 8 := by
  have := arg.isLt
  rw [argHigh, BitVec.extractLsb'_toNat, Nat.shiftRight_eq_div_pow]; omega

theorem blockLength_toNat {samples : List F32} (h : blockFits samples = true) :
    (blockLength samples).toNat = samples.length := by
  rw [blockFits, decide_eq_true_eq] at h
  rw [blockLength, BitVec.toNat_ofNat, Nat.mod_eq_of_lt h]

/-- Everything the decoder can answer: the three rejections in their order, or the command with its operands
(30_encoding.md R83). -/
theorem decode_cases (w0 : Word) (rest : List Word) :
    (opOf (headerOp w0) = none ∧ decode w0 rest = .error .unassignedOpcode) ∨
    ∃ op, opOf (headerOp w0) = some op ∧
      ((rest.length + 1 ≠ expectedWords (formatOf op) (headerArg w0) ∧ decode w0 rest = .error .wordCount) ∨
       (rest.length + 1 = expectedWords (formatOf op) (headerArg w0) ∧
         ((reservedClear (formatOf op) (headerArg w0) = false ∧ decode w0 rest = .error .reservedBits) ∨
          (reservedClear (formatOf op) (headerArg w0) = true ∧
            decode w0 rest = .ok (assembleOperands op (headerArg w0) rest))))) := by
  unfold decode
  cases h : opOf (headerOp w0) with
  | none => exact .inl ⟨rfl, rfl⟩
  | some op =>
    refine .inr ⟨op, rfl, ?_⟩
    by_cases hc : rest.length + 1 = expectedWords (formatOf op) (headerArg w0)
    · cases hr : reservedClear (formatOf op) (headerArg w0) <;> simp [hc, hr]
    · simp [hc]

end Sys2Proof
end

