-- ==== Sys2Proof/Laws/DoubleBuffered.lean ====
section
/-!
SUPPORT. What DBA's operations can do, said once.
-/

namespace Sys2Proof.Machine

/-! ### The four states (10_state.md R33) -/

theorem dbaPhase_invalid {c : Nat} {u : Dba} : dbaPhase c u = .invalid ↔ u.a.fill = c ∧ u.b.fill = c := by
  unfold dbaPhase accIsFull; by_cases ha : u.a.fill = c <;> by_cases hb : u.b.fill = c <;> simp [ha, hb]

theorem dbaPhase_aFull {c : Nat} {u : Dba} : dbaPhase c u = .aFull ↔ u.a.fill = c ∧ u.b.fill ≠ c := by
  unfold dbaPhase accIsFull; by_cases ha : u.a.fill = c <;> by_cases hb : u.b.fill = c <;> simp [ha, hb]

theorem dbaPhase_bFull {c : Nat} {u : Dba} : dbaPhase c u = .bFull ↔ u.a.fill ≠ c ∧ u.b.fill = c := by
  unfold dbaPhase accIsFull; by_cases ha : u.a.fill = c <;> by_cases hb : u.b.fill = c <;> simp [ha, hb]

theorem dbaPhase_empty {c : Nat} {u : Dba} : dbaPhase c u = .empty ↔ u.a.fill ≠ c ∧ u.b.fill ≠ c := by
  unfold dbaPhase accIsFull; by_cases ha : u.a.fill = c <;> by_cases hb : u.b.fill = c <;> simp [ha, hb]

/-- Roles in state BFull (43_double_buffered.md R160). -/
theorem roles_of_b_full {c : Nat} {u : Dba} (h : u.b.fill = c) :
    fillsA c u = true ∧ filling c u = u.a ∧ completed c u = u.b := by
  simp [fillsA, filling, completed, accIsFull, h]

/-- Roles in states AFull and Empty (43_double_buffered.md R160). -/
theorem roles_of_b_not_full {c : Nat} {u : Dba} (h : u.b.fill ≠ c) :
    fillsA c u = false ∧ filling c u = u.b ∧ completed c u = u.a := by
  simp [fillsA, filling, completed, accIsFull, h]

/-- In a valid state the accumulator being filled has room. -/
theorem filling_has_room {sizes : List Nat} {p : Params} {u : Dba} (h : dbaInRange sizes p u)
    (hv : dbaPhase p.nb u ≠ .invalid) : (filling p.nb u).fill < p.nb := by
  rw [ne_eq, dbaPhase_invalid, not_and] at hv
  rw [dbaInRange_iff] at h
  by_cases hb : u.b.fill = p.nb
  · rw [(roles_of_b_full hb).2.1]
    have := h.2.1.2
    exact Nat.lt_of_le_of_ne this fun ha => hv ha hb
  · rw [(roles_of_b_not_full hb).2.1]
    exact Nat.lt_of_le_of_ne h.2.2.1.2 hb

/-- Both roles are accumulators in form. -/
theorem roles_wf {sizes : List Nat} {p : Params} {u : Dba} (h : dbaInRange sizes p u) :
    (Memory.wf p.nb (filling p.nb u).buf ∧ (filling p.nb u).fill ≤ p.nb) ∧
    (Memory.wf p.nb (completed p.nb u).buf ∧ (completed p.nb u).fill ≤ p.nb) := by
  rw [dbaInRange_iff] at h
  unfold filling completed
  split
  · exact ⟨h.2.1, h.2.2.1⟩
  · exact ⟨h.2.2.1, h.2.1⟩

/-- Accumulators in form can be put back. -/
theorem putAccs_keeps_inRange {sizes : List Nat} {p : Params} {u : Dba} (h : dbaInRange sizes p u) (i : Bool)
    {x y : Acc} (hx : Memory.wf p.nb x.buf ∧ x.fill ≤ p.nb) (hy : Memory.wf p.nb y.buf ∧ y.fill ≤ p.nb) :
    dbaInRange sizes p (putAccs i x y u) := by
  rw [dbaInRange_iff] at h ⊢
  cases i
  · exact ⟨h.1, hy, hx, h.2.2.2⟩
  · exact ⟨h.1, hx, hy, h.2.2.2⟩

/-- A frame stays in DBA's ranges. -/
theorem dbFrame_keeps_inRange {sizes : List Nat} {p : Params} {u : Dba} (h : dbaInRange sizes p u)
    (samples : List F32) : dbaInRange sizes p (dbFrame p.nb samples u) :=
by
  rw [dbaInRange_iff] at h ⊢
  exact ⟨h.1, h.2.1, h.2.2.1, ⟨by simp [Memory.wf, dbFrame], by simp [Memory.wf, dbFrame]⟩,
    by simp [Memory.wf, dbFrame, dbMags]⟩

/-- Everything an accepted block can do: the filling accumulator takes it all and has room left, or it becomes full,
its frame is processed, and the other accumulator, emptied, takes the rest (43_double_buffered.md R161). -/
theorem dbFeedAccepted_cases {sizes : List Nat} {p : Params} {u : Dba} (h : dbaInRange sizes p u)
    (hv : dbaPhase p.nb u ≠ .invalid) (xs : List F32) :
    ((filling p.nb u).fill + xs.length < p.nb ∧
      dbFeedAccepted p.nb xs u =
        (false, putAccs (fillsA p.nb u) (accFill p.nb (filling p.nb u) xs).1 (completed p.nb u) u)) ∨
    (p.nb ≤ (filling p.nb u).fill + xs.length ∧
      dbFeedAccepted p.nb xs u =
        (true, putAccs (fillsA p.nb u) (accFill p.nb (filling p.nb u) xs).1
          (accFill p.nb (accEmpty (completed p.nb u)) (xs.drop (p.nb - (filling p.nb u).fill))).1
          (dbFrame p.nb (accFill p.nb (filling p.nb u) xs).1.buf u))) := by
  have hf := filling_has_room h hv
  rcases Nat.lt_or_ge ((filling p.nb u).fill + xs.length) p.nb with hlt | hge
  · left
    have hn : accIsFull p.nb (accFill p.nb (filling p.nb u) xs).1 = false := by
      rw [accIsFull_accFill hf.le]; simpa using hlt
    refine ⟨hlt, ?_⟩
    rw [dbFeedAccepted]; simp only [hn]; rfl
  · right
    have hn : accIsFull p.nb (accFill p.nb (filling p.nb u) xs).1 = true := by
      rw [accIsFull_accFill hf.le]; simpa using hge
    refine ⟨hge, ?_⟩
    rw [dbFeedAccepted]; simp only [hn, (accFill_spec (roles_wf h).1.1 hf.le xs).2.2]; rfl

/-- An accepted block stays in DBA's ranges. -/
theorem dbFeedAccepted_keeps_inRange {sizes : List Nat} {p : Params} {u : Dba} (h : dbaInRange sizes p u)
    (hv : dbaPhase p.nb u ≠ .invalid) (xs : List F32) : dbaInRange sizes p (dbFeedAccepted p.nb xs u).2 := by
  have hr := roles_wf h
  have hx := accFill_keeps_wf hr.1.1 hr.1.2 xs
  rcases dbFeedAccepted_cases h hv xs with ⟨_, e⟩ | ⟨_, e⟩ <;> rw [e]
  · exact putAccs_keeps_inRange h _ hx hr.2
  · exact putAccs_keeps_inRange (dbFrame_keeps_inRange h _) _ hx
      (accFill_keeps_wf (acc := accEmpty (completed p.nb u)) hr.2.1 (Nat.zero_le _) _)

end Sys2Proof.Machine
end

