-- ==== Sys2Proof/Laws/Exec.lean ====
section
/-!
SUPPORT. What each meaning can answer, said once: where its unit holds a state of the block it gives a next state, an
error response or the command's effect; elsewhere it stops.
-/

namespace Sys2Proof.Machine

variable {s t : State}

/-- PROCESS gives a next state exactly in DLY's ranges, and then this one (40_delay.md R100). -/
theorem execProcess_next {lout : BitVec 32} {xs : List F32} :
    execProcess lout xs s = .next t ↔ dlyInRange s.params s.dly ∧
      ((lout.toNat ≠ xs.length ∧ t = s.raise .length (infoOf xs.length)) ∨
       (lout.toNat = xs.length ∧
         t = { s with dly := (dlyRun s.params xs s.dly).2 }.respond (infoOf xs.length)
           (dlyRun s.params xs s.dly).1)) := by
  by_cases h1 : dlyInRange s.params s.dly <;> by_cases h2 : lout.toNat = xs.length <;>
    simp [execProcess, h1, h2, eq_comm (a := t)]

theorem execReset_next :
    execReset s = .next t ↔ dlyInRange s.params s.dly ∧ t = { s with dly := dlyClear s.dly }.respond 0 [] := by
  by_cases h1 : dlyInRange s.params s.dly <;>
    simp [execReset, h1, eq_comm (a := t)]

theorem execPanic_next :
    execPanic s = .next t ↔ dlyInRange s.params s.dly ∧ t = { s with dly := dlyClear s.dly }.respond 0 [] := by
  by_cases h1 : dlyInRange s.params s.dly <;>
    simp [execPanic, h1, eq_comm (a := t)]

theorem execFeed_next {xs : List F32} :
    execFeed xs s = .next t ↔ spaInRange s.fftSizes s.params s.spa ∧
      t = { s with spa := (feedRun s.params s.spa xs).1 }.respond (infoFlag (feedRun s.params s.spa xs).2) [] := by
  unfold execFeed
  split_ifs with h1
  · simp only [feedRun, Host.Outcome.next.injEq]; exact ⟨fun h => ⟨h1, h.symm⟩, fun h => h.2.symm⟩
  · simp [h1]

theorem execTime_next {lout : BitVec 24} :
    execTime lout s = .next t ↔ spaInRange s.fftSizes s.params s.spa ∧
      ((lout.toNat ≠ s.params.n ∧ t = s.raise .length (infoOf s.params.n)) ∨
       (lout.toNat = s.params.n ∧ t = s.respond (infoOf s.params.n) (s.spa.tsnap.map byteWord))) := by
  by_cases h1 : spaInRange s.fftSizes s.params s.spa <;> by_cases h2 : lout.toNat = s.params.n <;>
    simp [execTime, h1, h2, eq_comm (a := t)]

theorem execFrequency_next {lout : BitVec 24} :
    execFrequency lout s = .next t ↔ spaInRange s.fftSizes s.params s.spa ∧
      ((lout.toNat ≠ s.params.n / 2 ∧ t = s.raise .length (infoOf (s.params.n / 2))) ∨
       (lout.toNat = s.params.n / 2 ∧ t = s.respond (infoOf (s.params.n / 2)) (s.spa.fsnap.map byteWord))) := by
  by_cases h1 : spaInRange s.fftSizes s.params s.spa <;> by_cases h2 : lout.toNat = s.params.n / 2 <;>
    simp [execFrequency, h1, h2, eq_comm (a := t)]

theorem execChangeWindowing_next {idx : Byte} :
    execChangeWindowing idx s = .next t ↔ spaInRange s.fftSizes s.params s.spa ∧
      t = { s with spa := { s.spa with win := idx } }.respond 0 [] := by
  by_cases h1 : spaInRange s.fftSizes s.params s.spa <;>
    simp [execChangeWindowing, h1, eq_comm (a := t)]

theorem execDbFeed_next {xs : List F32} :
    execDbFeed xs s = .next t ↔ dbaInRange s.fftSizes s.params s.dba ∧
      ((dbaPhase s.params.nb s.dba = .invalid ∧ t = s.raise .invariant 0) ∨
       (dbaPhase s.params.nb s.dba ≠ .invalid ∧ oversize s.params.nb s.dba xs ∧
         t = s.raise .tooBig (infoOf xs.length)) ∨
       (dbaPhase s.params.nb s.dba ≠ .invalid ∧ ¬ oversize s.params.nb s.dba xs ∧
         t = { s with dba := (dbFeedAccepted s.params.nb xs s.dba).2 }.respond
           (infoFlag (dbFeedAccepted s.params.nb xs s.dba).1) [])) := by
  by_cases h1 : dbaInRange s.fftSizes s.params s.dba <;> by_cases h2 : dbaPhase s.params.nb s.dba = .invalid <;> by_cases h3 : oversize s.params.nb s.dba xs <;>
    simp [execDbFeed, h1, h2, h3, eq_comm (a := t)]

theorem execDbTime_next {lout : BitVec 24} :
    execDbTime lout s = .next t ↔ dbaInRange s.fftSizes s.params s.dba ∧
      ((lout.toNat ≠ s.params.nb ∧ t = s.raise .length (infoOf s.params.nb)) ∨
       (lout.toNat = s.params.nb ∧ dbaPhase s.params.nb s.dba = .invalid ∧ t = s.raise .invariant 0) ∨
       (lout.toNat = s.params.nb ∧ dbaPhase s.params.nb s.dba ≠ .invalid ∧
         t = s.respond (infoFlag (frameExists (dbaPhase s.params.nb s.dba))) (dbTimeSource s.params.nb s.dba))) := by
  by_cases h1 : dbaInRange s.fftSizes s.params s.dba <;> by_cases h2 : lout.toNat = s.params.nb <;> by_cases h3 : dbaPhase s.params.nb s.dba = .invalid <;>
    simp [execDbTime, h1, h2, h3, eq_comm (a := t)]

theorem execDbFrequency_next {lout : BitVec 24} :
    execDbFrequency lout s = .next t ↔ dbaInRange s.fftSizes s.params s.dba ∧
      ((lout.toNat ≠ s.params.nb ∧ t = s.raise .length (infoOf s.params.nb)) ∨
       (lout.toNat = s.params.nb ∧ t = s.respond (infoOf s.params.nb) s.dba.dfsnap)) := by
  by_cases h1 : dbaInRange s.fftSizes s.params s.dba <;> by_cases h2 : lout.toNat = s.params.nb <;>
    simp [execDbFrequency, h1, h2, eq_comm (a := t)]

/-! ### Response words as numbers -/

/-- A response header with a length as its `info` is its status word (30_encoding.md R79). -/
theorem responseHeader_infoOf (e : Status) {n : Nat} (h : n < 2 ^ 24) :
    responseHeader e (infoOf n) = statusWord (statusCode e).toNat n := by
  apply BitVec.eq_of_toNat_eq
  have : (statusCode e).toNat < 2 ^ 8 := (statusCode e).isLt
  rw [responseHeader, BitVec.toNat_append, ← Nat.shiftLeft_add_eq_or_of_lt (infoOf n).isLt, Nat.shiftLeft_eq, statusWord,
    infoOf]
  simp only [BitVec.toNat_ofNat]
  omega

theorem responseHeader_infoFlag (b : Bool) : responseHeader .ok (infoFlag b) = statusWord 0 (if b then 1 else 0) := by
  cases b <;> decide

/-! ### Results, whatever is drawn -/

/-- An operation's result is its value where it has one, else a quiet NaN (44_window_numerics.md R181). -/
theorem isResult_settle (u : Agent) (r : Option F32) (d : Nat) : isResult r (settle u r d).1 := by
  cases r with
  | none => exact isQuietNaN_quietNaN _
  | some v => rfl

theorem magResult_mag (u : Agent) (re im : F32) (d : Nat) : magResult re im (mag u re im d).1 :=
  ⟨_, _, _, isResult_settle _ _ _, isResult_settle _ _ _, isResult_settle _ _ _, isResult_settle _ _ _⟩

theorem smoothResult_smooth (p : Params) (sm v : F32) (d : Nat) :
    smoothResult p sm v (smooth p sm v d).1.1 (smooth p sm v d).1.2 := by
  by_cases h : isZero p.alpha = true
  · simp [smoothResult, smooth, smoothingEnabled, h]
  · simp only [smoothResult, smooth, smoothingEnabled, h]
    exact ⟨_, _, isResult_settle _ _ _, isResult_settle _ _ _, isResult_settle _ _ _, rfl⟩

/-- The pipeline of a bin gives results of that pipeline (44_window_numerics.md R204). -/
theorem binResult_spaBin (p : Params) (sm : F32) (bin : F32 × F32) (d : Nat) :
    binResult p sm bin (spaBin p sm bin d).1.1 (spaBin p sm bin d).1.2 :=
  ⟨_, _, _, _, _, _, magResult_mag _ _ _ _, isResult_settle _ _ _, isResult_settle _ _ _, smoothResult_smooth _ _ _ _,
    isResult_settle _ _ _, isResult_settle _ _ _, rfl⟩

/-! ### DBA's invariant -/

/-- An accepted block keeps DBA's invariant (10_state.md R41 (iii), (iv)). -/
theorem dbFeedAccepted_keeps_dbaInv {sizes : List Nat} {p : Params} {u : Dba} (h : dbaInv sizes p u) (xs : List F32)
    (ho : ¬ oversize p.nb u xs) : dbaInv sizes p (dbFeedAccepted p.nb xs u).2 := by
  have hr := h.1
  have hv := h.2.1
  have hroom := filling_has_room hr hv
  have hw := roles_wf hr
  have hx := accFill_spec hw.1.1 hw.1.2 xs
  refine ⟨dbFeedAccepted_keeps_inRange hr hv xs, ?_⟩
  have hnb : 1 ≤ p.nb := (dbaInRange_iff.mp hr).1.1
  simp only [oversize, not_le] at ho
  rcases dbFeedAccepted_cases hr hv xs with ⟨hlt, e⟩ | ⟨hge, e⟩
  · rw [e]
    have hfill : (accFill p.nb (filling p.nb u) xs).1.fill < p.nb := by rw [hx.1]; omega
    by_cases hb : u.b.fill = p.nb
    · have r := roles_of_b_full hb
      simp only [r, putAccs_true] at hfill ⊢
      refine ⟨?_, fun he => absurd hb (dbaPhase_empty.mp he).2⟩
      rw [ne_eq, dbaPhase_invalid]; simp only; omega
    · have r := roles_of_b_not_full hb
      simp only [r, putAccs_false] at hfill ⊢
      refine ⟨?_, fun he => h.2.2 (dbaPhase_empty.mpr ⟨(dbaPhase_empty.mp he).1, hb⟩)⟩
      rw [ne_eq, dbaPhase_invalid]; simp only; omega
  · rw [e]
    have hfill : (accFill p.nb (filling p.nb u) xs).1.fill = p.nb := by rw [hx.1]; omega
    have hof : (accFill p.nb (accEmpty (completed p.nb u)) (xs.drop (p.nb - (filling p.nb u).fill))).1.fill < p.nb := by
      rw [(accFill_spec (acc := accEmpty (completed p.nb u)) hw.2.1 (Nat.zero_le _) _).1, List.length_drop]
      simp only [accEmpty_fill]; omega
    by_cases hb : u.b.fill = p.nb
    · have r := roles_of_b_full hb
      simp only [r, putAccs_true] at hfill hof ⊢
      refine ⟨?_, fun he => absurd hfill (dbaPhase_empty.mp he).1⟩
      rw [ne_eq, dbaPhase_invalid]; simp only; omega
    · have r := roles_of_b_not_full hb
      simp only [r, putAccs_false] at hfill hof ⊢
      refine ⟨?_, fun he => absurd hfill (dbaPhase_empty.mp he).2⟩
      rw [ne_eq, dbaPhase_invalid]; simp only; omega

end Sys2Proof.Machine
end

