-- ==== Sys2Proof/Laws/PerInstr.lean ====
section
/-!
SUPPORT. Families of facts about every command, one lemma a constructor.
-/

namespace Sys2Proof.Laws.WordCount

/-- A well-formed command's words begin with a header whose opcode is assigned, and there are as many words as that
header states (30_encoding.md R72, R83). -/
def Statement (i : Instr) : Prop :=
  i.wf = true → ∃ op arg rest, encode i = header op arg :: rest ∧ rest.length + 1 = expectedWords (formatOf op) arg

theorem process (lout : BitVec 32) (samples : List F32) : Statement (.process lout samples) := fun h =>
  ⟨.process, blockLength samples, lout :: samples, rfl, by
    rw [formatOf, expectedWords, blockLength_toNat h, List.length_cons]; omega⟩

theorem reset : Statement .reset := fun _ => ⟨.reset, 0, [], rfl, rfl⟩

theorem panic : Statement .panic := fun _ => ⟨.reset, 0, [], rfl, rfl⟩

theorem feed (samples : List F32) : Statement (.feed samples) := fun h =>
  ⟨.feed, blockLength samples, samples, rfl, by rw [formatOf, expectedWords, blockLength_toNat h]; omega⟩

theorem time (lout : BitVec 24) : Statement (.time lout) := fun _ => ⟨.time, lout, [], rfl, rfl⟩

theorem frequency (lout : BitVec 24) : Statement (.frequency lout) := fun _ => ⟨.frequency, lout, [], rfl, rfl⟩

theorem changeWindowing (idx : Byte) : Statement (.changeWindowing idx) := fun _ =>
  ⟨.changeWindowing, idx.setWidth 24, [], rfl, rfl⟩

theorem dbFeed (samples : List F32) : Statement (.dbFeed samples) := fun h =>
  ⟨.dbFeed, blockLength samples, samples, rfl, by rw [formatOf, expectedWords, blockLength_toNat h]; omega⟩

theorem dbTime (lout : BitVec 24) : Statement (.dbTime lout) := fun _ => ⟨.dbTime, lout, [], rfl, rfl⟩

theorem dbFrequency (lout : BitVec 24) : Statement (.dbFrequency lout) := fun _ => ⟨.dbFrequency, lout, [], rfl, rfl⟩

end Sys2Proof.Laws.WordCount
end

