-- ==== Sys2Proof/Laws/Reset.lean ====
section
/-!
SUPPORT. What hardware reset leaves: every memory in form and every unit a state of the block, for every legal set of
parameters.
-/

namespace Sys2Proof.Machine

@[simp] theorem workAtReset_length (which : WorkBuffer) (k len : Nat) : (workAtReset which k len).length = len := by
  simp [workAtReset]

/-- The window table has a row a kind and a weight a sample (10_state.md R37). -/
theorem windowTable_wf (m : Nat) : Memory.wf 5 (windowTable m) ∧ ∀ row ∈ windowTable m, Memory.wf m row := by
  refine ⟨rfl, fun row hr => ?_⟩
  obtain ⟨w, _, rfl⟩ := List.mem_map.mp hr
  simp [Memory.wf]

theorem dlyAtReset_inRange {p : Params} (h : dlyParamsLegal p) (draws : Nat) : dlyInRange p (dlyAtReset p draws) :=
  dlyInRange_iff.mpr ⟨h, by simp [Memory.wf, dlyAtReset], h.1⟩

theorem spaAtReset_inRange {sizes : List Nat} {p : Params} (h : spaParamsLegal sizes p) (k draws : Nat) :
    spaInRange sizes p (spaAtReset p k draws) :=
  spaInRange_iff.mpr ⟨h, ⟨by simp [Memory.wf, spaAtReset, accAtReset], Nat.zero_le _⟩,
    ⟨workAtReset_length _ _ _, workAtReset_length _ _ _⟩, by simp [Memory.wf, spaAtReset],
    by simp [Memory.wf, spaAtReset], by simp [Memory.wf, spaAtReset], windowTable_wf _⟩

theorem dbaAtReset_inRange {sizes : List Nat} {p : Params} (h : dbaParamsLegal sizes p) (k draws : Nat) :
    dbaInRange sizes p (dbaAtReset p k draws) :=
  dbaInRange_iff.mpr ⟨h, ⟨by simp [Memory.wf, dbaAtReset, accAtReset], Nat.zero_le _⟩,
    ⟨by simp [Memory.wf, dbaAtReset, accAtReset], Nat.zero_le _⟩,
    ⟨workAtReset_length _ _ _, workAtReset_length _ _ _⟩, by simp [Memory.wf, dbaAtReset]⟩

/-- The reference instance is a legal one, so the memories of `State.reset` are in form. -/
theorem reference_legal : paramsLegal Config.referenceSizes Config.reference = true := by decide

theorem reset_memories_wf :
    dlyInRange State.reset.params State.reset.dly ∧
    spaInRange State.reset.fftSizes State.reset.params State.reset.spa ∧
    dbaInRange State.reset.fftSizes State.reset.params State.reset.dba := by
  have h := paramsLegal_iff.mp reference_legal
  exact ⟨dlyAtReset_inRange h.1 _, spaAtReset_inRange h.2.1 _ _, dbaAtReset_inRange h.2.2 _ _⟩

end Sys2Proof.Machine
end

