-- ==== Sys2Proof/Machine/Assembly.lean ====
section
/-!
DEFINITION. The textual syntax of commands and responses (30_encoding.md R87, R88): reading a line, the command it
stands for, its transaction (log 22).
-/

namespace Sys2Proof.Machine

/-- A sample as it is written: a decimal `digits / 10^places`, or a bit pattern (30_encoding.md R87). -/
inductive SampleText where
  | decimal (negative : Bool) (digits places : Nat)
  | pattern (w : Word)
deriving DecidableEq, Repr

/-- A line: a mnemonic with its operands (30_encoding.md R87, R88). -/
inductive Line where
  | process (out : Option (BitVec 32)) (samples : List SampleText)
  | reset
  | panic
  | feed (samples : List SampleText)
  | time (len : BitVec 24)
  | frequency (len : BitVec 24)
  | changeWindowing (idx : Byte)
  | dbFeed (samples : List SampleText)
  | dbTime (len : BitVec 24)
  | dbFrequency (len : BitVec 24)
deriving DecidableEq, Repr

/-! ### The command a line stands for -/

/-- The sample a text stands for: the binary32 value nearest to the decimal, or the pattern itself
(30_encoding.md R87). -/
def sampleOf : SampleText → F32
  | .decimal negative digits places => pack negative (roundMag (digits * 2 ^ 149) (10 ^ places))
  | .pattern w => w

/-- The command a line stands for; PROCESS without `out=` means `out=Lin` (30_encoding.md R87). -/
def lineInstr : Line → Instr
  | .process (some out) samples => .process out (samples.map sampleOf)
  | .process none samples => .process (BitVec.ofNat 32 samples.length) (samples.map sampleOf)
  | .reset => .reset
  | .panic => .panic
  | .feed samples => .feed (samples.map sampleOf)
  | .time len => .time len
  | .frequency len => .frequency len
  | .changeWindowing idx => .changeWindowing idx
  | .dbFeed samples => .dbFeed (samples.map sampleOf)
  | .dbTime len => .dbTime len
  | .dbFrequency len => .dbFrequency len

/-- The transaction of a line. -/
def assemble (l : Line) : List Word := encode (lineInstr l)

/-! ### Reading a line -/

/-- A space or a tab. -/
def isBlank (c : Char) : Bool := c == ' ' || c == '\t'

/-- The text without the blanks before it and after it. -/
def trimBlanks (cs : List Char) : List Char := ((cs.dropWhile isBlank).reverse.dropWhile isBlank).reverse

/-- The value of a digit of the given base, 10 or 16. -/
def digitValue (base : Nat) (c : Char) : Option Nat :=
  let n := c.toNat
  let v := if 48 ≤ n ∧ n ≤ 57 then n - 48
    else if 65 ≤ n ∧ n ≤ 70 then n - 55
    else if 97 ≤ n ∧ n ≤ 102 then n - 87
    else base
  if v < base then some v else none

/-- The number that digits alone write, after the value `acc`. -/
def readDigits (base : Nat) : (acc : Nat) → List Char → Option Nat
  | acc, [] => some acc
  | acc, c :: cs =>
    match digitValue base c with
    | none => none
    | some v => readDigits base (acc * base + v) cs

/-- A number of at least one digit. -/
def readNat (base : Nat) (cs : List Char) : Option Nat := if cs.isEmpty then none else readDigits base 0 cs

/-- A length or an index: decimal, or hexadecimal after `0x`, below `2^bits`. -/
def readField (bits : Nat) (cs : List Char) : Option (BitVec bits) :=
  let v :=
    match cs with
    | '0' :: 'x' :: hex => readNat 16 hex
    | other => readNat 10 other
  match v with
  | none => none
  | some n => if n < 2 ^ bits then some (BitVec.ofNat bits n) else none

/-- A decimal without its sign: digits, and after a point any number of further digits. -/
def readDecimal (negative : Bool) (cs : List Char) : Option SampleText :=
  let whole := cs.takeWhile (· != '.')
  let fraction := (cs.dropWhile (· != '.')).drop 1
  if whole.isEmpty then none
  else (readNat 10 (whole ++ fraction)).map fun n => .decimal negative n fraction.length

/-- A sample: `0x` and eight hexadecimal digits, or a decimal with an optional sign (30_encoding.md R87). -/
def readSample (cs : List Char) : Option SampleText :=
  match cs with
  | '0' :: 'x' :: hex =>
    if hex.length = 8 then (readNat 16 hex).map fun n => .pattern (BitVec.ofNat 32 n) else none
  | '-' :: rest => readDecimal true rest
  | '+' :: rest => readDecimal false rest
  | other => readDecimal false other

/-- The parts of a text between commas. -/
def splitCommas : List Char → List (List Char)
  | [] => [[]]
  | ',' :: cs => [] :: splitCommas cs
  | c :: cs =>
    match splitCommas cs with
    | [] => [[c]]
    | part :: parts => (c :: part) :: parts

/-- All results, where each element has one. -/
def allOf {α β : Type} (f : α → Option β) : List α → Option (List β)
  | [] => some []
  | x :: xs =>
    match f x, allOf f xs with
    | some y, some ys => some (y :: ys)
    | _, _ => none

/-- A bracketed list of samples, as many as a block can have, and nothing after it. -/
def readSamples (cs : List Char) : Option (List SampleText) :=
  match cs with
  | '[' :: inner =>
    match inner.reverse with
    | ']' :: body =>
      let text := trimBlanks body.reverse
      if text.isEmpty then some []
      else
        match allOf (fun part => readSample (trimBlanks part)) (splitCommas text) with
        | none => none
        | some samples => if samples.length < 2 ^ 24 then some samples else none
    | _ => none
  | _ => none

/-- `len=` and a length. -/
def readLen (cs : List Char) : Option (BitVec 24) :=
  match cs with
  | 'l' :: 'e' :: 'n' :: '=' :: number => readField 24 number
  | _ => none

/-- The operands of PROCESS: an optional `out=` with a length, and the samples. -/
def readProcess (cs : List Char) : Option Line :=
  match cs with
  | 'o' :: 'u' :: 't' :: '=' :: rest =>
    match readField 32 (rest.takeWhile fun c => !isBlank c), readSamples (trimBlanks (rest.dropWhile fun c => !isBlank c)) with
    | some out, some samples => some (.process (some out) samples)
    | _, _ => none
  | other => (readSamples other).map (.process none)

/-- A line of text as a command line: its comment left out, its mnemonic, its operands. A line with no command, or
with another text, reads as none. -/
def readLine (cs : List Char) : Option Line :=
  let text := trimBlanks (cs.takeWhile (· != ';'))
  let name := text.takeWhile fun c => !isBlank c
  let operands := trimBlanks (text.dropWhile fun c => !isBlank c)
  if name = ['P', 'R', 'O', 'C', 'E', 'S', 'S'] then readProcess operands
  else if name = ['R', 'E', 'S', 'E', 'T'] then (if operands.isEmpty then some .reset else none)
  else if name = ['P', 'A', 'N', 'I', 'C'] then (if operands.isEmpty then some .panic else none)
  else if name = ['F', 'E', 'E', 'D'] then (readSamples operands).map .feed
  else if name = ['T', 'I', 'M', 'E'] then (readLen operands).map .time
  else if name = ['F', 'R', 'E', 'Q', 'U', 'E', 'N', 'C', 'Y'] then (readLen operands).map .frequency
  else if name = ['C', 'H', 'A', 'N', 'G', 'E', '_', 'W', 'I', 'N', 'D', 'O', 'W', 'I', 'N', 'G'] then
    (readField 8 operands).map .changeWindowing
  else if name = ['D', 'B', '_', 'F', 'E', 'E', 'D'] then (readSamples operands).map .dbFeed
  else if name = ['D', 'B', '_', 'T', 'I', 'M', 'E'] then (readLen operands).map .dbTime
  else if name = ['D', 'B', '_', 'F', 'R', 'E', 'Q', 'U', 'E', 'N', 'C', 'Y'] then (readLen operands).map .dbFrequency
  else none

/-- The transaction of a line of text. -/
def assembleText (cs : List Char) : Option (List Word) := (readLine cs).map assemble

/-! ### Reading a response -/

/-- The status a code stands for; every other code is unassigned (30_encoding.md R80). -/
def statusOf (code : BitVec 8) : Option Status :=
  if code = 0x00 then some .ok
  else if code = 0x01 then some .illegal
  else if code = 0x02 then some .length
  else if code = 0x03 then some .tooBig
  else if code = 0x04 then some .invariant
  else none

/-- A response as it is written: its status, its `info` and its payload (30_encoding.md R79, R87). -/
def readResponse : List Word → Option (Status × BitVec 24 × List Word)
  | [] => none
  | w0 :: payload => (statusOf (w0.extractLsb' 24 8)).map fun st => (st, w0.extractLsb' 0 24, payload)

end Sys2Proof.Machine
end

