-- ==== Sys2Proof/Tests/Slice0.lean ====
section
/-!
SUPPORT. Tests. Every expected value is one of the spec's (95_test_vectors.md, 30_encoding.md), named in the theorem's
comment; the witnesses at the end meet the hypotheses of the statements.
-/

namespace Sys2Proof.Tests

open Sys2Proof Sys2Proof.Machine

/-! ### Well-formedness: each check refuses an ill-formed command (30_encoding.md R75, R76) -/

/-- A block one sample longer than the length field can say. -/
def tooLong : List F32 := List.replicate (2 ^ 24) 0

theorem test_wf_refuses_long_process : (Instr.process 0 tooLong).wf = false := by
  simp only [Instr.wf, blockFits, tooLong, List.length_replicate]; decide

theorem test_wf_refuses_long_feed : (Instr.feed tooLong).wf = false := by
  simp only [Instr.wf, blockFits, tooLong, List.length_replicate]; decide

theorem test_wf_refuses_long_dbFeed : (Instr.dbFeed tooLong).wf = false := by
  simp only [Instr.wf, blockFits, tooLong, List.length_replicate]; decide

/-! ### Decoding: words written out from the fields `op` and `arg` (30_encoding.md R71 to R77, R82; V-E1) -/

theorem test_decode_process :
    decode 0b00000001_000000000000000000000010#32 [0x00000003, 0x3F000000, 0xBE800000] =
      .ok (.process 3 [0x3F000000, 0xBE800000]) := by decide

theorem test_decode_reset : decode 0b00000010_000000000000000000000000#32 [] = .ok .reset := by decide

/-- PANIC has RESET's word (30_encoding.md R88). -/
theorem test_encode_panic : encode .panic = [0b00000010_000000000000000000000000#32] := by decide

theorem test_decode_feed :
    decode 0b00010000_000000000000000000000011#32 [0x3F800000, 0x00000000, 0xBF800000] =
      .ok (.feed [0x3F800000, 0x00000000, 0xBF800000]) := by decide

theorem test_decode_time : decode 0b00010001_000000000000000000000100#32 [] = .ok (.time 4) := by decide

theorem test_decode_frequency : decode 0b00010010_000000000000000000000010#32 [] = .ok (.frequency 2) := by decide

theorem test_decode_changeWindowing :
    decode 0b00010011_0000000000000000_11111111#32 [] = .ok (.changeWindowing 255) := by decide

theorem test_decode_dbFeed :
    decode 0b00100000_000000000000000000000001#32 [0x40000000] = .ok (.dbFeed [0x40000000]) := by decide

theorem test_decode_dbTime : decode 0b00100001_000000000000000000000100#32 [] = .ok (.dbTime 4) := by decide

theorem test_decode_dbFrequency : decode 0b00100010_000000000000000000000100#32 [] = .ok (.dbFrequency 4) := by decide

/-- V-E2: unassigned opcodes. -/
theorem test_decode_unassigned :
    [0x00000000#32, 0x03000000#32, 0x14000000#32, 0x23000000#32, 0x30000000#32, 0xFF000000#32].map
      (fun w0 => decode w0 []) = List.replicate 6 (.error .unassignedOpcode) := by decide

/-- V-E2: the opcode is checked first, the word count before the reserved bits. -/
theorem test_decode_order :
    decode 0x030000FF [0x00000001] = .error .unassignedOpcode ∧ decode 0x02000001 [] = .error .reservedBits ∧
    decode 0x02000001 [0] = .error .wordCount ∧ decode 0x13000105 [] = .error .reservedBits ∧
    decode 0x10000002 [0x3F800000] = .error .wordCount ∧ decode 0x01000002 [] = .error .wordCount ∧
    decode 0x11000004 [0] = .error .wordCount := by decide

/-- Lines of 30_encoding.md R87 and their transactions (V-E1): `PROCESS [0.5, -0.25] ; note`, `PROCESS out=3 [0.5, -0.25]`
and `CHANGE_WINDOWING 255`. -/
theorem test_assemble_process :
    assembleText ['P', 'R', 'O', 'C', 'E', 'S', 'S', ' ', '[', '0', '.', '5', ',', ' ', '-', '0', '.', '2', '5', ']', ' ',
      ';', ' ', 'n', 'o', 't', 'e'] = some [0x01000002, 0x00000002, 0x3F000000, 0xBE800000] := by decide

theorem test_assemble_process_out :
    assembleText ['P', 'R', 'O', 'C', 'E', 'S', 'S', ' ', 'o', 'u', 't', '=', '3', ' ', '[', '0', '.', '5', ',', '-', '0', '.',
      '2', '5', ']'] = some [0x01000002, 0x00000003, 0x3F000000, 0xBE800000] := by decide

theorem test_assemble_changeWindowing :
    assembleText ['C', 'H', 'A', 'N', 'G', 'E', '_', 'W', 'I', 'N', 'D', 'O', 'W', 'I', 'N', 'G', ' ', '2', '5', '5'] =
      some [0x130000FF] := by decide

/-- A response of 95_test_vectors.md, conventions: `E_LENGTH(4)`. -/
theorem test_readResponse : readResponse [0x02000004] = some (.length, 4, []) := by decide

/-- The literal 0.1 is the nearest binary32 value (95_test_vectors.md, conventions). -/
theorem test_assemble_tenth : sampleOf (.decimal false 1 1) = 0x3DCCCCCD#32 := by decide

/-! ### One command on a small state -/

/-- The reference instance with other parameters, after hardware reset. -/
def start (p : Params) : State := State.ofParams Config.referenceSizes p

/-- What a command that completes leaves, seen through `f`. -/
def afterwards {α : Type} (i : Instr) (s : State) (f : State → α) : Option α :=
  match exec i s with
  | .next t => some (f t)
  | .fault _ => none
  | .refused _ => none

/-- V-S1: the impulse comes back after `D` samples, scaled. -/
theorem test_process_impulse :
    afterwards (.process 8 [0x3F800000, 0, 0, 0, 0, 0, 0, 0]) State.reset (fun t => (t.resps, t.dly.dl, t.dly.cur)) =
      some ([[0x00000008, 0x3F800000, 0, 0, 0, 0x3F34FDF4, 0, 0, 0]], [0x3EFFEC36, 0, 0, 0], 0) := by decide

/-- V-D8: with `D = 1`, a subnormal echo is rounded, not flushed. -/
theorem test_process_subnormal :
    afterwards (.process 5 [0x00000003, 0, 0, 0, 0]) (start { Config.reference with d := 1 })
      (fun t => (t.resps, t.dly.dl)) =
      some ([[0x00000005, 0x00000003, 0x00000002, 0x00000001, 0x00000001, 0x00000001]], [0x00000001]) := by decide

/-- V-S4, V-D10: RESET clears the line and the cursor. -/
theorem test_reset :
    afterwards .reset { State.reset with dly := { dl := [0x3EFFEC36, 0, 0, 0], cur := 2, draws := 0 } }
      (fun t => (t.resps, t.dly.dl, t.dly.cur)) = some ([[0x00000000]], [0, 0, 0, 0], 0) := by decide

/-- V-D10 for the second mnemonic. -/
theorem test_panic :
    afterwards .panic { State.reset with dly := { dl := [0x3EFFEC36, 0, 0, 0], cur := 2, draws := 0 } }
      (fun t => (t.resps, t.dly.dl, t.dly.cur)) = some ([[0x00000000]], [0, 0, 0, 0], 0) := by decide

/-- V-A1: a block that completes no frame. -/
theorem test_feed_partial :
    afterwards (.feed [0x3F800000, 0x3F800000, 0x3F800000]) State.reset
      (fun t => (t.resps, t.spa.acc.buf, t.spa.acc.fill, t.spa.tsnap)) =
      some ([[0x00000000]], [0x3F800000, 0x3F800000, 0x3F800000, 0], 3, [0, 0, 0, 0]) := by decide

/-- V-A16: two frames in one block; only the second is visible. -/
theorem test_feed_two_frames :
    afterwards (.feed [0x3F800000, 0x3F800000, 0x00000000, 0xBF800000, 0x00000000, 0x3F000000])
      { State.reset with spa := { State.reset.spa with
          acc := { buf := [0x3F800000, 0x3F800000, 0x3F800000, 0], fill := 3 } } }
      (fun t => (t.resps, t.spa.acc.buf, t.spa.acc.fill, t.spa.tsnap)) =
      some ([[0x00000001]], [0x3F000000, 0x00000000, 0xBF800000, 0x00000000], 1, [255, 128, 0, 128]) := by decide

/-- P2 step 4: TIME copies the snapshot. -/
theorem test_time :
    afterwards (.time 4) { State.reset with spa := { State.reset.spa with tsnap := [255, 128, 0, 128] } } State.resps =
      some [[0x00000004, 0x000000FF, 0x00000080, 0x00000000, 0x00000080]] := by decide

/-- V-A18: a length other than `N`. -/
theorem test_time_length : afterwards (.time 2) State.reset State.resps = some [[0x02000004]] := by decide

/-- P2 step 5: FREQUENCY copies the snapshot. -/
theorem test_frequency :
    afterwards (.frequency 2) { State.reset with spa := { State.reset.spa with fsnap := [0, 237] } } State.resps =
      some [[0x00000002, 0x00000000, 0x000000ED]] := by decide

/-- V-A18: a length other than `N/2`. -/
theorem test_frequency_length : afterwards (.frequency 4) State.reset State.resps = some [[0x02000002]] := by decide

/-- V-A9: an index outside 0 to 4 is stored and selects the rectangular window. -/
theorem test_changeWindowing :
    afterwards (.changeWindowing 7) State.reset (fun t => (t.resps, t.spa.win, kindOf t.spa.win)) =
      some ([[0x00000000]], 7, .rectangular) := by decide

/-- V-B4: seven samples in state Empty. -/
theorem test_dbFeed_frame :
    afterwards (.dbFeed [1, 2, 3, 4, 5, 6, 7]) State.reset
      (fun t => (t.resps, t.dba.b, t.dba.a.buf, t.dba.a.fill)) =
      some ([[0x00000001]], { buf := [1, 2, 3, 4], fill := 4 }, [5, 6, 7, 0], 3) := by decide

/-- V-S8: a block that would complete two frames. -/
theorem test_dbFeed_oversize :
    afterwards (.dbFeed [1, 2, 3, 4, 5, 6, 7, 8]) State.reset (fun t => (t.resps, t.dba.a.fill, t.dba.b.fill)) =
      some ([[0x03000008]], 0, 0) := by decide

/-- V-B3: before the first frame. -/
theorem test_dbTime_empty : afterwards (.dbTime 4) State.reset State.resps = some [[0x00000000, 0, 0, 0, 0]] := by
  decide

/-- V-B8: the injected state Invalid. -/
theorem test_dbTime_invalid :
    afterwards (.dbTime 4) { State.reset with dba := { State.reset.dba with
        a := { buf := [0, 0, 0, 0], fill := 4 }, b := { buf := [0, 0, 0, 0], fill := 4 } } } State.resps =
      some [[0x04000000]] := by decide

/-- V-B1: the magnitudes of a frame. -/
theorem test_dbFrequency :
    afterwards (.dbFrequency 4) { State.reset with dba := { State.reset.dba with dfsnap := [0x40800000, 0, 0, 0] } }
      State.resps = some [[0x00000004, 0x40800000, 0x00000000, 0x00000000, 0x00000000]] := by decide

/-- V-B8: a length other than `NB`. -/
theorem test_dbFrequency_length : afterwards (.dbFrequency 8) State.reset State.resps = some [[0x02000004]] := by
  decide

/-- P4 step 2, through the fetch: the step answers `E_ILLEGAL(2)`. -/
theorem test_step_illegal :
    (match step (State.reset.withFetchWord 32 0x02000001) with
      | .next t => some t.resps
      | .fault _ => none
      | .refused _ => none) = some [[0x01000002]] := by decide

/-- The table's numbering: the second word is bits 63 to 32. -/
theorem test_decodeTableWord_process : decodeTableWord 64 0x0000000501000000 = some (.process 5 []) := by decide

/-! ### Numerics -/

/-- V-Q1: time bytes, ties and saturation among them. -/
theorem test_timeByte :
    [0xBF800000#32, 0x80000000#32, 0x2EDBE6FF#32, 0x3B800000#32, 0xBB800000#32, 0x3C400000#32, 0xBF7F0000#32,
      0xBF7F0001#32, 0x3F7D0000#32, 0x3F800000#32, 0xC0000000#32, 0x7F800000#32, 0xFF800000#32].map
        (fun s => (timeByte s 0).1) = [0, 128, 128, 129, 128, 130, 1, 0, 255, 255, 0, 255, 0] := by decide

/-- V-Q2: frequency bytes of the reference range, and its scale. -/
theorem test_freqByte :
    scale Config.reference = 0x40400000#32 ∧
    [0xC2AA0000#32, 0xC22A0000#32, 0xC0C0A8C2#32, 0x00000000#32, 0x41200000#32, 0xC2B40000#32, 0xFF800000#32,
      0x7F800000#32].map (fun v => (freqByte Config.reference v 0).1) = [0, 128, 237, 255, 255, 0, 0, 255] := by decide

/-- V-W1: the window table for `N = 4`. -/
theorem test_windowTable_4 :
    windowTable 4 =
      [[0x3F800000, 0x3F800000, 0x3F800000, 0x3F800000], [0x00000000, 0x3F000000, 0x3F800000, 0x3F000000],
       [0x00000000, 0x3F000000, 0x3F800000, 0x3F000000], [0x3DA3D70A, 0x3F0A3D71, 0x3F800000, 0x3F0A3D71],
       [0x3F800000, 0x3EAE147B, 0x00000000, 0x3EAE147B]] := by decide

/-- V-W2: entries of `N = 8` whose cosine is irrational. -/
theorem test_weight_hanning : weight .hanning 1 8 = 0x3E15F61A#32 ∧ weight .hanning 5 8 = 0x3F5A827A#32 := by
  decide +kernel

theorem test_weight_hamming : weight .hamming 7 8 = 0x3E5BE269#32 ∧ weight .hamming 3 8 = 0x3F5D8247#32 := by
  decide +kernel

theorem test_weight_blackman : weight .blackman 1 8 = 0x3F460798#32 ∧ weight .blackman 3 8 = 0x3D881529#32 := by
  decide +kernel

/-! ### Witnesses: states and operands that meet the hypotheses of the statements, at the boundaries of each clause -/

/-- DLY with the given delay line and the cursor in the middle. -/
def withLine (dl : List F32) (cur : Nat) : State :=
  { start { Config.reference with d := dl.length } with dly := { dl := dl, cur := cur, draws := 0 } }

/-- SPA with the given accumulator, `N = 4`. -/
def withAcc (acc : Acc) : State := { State.reset with spa := { State.reset.spa with acc := acc } }

/-- DBA with the given accumulators, `NB = 4`. -/
def withAccs (a b : Acc) : State := { State.reset with dba := { State.reset.dba with a := a, b := b } }

/-- An accumulator of four zeros with the given fill-length. -/
def zeros (fill : Nat) : Acc := { buf := [0, 0, 0, 0], fill := fill }

/-- Smoothing by one half. -/
def smoothed : Params := { Config.reference with alpha := 0x3F000000#32 }

def smoothedStart : State := start smoothed

theorem test_witness_DecodeOfEncodeIsCanonical :
    (Instr.process 3 [0x3F000000]).wf = true ∧ (Instr.feed (List.replicate (2 ^ 24 - 1) 0)).wf = true := by
  simp only [Instr.wf, blockFits, List.length_replicate]; decide

theorem test_witness_DecodedCommandEncodesBack : decode 0x13000005 [] = .ok (.changeWindowing 5) := by decide

theorem test_witness_DecodeRejectsInOrder :
    decode 0x00000000 [] = .error .unassignedOpcode ∧ decode 0x02000001 [0] = .error .wordCount ∧
    decode 0x13000100 [] = .error .reservedBits ∧ decode 0x130000FF [] = .ok (.changeWindowing 255) := by decide

theorem test_witness_StepRunsDecodedCommand :
    (State.reset.withFetchWord 32 0x02000000).cmds = .command 0x02000000 [] :: [] ∧
    decode 0x02000000 [] = .ok .reset := by decide

theorem test_witness_StepAnswersIllegalTransaction :
    (State.reset.withFetchWord 32 0x02000001).cmds = .command 0x02000001 [] :: [] ∧
    decode 0x02000001 [] = .error .reservedBits := by decide

theorem test_witness_StepWaitsWithoutEvent : State.reset.cmds = [] := by decide

theorem test_witness_HardwareResetGivesResetValues :
    ({ State.reset with cmds := [.hreset Config.reference] } : State).cmds = .hreset Config.reference :: [] ∧
    paramsLegal State.reset.fftSizes Config.reference = true ∧
    paramsLegal State.reset.fftSizes { Config.reference with d := 1, n := 2, nb := 1, alpha := 0x3F800000#32 } = true ∧
    paramsLegal State.reset.fftSizes { Config.reference with d := 2 ^ 24 - 1 } = true := by decide

/-- The premise of IllegalInstanceIsRefused, for the reference instance with other parameters. -/
def sampled (p : Params) : State := { State.reset with cmds := [.hreset p] }

/-- One instance for each bound, just outside it, and the reference instance inside all of them. -/
theorem test_witness_IllegalInstanceIsRefused :
    (∀ p, (sampled p).cmds = .hreset p :: []) ∧
    ¬ 1 ≤ ({ Config.reference with d := 0 } : Params).d ∧
    ¬ ({ Config.reference with d := 2 ^ 24 } : Params).d ≤ 16777215 ∧
    ¬ ({ Config.reference with n := 3 } : Params).n % 2 = 0 ∧
    ¬ 2 ≤ ({ Config.reference with n := 0 } : Params).n ∧
    ¬ ({ Config.reference with n := 2 ^ 24 } : Params).n ≤ 16777214 ∧
    ¬ ({ Config.reference with n := 6 } : Params).n ∈ State.reset.fftSizes ∧
    ¬ 1 ≤ ({ Config.reference with nb := 0 } : Params).nb ∧
    ¬ ({ Config.reference with nb := 2 ^ 23 + 1 } : Params).nb ≤ 8388608 ∧
    ¬ isFinite ({ Config.reference with minDb := 0xFF800000#32 } : Params).minDb = true ∧
    ¬ isFinite ({ Config.reference with alpha := 0x7FC00000#32 } : Params).alpha = true ∧
    paramsLegal State.reset.fftSizes Config.reference = true := by
  refine ⟨fun _ => rfl, ?_⟩
  decide

/-- The bounds of the decibel range and of the smoothing factor, each just outside it and at it. -/
theorem test_witness_IllegalInstanceIsRefused_reals :
    ¬ realOf Config.reference.minDb < realOf ({ Config.reference with maxDb := Config.reference.minDb } : Params).maxDb ∧
    ¬ realOf ({ Config.reference with alpha := 0x3F800001#32 } : Params).alpha ≤ 1 ∧
    ¬ 0 ≤ realOf ({ Config.reference with alpha := 0x80000001#32 } : Params).alpha ∧
    realOf Config.reference.minDb < realOf Config.reference.maxDb ∧
    (0 ≤ realOf 0x3F800000#32 ∧ realOf 0x3F800000#32 ≤ 1) := by
  refine ⟨lt_irrefl _, ?_, ?_, ?_, ?_, ?_⟩
  · rw [realOf, show valueOf 0x3F800001#32 = 2 ^ 149 + 2 ^ 126 by decide]; norm_num
  · rw [realOf, show valueOf 0x80000001#32 = -1 by decide]; norm_num
  · rw [realOf, realOf, show valueOf Config.reference.minDb = -85 * 2 ^ 149 by decide,
      show valueOf Config.reference.maxDb = 0 by decide]; norm_num
  · rw [realOf, show valueOf 0x3F800000#32 = 2 ^ 149 by decide]; norm_num
  · rw [realOf, show valueOf 0x3F800000#32 = 2 ^ 149 by decide]; norm_num

theorem test_witness_ProcessComputesDelayRecurrence :
    dlyInRange (withLine [1] 0).params (withLine [1] 0).dly = true ∧
    dlyInRange (withLine [1, 2, 3] 2).params (withLine [1, 2, 3] 2).dly = true ∧
    ([0x3F800000, 0, 0, 0] : List F32).length < 2 ^ 24 := by decide

theorem test_witness_LengthMismatchIsReported :
    dlyInRange State.reset.params State.reset.dly = true ∧ ([] : List F32).length < 2 ^ 24 ∧
    (1#32).toNat ≠ ([] : List F32).length ∧ spaInRange State.reset.fftSizes State.reset.params State.reset.spa = true ∧
    (3#24).toNat ≠ State.reset.params.n ∧ (1#24).toNat ≠ State.reset.params.n / 2 ∧
    dbaInRange State.reset.fftSizes State.reset.params State.reset.dba = true ∧
    (5#24).toNat ≠ State.reset.params.nb := by decide

theorem test_witness_ProcessChunksLikeOneBlock :
    dlyInRange (withLine [1, 2, 3] 2).params (withLine [1, 2, 3] 2).dly = true ∧
    ([0x3F000000] : List F32).length + ([0xBE800000, 0] : List F32).length < 2 ^ 24 := by decide

theorem test_witness_DelayRecurrenceFromReset :
    dlyInRange State.reset.params State.reset.dly = true ∧ (∀ x ∈ State.reset.dly.dl, x = 0x00000000#32) ∧
    State.reset.dly.cur = 0 ∧ ∀ b ∈ ([[0x3F800000, 0], [], [0, 0, 0]] : List (List F32)), b.length < 2 ^ 24 :=
  ⟨by decide, fun _ h => List.eq_of_mem_replicate h, rfl, by simp⟩

theorem test_witness_ResetClearsOnlyTheDelayLine :
    dlyInRange (withLine [1, 2, 3] 2).params (withLine [1, 2, 3] 2).dly = true ∧
    Instr.reset ∈ [Instr.reset, Instr.panic] ∧ Instr.panic ∈ [Instr.reset, Instr.panic] := by decide

theorem test_witness_SilenceInSilenceOut :
    dlyInRange (withLine [0, 0] 1).params (withLine [0, 0] 1).dly = true ∧
    (∀ x ∈ (withLine [0, 0] 1).dly.dl, x = 0x00000000#32) ∧
    (∀ x ∈ [0x00000000#32, 0x80000000#32], x = 0x00000000#32 ∨ x = 0x80000000#32) ∧
    [0x00000000#32, 0x80000000#32].length < 2 ^ 24 :=
  ⟨by decide, by simp [withLine], by simp, by decide⟩

theorem test_witness_NoMemoryAcrossReset :
    dlyInRange (withLine [1, 2, 3] 2).params (withLine [1, 2, 3] 2).dly = true ∧
    [0x3F800000#32, 0x80000000#32, 0x7FC00000#32].length ≤ (withLine [1, 2, 3] 2).params.d ∧
    isNaN 0x7FC00000#32 = true ∧ isNaN 0x3F800000#32 = false ∧ 0x3F800000#32 ≠ 0x80000000#32 := by decide

theorem test_witness_NaNInDelayLinePersists :
    dlyInRange (withLine [1, 0x7FC00000, 3] 0).params (withLine [1, 0x7FC00000, 3] 0).dly = true ∧
    ([0, 0, 0, 0, 0] : List F32).length < 2 ^ 24 ∧
    (withLine [1, 0x7FC00000, 3] 0).dly.dl[1]? = some 0x7FC00000#32 ∧ isNaN 0x7FC00000#32 = true := by decide

theorem test_witness_SmallestEchoNeverDies :
    dlyInRange (withLine [1, 1] 1).params (withLine [1, 1] 1).dly = true ∧ ([0, 0, 0] : List F32).length < 2 ^ 24 ∧
    (∀ x ∈ (withLine [1, 1] 1).dly.dl, x = 0x00000001#32) ∧ ∀ x ∈ ([0, 0, 0] : List F32), x = 0x00000000#32 :=
  ⟨by decide, by decide, by simp [withLine], by simp⟩

theorem test_witness_AccFillCopiesWhatFits :
    (zeros 3).buf.length = 4 ∧ (zeros 3).fill ≤ 4 ∧ (zeros 4).buf.length = 4 ∧ (zeros 4).fill ≤ 4 := by decide

theorem test_witness_AccFillSequenceIsOneFill : (zeros 0).buf.length = 4 ∧ (zeros 0).fill = 0 := by decide

theorem test_witness_FeedConsumesTheBlock :
    spaInv State.reset.fftSizes State.reset.params State.reset.spa ∧
    spaInv (withAcc (zeros 3)).fftSizes (withAcc (zeros 3)).params (withAcc (zeros 3)).spa ∧
    (withAcc (zeros 3)).spa.acc.fill + ([] : List F32).length < (withAcc (zeros 3)).params.n := by decide

theorem test_witness_TimeSnapshotIsOfLastFrame :
    ∃ t, spaInv (withAcc (zeros 3)).fftSizes (withAcc (zeros 3)).params (withAcc (zeros 3)).spa ∧
      exec (.feed [1]) (withAcc (zeros 3)) = .next t ∧
      (withAcc (zeros 3)).params.n ≤ (withAcc (zeros 3)).spa.acc.fill + ([1] : List F32).length :=
  ⟨_, by decide, execFeed_next.mpr ⟨by decide, rfl⟩, by decide⟩

/-- With three samples in the accumulator of four: one to four more complete exactly one frame. -/
theorem test_witness_FeedProcessesOneFrame :
    spaInv (withAcc (zeros 3)).fftSizes (withAcc (zeros 3)).params (withAcc (zeros 3)).spa ∧
    ((withAcc (zeros 3)).params.n ≤ (zeros 3).fill + ([1] : List F32).length ∧
      (zeros 3).fill + ([1] : List F32).length < 2 * (withAcc (zeros 3)).params.n) ∧
    ((withAcc (zeros 3)).params.n ≤ (zeros 3).fill + ([1, 2, 3, 4] : List F32).length ∧
      (zeros 3).fill + ([1, 2, 3, 4] : List F32).length < 2 * (withAcc (zeros 3)).params.n) := by decide

theorem test_witness_FeedChunkingLaw :
    spaInv smoothedStart.fftSizes smoothedStart.params smoothedStart.spa ∧
    ([[1, 2, 3], [4, 5]] : List (List F32)).flatten = ([[1], [], [2, 3, 4, 5]] : List (List F32)).flatten := by decide

theorem test_witness_TimeCopiesTheSnapshot :
    spaInRange (withAcc (zeros 4)).fftSizes (withAcc (zeros 4)).params (withAcc (zeros 4)).spa = true := by decide

theorem test_witness_FrequencyCopiesTheSnapshot :
    spaInRange State.reset.fftSizes State.reset.params State.reset.spa = true := by decide

theorem test_witness_ChangeWindowingWritesOnlyTheIndex :
    spaInRange (withAcc (zeros 0)).fftSizes (withAcc (zeros 0)).params (withAcc (zeros 0)).spa = true := by decide

theorem test_witness_WindowTableFixedEntries :
    (2 % 2 = 0 ∧ 2 ≤ 2 ∧ 2 ≤ 2 ^ 24 - 2) ∧ ((2 ^ 24 - 2) % 2 = 0 ∧ 2 ≤ 2 ^ 24 - 2 ∧ 2 ^ 24 - 2 ≤ 2 ^ 24 - 2) ∧
    (4 % 2 = 0 ∧ 2 ≤ 4 ∧ 4 ≤ 2 ^ 24 - 2 ∧ 4 % 4 = 0) := by decide

/-- Each point where the cosine is a multiple of one half. -/
theorem test_witness_WindowWeightsAreNearest :
    (0 < 1 ∧ 0 = 0) ∧ (6 < 12 ∧ 2 * 6 = 12) ∧ (3 < 12 ∧ 4 * 3 = 12) ∧ (9 < 12 ∧ 4 * 9 = 3 * 12) ∧
    (2 < 12 ∧ 6 * 2 = 12) ∧ (10 < 12 ∧ 6 * 10 = 5 * 12) ∧ (4 < 12 ∧ 3 * 4 = 12) ∧ (8 < 12 ∧ 3 * 8 = 2 * 12) := by
  decide

/-- At `1/8` and `7/8`, where the cosine is irrational, its bounds round alike for every cosine window. -/
theorem test_witness_WindowWeightsAreNearest_irrational :
    (1 < 8 ∧ 7 < 8) ∧ ∀ w ∈ [WindowKind.hanning, .hamming, .blackman], ∀ n ∈ [1, 7],
      weightAt w (cosBounds n 8).1 = weightAt w (cosBounds n 8).2 := by
  decide +kernel

theorem test_witness_SmoothingDisabledKeepsMemory :
    spaInv State.reset.fftSizes State.reset.params State.reset.spa ∧ isZero State.reset.params.alpha = true := by
  decide

theorem test_witness_SilentBinSticksAtMinusInfinity :
    paramsLegal Config.referenceSizes smoothed = true ∧ 0 < valueOf smoothed.alpha ∧
    valueOf smoothed.alpha < valueOf 0x3F800000#32 ∧ (isNaN 0#32 = false ∧ 0#32 ≠ 0x7F800000#32) ∧
    (isNaN 0xFF800000#32 = false ∧ 0xFF800000#32 ≠ 0x7F800000#32) ∧ isZero 0x80000000#32 = true := by decide

/-- A FEED that completes no frame and one that does, with a smoothing memory that holds other NaNs. -/
theorem test_witness_ByteOutputsIgnoreDraws :
    (sameValue 0#32 0#32 ∧ sameValue 0x7FC00000#32 0xFFC00001#32) ∧
    ∀ xs ∈ ([[1], [1, 2, 3, 4]] : List (List F32)), ∃ t,
      List.Forall₂ sameValue [0#32, 0x7FC00000#32] [0#32, 0xFFC00001#32] ∧
      exec (.feed xs) { State.reset with spa := { State.reset.spa with sm := [0#32, 0x7FC00000#32] } } = .next t := by
  have h : sameValue 0#32 0#32 ∧ sameValue 0x7FC00000#32 0xFFC00001#32 := ⟨.inl rfl, .inr (by decide)⟩
  exact ⟨h, fun _ _ => ⟨_, .cons h.1 (.cons h.2 .nil), execFeed_next.mpr ⟨by decide, rfl⟩⟩⟩

theorem test_witness_ByteQuantizerRoundsAndSaturates :
    isNaN 0x7FC00000#32 = true ∧
    (isFinite 0x80000001#32 = true ∧ realOf 0x80000001#32 < 0) ∧
    (isFinite 0x80000000#32 = true ∧ 0 ≤ realOf 0x80000000#32) ∧
    (isFinite 0x7F7FFFFF#32 = true ∧ 0 ≤ realOf 0x7F7FFFFF#32) := by
  refine ⟨by decide, ⟨by decide, ?_⟩, ⟨by decide, ?_⟩, by decide, ?_⟩
  · rw [realOf, show valueOf 0x80000001#32 = -1 by decide]; norm_num
  · rw [realOf, show valueOf 0x80000000#32 = 0 by decide]; norm_num
  · rw [realOf]
    exact div_nonneg (Int.cast_nonneg (show 0 ≤ valueOf 0x7F7FFFFF#32 by decide)) (by positivity)

/-- The thresholds of 44_window_numerics.md R196 and a NaN. -/
theorem test_witness_TimeByteThresholds :
    isResult (addCore 0x3F800000#32 0xBF7F0000#32) 0x3B800000#32 ∧
    isResult (addCore 0x3F800000#32 0x3F7D0000#32) 0x3FFE8000#32 ∧
    isResult (addCore 0x3F800000#32 0xFF800000#32) 0xFF800000#32 ∧
    isResult (addCore 0x3F800000#32 0x7FC00000#32) 0x7FC00000#32 := by
  refine ⟨?_, ?_, ?_, ?_⟩
  · rw [show addCore 0x3F800000#32 0xBF7F0000#32 = some 0x3B800000#32 by decide]; rfl
  · rw [show addCore 0x3F800000#32 0x3F7D0000#32 = some 0x3FFE8000#32 by decide]; rfl
  · rw [show addCore 0x3F800000#32 0xFF800000#32 = some 0xFF800000#32 by decide]; rfl
  · rw [show addCore 0x3F800000#32 0x7FC00000#32 = none by decide]
    show isQuietNaN 0x7FC00000#32 = true
    decide

theorem test_witness_DecibelSpecialValues :
    paramsLegal Config.referenceSizes Config.reference = true ∧ isNaN 0xFFC00000#32 = true := by decide

theorem test_witness_FrequencyByteEnds :
    paramsLegal Config.referenceSizes Config.reference = true ∧ isNaN 0x7FC00000#32 = true ∧
    (isFinite 0xC2AA0001#32 = true ∧ valueOf 0xC2AA0001#32 < valueOf Config.reference.minDb) ∧
    isZero (scale Config.reference) = false ∧
    (isFinite 0x00000001#32 = true ∧ valueOf Config.reference.maxDb < valueOf 0x00000001#32) := by decide

theorem test_witness_FrequencyByteIsMonotone :
    paramsLegal Config.referenceSizes Config.reference = true ∧ isFinite 0xC2B40000#32 = true ∧
    isFinite 0x41200000#32 = true ∧ valueOf 0xC2B40000#32 ≤ valueOf 0x41200000#32 := by decide

theorem test_witness_MagnitudeIsNeverNegative :
    isNaN (mag .dba 0xC0000000#32 0x80000000#32 0).1 = false ∧ isNaN 0x7FC00000#32 = true := by decide +kernel

/-- A quotient between two values, one at equal distance from two, and the smallest. -/
theorem test_witness_RoundingIsNearestTiesToEven :
    (0 < 3 ∧ roundMag (2 ^ 25) 3 < infBits ∧ 0 < infBits) ∧ (0 < 2 ∧ roundMag 1 2 < infBits ∧ 1 < infBits) ∧
    |((magUnits (roundMag 1 2) * 2 : Nat) : ℤ) - (1 : Nat)| = |((magUnits 1 * 2 : Nat) : ℤ) - (1 : Nat)| ∧
    1 ≠ roundMag 1 2 := by decide

theorem test_witness_RoundingOverflowsToInfinity : 0 < 1 ∧ 0 < 7 := by decide

theorem test_witness_ArithmeticIsCorrectlyRounded :
    (isFinite 0x3F800000#32 = true ∧ isFinite 0x33800000#32 = true ∧
      addCore 0x3F800000#32 0x33800000#32 = some 0x3F800000#32) ∧
    (isFinite 0x3DCCCCCD#32 = true ∧ subCore 0x3DCCCCCD#32 0x3F800000#32 = some 0xBF666666#32) ∧
    (isFinite 0x3F34FDF4#32 = true ∧ mulCore 0x3F34FDF4#32 0x00000001#32 = some 0x00000001#32) ∧
    (isFinite 0x437F0000#32 = true ∧ divCore 0x437F0000#32 0x428C0000#32 = some 0x40692492#32) ∧
    sqrtCore 0x40000000#32 = some 0x3FB504F3#32 := by decide +kernel

theorem test_witness_DbFeedWithoutFrame :
    dbaInRange (withAccs (zeros 0) (zeros 2)).fftSizes (withAccs (zeros 0) (zeros 2)).params
      (withAccs (zeros 0) (zeros 2)).dba = true ∧
    ¬ ((zeros 0).fill = 4 ∧ (zeros 2).fill = 4) ∧ (zeros 2).fill + ([1] : List F32).length < 4 ∧
    dbaInRange (withAccs (zeros 2) (zeros 4)).fftSizes (withAccs (zeros 2) (zeros 4)).params
      (withAccs (zeros 2) (zeros 4)).dba = true ∧
    ¬ ((zeros 2).fill = 4 ∧ (zeros 4).fill = 4) := by decide

/-- With room for two samples, a block of two to five completes exactly one frame: in states Empty, AFull and BFull. -/
theorem test_witness_DbFeedCompletesFrame :
    (∀ ab ∈ [(zeros 0, zeros 2), (zeros 4, zeros 2), (zeros 2, zeros 4)],
      dbaInRange (withAccs ab.1 ab.2).fftSizes (withAccs ab.1 ab.2).params (withAccs ab.1 ab.2).dba = true ∧
      ¬ (ab.1.fill = 4 ∧ ab.2.fill = 4) ∧ (if ab.2.fill = 4 then ab.1 else ab.2) = zeros 2) ∧
    (4 ≤ (zeros 2).fill + ([1, 2] : List F32).length ∧ ([1, 2] : List F32).length < (4 - (zeros 2).fill) + 4) ∧
    4 ≤ (zeros 2).fill + ([1, 2, 3, 4, 5] : List F32).length ∧
    ([1, 2, 3, 4, 5] : List F32).length < (4 - (zeros 2).fill) + 4 := by decide

theorem test_witness_DbFeedReportsOversizeBlock :
    dbaInRange (withAccs (zeros 0) (zeros 3)).fftSizes (withAccs (zeros 0) (zeros 3)).params
      (withAccs (zeros 0) (zeros 3)).dba = true ∧ ([1, 2, 3, 4, 5] : List F32).length < 2 ^ 24 ∧
    ¬ ((zeros 0).fill = 4 ∧ (zeros 3).fill = 4) ∧
    (4 - (zeros 3).fill) + 4 ≤ ([1, 2, 3, 4, 5] : List F32).length := by decide

theorem test_witness_InvalidStateIsReported :
    dbaInRange (withAccs (zeros 4) (zeros 4)).fftSizes (withAccs (zeros 4) (zeros 4)).params
      (withAccs (zeros 4) (zeros 4)).dba = true ∧ (zeros 4).fill = (withAccs (zeros 4) (zeros 4)).params.nb ∧
    (4#24).toNat = (withAccs (zeros 4) (zeros 4)).params.nb := by decide

theorem test_witness_InvalidStateIsNeverLeft :
    ∃ t, (withAccs (zeros 4) (zeros 4)).dba.a.fill = (withAccs (zeros 4) (zeros 4)).params.nb ∧
      (withAccs (zeros 4) (zeros 4)).dba.b.fill = (withAccs (zeros 4) (zeros 4)).params.nb ∧
      exec (.dbFeed [1]) (withAccs (zeros 4) (zeros 4)) = .next t :=
  ⟨_, by decide, by decide, execDbFeed_next.mpr ⟨by decide, .inl ⟨by decide, rfl⟩⟩⟩

/-- DBA after reset meets its invariant. -/
theorem test_dbaInv_reset : dbaInv State.reset.fftSizes State.reset.params State.reset.dba :=
  ⟨by decide, by decide, fun _ => ⟨rfl, fun _ h => List.eq_of_mem_replicate h⟩⟩

theorem test_witness_DbTimeCopiesTheCompletedFrame :
    dbaInRange State.reset.fftSizes State.reset.params State.reset.dba = true ∧
    dbaInv State.reset.fftSizes State.reset.params State.reset.dba ∧
    State.reset.dba.a.fill ≠ State.reset.params.nb ∧ State.reset.dba.b.fill ≠ State.reset.params.nb :=
  ⟨by decide, test_dbaInv_reset, by decide, by decide⟩

theorem test_witness_DbFrequencyCopiesTheSnapshot :
    dbaInRange (withAccs (zeros 4) (zeros 4)).fftSizes (withAccs (zeros 4) (zeros 4)).params
      (withAccs (zeros 4) (zeros 4)).dba = true := by decide

/-- Blocks that are accepted, one of them longer than `NB` but within the room, and one that is too big. -/
theorem test_witness_DbFeedLosesNoSample :
    dbaInv (withAccs (zeros 4) (zeros 2)).fftSizes (withAccs (zeros 4) (zeros 2)).params
      (withAccs (zeros 4) (zeros 2)).dba ∧
    ∀ b ∈ ([[1, 2, 3, 4, 5], [], [1, 2, 3, 4, 5, 6, 7, 8], [6]] : List (List F32)), b.length < 2 ^ 24 :=
  ⟨⟨by decide, by decide, fun h => absurd h (by decide)⟩, by simp⟩

theorem test_witness_StepKeepsInvariants : State.reset.inv ∧ step State.reset = .next State.reset :=
  ⟨⟨by decide, by decide, test_dbaInv_reset⟩, rfl⟩

theorem test_witness_CommandsStopOnlyOutsideTheRanges :
    (agentOf .reset = .dly ∧ dlyInRange State.reset.params State.reset.dly = true ∧
      dlyInRange State.reset.params { State.reset.dly with cur := 4 } = false) ∧
    (agentOf (.time 4) = .spa ∧
      spaInRange State.reset.fftSizes State.reset.params { State.reset.spa with acc := zeros 5 } = false) ∧
    (agentOf (.dbTime 4) = .dba ∧
      dbaInRange State.reset.fftSizes State.reset.params { State.reset.dba with a := zeros 5 } = false) := by decide

theorem test_witness_ErrorsChangeNothing : ∃ t, exec (.time 3) State.reset = .next t :=
  ⟨_, execTime_next.mpr ⟨by decide, .inl ⟨by decide, rfl⟩⟩⟩

theorem test_witness_CommandsChangeOnlyTheirUnit :
    ∃ t, exec (.changeWindowing 3) State.reset = .next t ∧ agentOf (.changeWindowing 3) ≠ .dly :=
  ⟨_, execChangeWindowing_next.mpr ⟨by decide, rfl⟩, by decide⟩

theorem test_witness_AccessorsChangeNothing :
    ∃ t, (∃ lout, Instr.time 4 = .time lout ∨ Instr.time 4 = .frequency lout ∨ Instr.time 4 = .dbTime lout ∨
      Instr.time 4 = .dbFrequency lout) ∧ exec (.time 4) State.reset = .next t :=
  ⟨_, ⟨4, .inl rfl⟩, execTime_next.mpr ⟨by decide, .inr ⟨by decide, rfl⟩⟩⟩

theorem test_witness_CommandsOfDifferentUnitsCommute :
    ∃ s1 s2, agentOf .reset ≠ agentOf (.changeWindowing 3) ∧ exec .reset State.reset = .next s1 ∧
      exec (.changeWindowing 3) s1 = .next s2 :=
  ⟨_, _, by decide, execReset_next.mpr ⟨by decide, rfl⟩, execChangeWindowing_next.mpr ⟨by decide, rfl⟩⟩

/-- A state and the same with another work buffer. -/
theorem test_witness_WorkBuffersAreUnobservable :
    ∃ s t s' : State, sameButWork s t ∧ step s = .next s' ∧ s.spa.wre ≠ t.spa.wre :=
  ⟨{ State.reset with spa := { State.reset.spa with wre := [0, 0, 0, 0] } },
    { State.reset with spa := { State.reset.spa with wre := [1, 0, 0, 0] } }, _,
    ⟨rfl, ⟨rfl, rfl⟩, rfl, rfl⟩, rfl, by decide⟩

/-- A state and the same with another stale sample. -/
theorem test_witness_StaleSamplesAreUnobservable :
    ∃ s t s' : State, sameButStale s t ∧ step s = .next s' ∧ s.spa.acc ≠ t.spa.acc :=
  ⟨withAcc { buf := [1, 0, 0, 0], fill := 1 }, withAcc { buf := [1, 2, 0, 0], fill := 1 }, _,
    ⟨rfl, ⟨rfl, rfl, rfl⟩, rfl, ⟨rfl, rfl, rfl⟩, rfl⟩, rfl, by decide⟩

end Sys2Proof.Tests
end

section
/-!
PROOF. Unit DLY (40_delay.md). The delay line is read as a queue: its samples in the order in which the cursor will
reach them. A sample step takes the front of the queue and appends the fed-back value, so a block's outputs are the sums
of its samples with the queue followed by the values fed back.
-/

namespace Sys2Proof.Machine

/-! ### Results -/

@[simp] theorem isResult_some {v y : F32} : isResult (some v) y ↔ y = v := Iff.rfl

@[simp] theorem isResult_none {y : F32} : isResult none y ↔ isQuietNaN y = true := Iff.rfl

/-! ### The delay line as a queue -/

/-- The samples of the delay line in the order in which the cursor reaches them, the next one first. -/
def delayQueue (u : Dly) : List F32 := u.dl.rotate u.cur

@[simp] theorem delayQueue_length (u : Dly) : (delayQueue u).length = u.dl.length := List.length_rotate ..

@[simp] theorem mem_delayQueue {u : Dly} {x : F32} : x ∈ delayQueue u ↔ x ∈ u.dl := List.mem_rotate

/-- Place `k` of the queue is the element `k` places after the cursor, modulo `D` (10_state.md R24). -/
theorem getElem?_delayQueue {p : Params} {u : Dly} (h : dlyInRange p u) {k : Nat} (hk : k < p.d) :
    (delayQueue u)[k]? = u.dl[(u.cur + k) % p.d]? := by
  obtain ⟨-, hwf, -⟩ := dlyInRange_iff.mp h
  rw [delayQueue, List.getElem?_rotate (hwf.symm ▸ hk), hwf, Nat.add_comm]

/-- Everything a sample step does to the memory (40_delay.md R103): the element under the cursor is added to the sample,
and the output times `G` takes its place. -/
theorem dlyStep_cases {p : Params} {u : Dly} (h : dlyInRange p u) (x : F32) :
    ∃ old fed, u.dl[u.cur]? = some old ∧ (dlyStep p x u).2.dl = memWrite u.dl u.cur fed ∧
      isResult (addCore x old) (dlyStep p x u).1 ∧ isResult (mulCore (dlyStep p x u).1 gain) fed := by
  obtain ⟨-, hwf, hcur⟩ := dlyInRange_iff.mp h
  have hread : u.dl[u.cur]? = some u.dl[u.cur] := List.getElem?_eq_getElem (hwf.symm ▸ hcur)
  have hold : (memRead u.dl u.cur).getD posZero = u.dl[u.cur] := by rw [memRead, hread, Option.getD_some]
  refine ⟨_, _, hread, rfl, ?_, isResult_settle _ _ _⟩
  rw [← hold]
  exact isResult_settle _ _ _

/-- A write at the index to which a memory is turned replaces the front. -/
theorem rotate_memWrite_self {m : List F32} {i : Nat} (hi : i < m.length) (v : F32) :
    (memWrite m i v).rotate i = v :: (m.rotate i).tail := by
  rw [List.rotate_eq_drop_append_take hi.le, List.rotate_eq_drop_append_take (by simpa using hi.le), memWrite,
    List.take_set_of_le (Nat.le_refl i), List.drop_eq_getElem_cons (by simpa using hi), List.getElem_set_self,
    List.drop_set_of_lt (Nat.lt_succ_self i), List.drop_eq_getElem_cons hi]
  rfl

/-- A sample step on the queue: the front is added to the sample, and the output times `G` goes to the back. -/
theorem dlyStep_queue {p : Params} {u : Dly} (h : dlyInRange p u) (x : F32) :
    ∃ old rest fed, delayQueue u = old :: rest ∧ delayQueue (dlyStep p x u).2 = rest ++ [fed] ∧
      isResult (addCore x old) (dlyStep p x u).1 ∧ isResult (mulCore (dlyStep p x u).1 gain) fed := by
  obtain ⟨old, fed, hold, hdl, hy, hfed⟩ := dlyStep_cases h x
  obtain ⟨-, hwf, hcur⟩ := dlyInRange_iff.mp h
  have hlt : u.cur < u.dl.length := hwf.symm ▸ hcur
  have hfront : delayQueue u = old :: (delayQueue u).tail := by
    have hhead : (delayQueue u)[0]? = some old := by
      rw [getElem?_delayQueue h (by omega), Nat.add_zero, Nat.mod_eq_of_lt hcur, hold]
    exact List.eq_cons_of_mem_head? (by rw [List.head?_eq_getElem?, hhead]; rfl)
  refine ⟨old, (delayQueue u).tail, fed, hfront, ?_, hy, hfed⟩
  calc delayQueue (dlyStep p x u).2
      = (memWrite u.dl u.cur fed).rotate ((u.cur + 1) % (memWrite u.dl u.cur fed).length) := by
        rw [delayQueue, hdl, dlyStep_cur, advance_eq p hcur, memWrite_length, hwf]
    _ = ((memWrite u.dl u.cur fed).rotate u.cur).rotate 1 := by rw [List.rotate_mod, List.rotate_rotate]
    _ = (delayQueue u).tail ++ [fed] := by
        rw [rotate_memWrite_self hlt, List.rotate_cons_succ, List.rotate_zero, delayQueue]

/-- The sample loop on the queue: the values fed back join it at the back, it moves on by the block's length, and output
`n` is the sum of sample `n` and place `n` of the queue so extended (40_delay.md R100, R103). -/
theorem dlyRun_queue {p : Params} {u : Dly} (h : dlyInRange p u) (xs : List F32) :
    ∃ fed, delayQueue (dlyRun p xs u).2 = (delayQueue u ++ fed).drop xs.length ∧ fed.length = xs.length ∧
      ∀ (n : Nat) (x y : F32), xs[n]? = some x → (dlyRun p xs u).1[n]? = some y → ∃ old f,
        (delayQueue u ++ fed)[n]? = some old ∧ fed[n]? = some f ∧
        isResult (addCore x old) y ∧ isResult (mulCore y gain) f := by
  induction xs generalizing u with
  | nil => exact ⟨[], by simp [dlyRun], rfl, by simp⟩
  | cons x xs ih =>
    obtain ⟨old, rest, f, hq, hq', hy, hf⟩ := dlyStep_queue h x
    obtain ⟨fed, hend, hlen, hout⟩ := ih (dlyStep_keeps_inRange h x)
    have hshift : delayQueue u ++ f :: fed = old :: (delayQueue (dlyStep p x u).2 ++ fed) := by simp [hq, hq']
    refine ⟨f :: fed, ?_, congrArg (· + 1) hlen, fun n x' y hx hy' => ?_⟩
    · rw [dlyRun, hend, hshift, List.length_cons, List.drop_succ_cons]
    · rw [hshift]
      cases n with
      | zero =>
        cases hx; cases hy'
        exact ⟨old, f, rfl, rfl, hy, hf⟩
      | succ n => exact hout n x' y hx hy'

/-- Output `n` of the sample loop: the sum of sample `n` and place `n` of the queue for the first `D` samples, and of
sample `n` and `G` times output `n - D` from then on (40_delay.md R104). -/
theorem dlyRun_recurrence {p : Params} {u : Dly} (h : dlyInRange p u) {xs : List F32} {n : Nat} {x y : F32}
    (hx : xs[n]? = some x) (hy : (dlyRun p xs u).1[n]? = some y) :
    ∃ old, (if n < p.d then (delayQueue u)[n]? = some old
        else ∃ y', (dlyRun p xs u).1[n - p.d]? = some y' ∧ isResult (mulCore y' gain) old) ∧
      isResult (addCore x old) y := by
  obtain ⟨fed, -, -, hout⟩ := dlyRun_queue h xs
  obtain ⟨old, -, hold, -, hsum, -⟩ := hout n x y hx hy
  have hlen : (delayQueue u).length = p.d := (delayQueue_length u).trans (dlyInRange_iff.mp h).2.1
  refine ⟨old, ?_, hsum⟩
  split_ifs with hn
  · rwa [List.getElem?_append_left (hlen.symm ▸ hn)] at hold
  · rw [List.getElem?_append_right (by omega), hlen] at hold
    have hlt : n - p.d < xs.length := Nat.lt_of_le_of_lt (Nat.sub_le ..) (List.getElem?_eq_some_iff.mp hx).1
    have hy' := List.getElem?_eq_getElem (l := (dlyRun p xs u).1) (by rwa [dlyRun_length])
    obtain ⟨-, f, -, hf, -, hfed⟩ := hout _ _ _ (List.getElem?_eq_getElem hlt) hy'
    cases hold.symm.trans hf
    exact ⟨_, hy', hfed⟩

/-- A line of one value `v` that every sample leaves as it is: each output is `v`, and the line is as before. -/
theorem dlyRun_of_fixed {p : Params} {u : Dly} (h : dlyInRange p u) {v : F32} (hv : ∀ x ∈ u.dl, x = v)
    {xs : List F32} (hsum : ∀ x ∈ xs, addCore x v = some v) (hfed : mulCore v gain = some v) :
    (dlyRun p xs u).1 = List.replicate xs.length v ∧ ∀ x ∈ (dlyRun p xs u).2.dl, x = v := by
  induction xs generalizing u with
  | nil => exact ⟨rfl, hv⟩
  | cons x xs ih =>
    obtain ⟨old, rest, f, hq, hq', hy, hf⟩ := dlyStep_queue h x
    have hqv : ∀ z ∈ old :: rest, z = v := by rw [← hq]; simpa using hv
    obtain ⟨rfl, hrest⟩ := List.forall_mem_cons.mp hqv
    rw [hsum x List.mem_cons_self, isResult_some] at hy
    rw [hy, hfed, isResult_some] at hf
    have hstep : ∀ z ∈ (dlyStep p x u).2.dl, z = old := fun z hz => by
      rw [← mem_delayQueue, hq', List.mem_append, List.mem_singleton] at hz
      exact hz.elim (hrest z) (·.trans hf)
    obtain ⟨houts, hline⟩ := ih (dlyStep_keeps_inRange h x) hstep fun z hz => hsum z (List.mem_cons_of_mem _ hz)
    exact ⟨by rw [dlyRun, houts, hy]; rfl, hline⟩

/-! ### The commands -/

/-- PROCESS with equal lengths: the sample loop's unit and outputs, and nothing else (40_delay.md R100). -/
theorem exec_process {s : State} (h : dlyInRange s.params s.dly) {xs : List F32} (hlen : xs.length < 2 ^ 24) :
    exec (.process (BitVec.ofNat 32 xs.length) xs) s = .next { s with
      dly := (dlyRun s.params xs s.dly).2
      resps := s.resps ++ [statusWord 0 xs.length :: (dlyRun s.params xs s.dly).1] } := by
  have hlout : (BitVec.ofNat 32 xs.length).toNat = xs.length := by
    rw [BitVec.toNat_ofNat]; exact Nat.mod_eq_of_lt (by omega)
  have hstatus : responseHeader .ok (infoOf xs.length) = statusWord 0 xs.length := responseHeader_infoOf .ok hlen
  refine execProcess_next.mpr ⟨h, .inr ⟨hlout, ?_⟩⟩
  rw [State.respond, hstatus]

/-- RESET: DLY as hardware reset leaves it, and nothing else (40_delay.md R101). -/
theorem exec_reset {s : State} (h : dlyInRange s.params s.dly) :
    exec .reset s = .next { s with
      dly := dlyAtReset s.params s.dly.draws
      resps := s.resps ++ [[0x00000000#32]] } := by
  have hstatus : responseHeader .ok 0 = 0x00000000#32 := by decide
  refine execReset_next.mpr ⟨h, ?_⟩
  rw [State.respond, hstatus, dlyClear_eq_reset h]

/-- PANIC executes as RESET does (40_delay.md R102). -/
theorem exec_panic (s : State) : exec .panic s = exec .reset s := rfl

theorem execAll_cons_of_next {i : Instr} {s t : State} (h : exec i s = .next t) (is : List Instr) :
    execAll (i :: is) s = execAll is t := by
  rw [execAll, h]

/-- A sequence of PROCESS commands runs the sample loop over the concatenation of their blocks, and gives its outputs in
payloads of the blocks' lengths (40_delay.md R107). -/
theorem execAll_process {s : State} (h : dlyInRange s.params s.dly) {blocks : List (List F32)}
    (hlen : ∀ b ∈ blocks, b.length < 2 ^ 24) :
    ∃ outs : List (List F32),
      execAll (blocks.map fun b => .process (BitVec.ofNat 32 b.length) b) s = some { s with
        dly := (dlyRun s.params blocks.flatten s.dly).2
        resps := s.resps ++ outs.map fun ys => statusWord 0 ys.length :: ys } ∧
      outs.map List.length = blocks.map List.length ∧ outs.flatten = (dlyRun s.params blocks.flatten s.dly).1 := by
  induction blocks generalizing s with
  | nil => exact ⟨[], by simp [execAll, dlyRun], rfl, rfl⟩
  | cons b blocks ih =>
    obtain ⟨hb, hblocks⟩ := List.forall_mem_cons.mp hlen
    obtain ⟨outs, hrun, hlens, hflat⟩ :=
      ih (s := { s with
        dly := (dlyRun s.params b s.dly).2
        resps := s.resps ++ [statusWord 0 b.length :: (dlyRun s.params b s.dly).1] })
        (dlyRun_keeps_inRange h b) hblocks
    refine ⟨(dlyRun s.params b s.dly).1 :: outs, ?_, by simp [hlens], ?_⟩
    · rw [List.map_cons, execAll_cons_of_next (exec_process h hb), hrun, List.flatten_cons, dlyRun_append]
      simp
    · rw [List.flatten_cons, List.flatten_cons, hflat, dlyRun_append]

/-! ### Adding zero -/

/-- A finite pattern that is no zero has a magnitude. -/
theorem unitsOf_pos {x : F32} (h : magBits x ≠ 0) (hfin : magBits x < infBits) : 0 < unitsOf x := by
  by_contra h0
  have hround := roundMag_magUnits hfin
  rw [show magUnits (magBits x) = 0 by rw [unitsOf] at h0; omega] at hround
  exact h (hround.symm.trans (by decide))

/-- A value other than zero is negative exactly where its sign is set. -/
theorem decide_valueOf_neg {x : F32} (h : 0 < unitsOf x) : decide (valueOf x < 0) = signOf x := by
  cases hs : signOf x with
  | false => simp [valueOf, hs]
  | true => simpa [valueOf, hs] using h

@[simp] theorem natAbs_valueOf (x : F32) : (valueOf x).natAbs = unitsOf x := by
  unfold valueOf; split <;> simp

/-- Adding `+0.0` gives back, bit for bit, an operand that is neither a NaN nor `-0.0` (40_delay.md R106). -/
theorem addCore_posZero {x : F32} (hnan : isNaN x = false) (hneg : x ≠ negZero) : addCore x posZero = some x := by
  have hval : valueOf posZero = 0 := by decide
  have hz : isNaN posZero = false ∧ isInf posZero = false := by decide
  rcases classify x with ⟨h, -, -⟩ | ⟨-, hinf, -⟩ | ⟨-, hinf, hfin⟩
  · rw [hnan] at h; cases h
  · simp [addCore, hnan, hinf, hz]
  · have hlt : magBits x < infBits := of_decide_eq_true hfin
    simp only [addCore, hnan, hinf, hz, hval, Int.add_zero, Bool.or_self, Bool.false_eq_true, if_false]
    have hpack := pack_signOf_magBits x
    by_cases hm : magBits x = 0
    · have hs : signOf x = false := Bool.eq_false_iff.mpr fun hs => by
        rw [hm, hs] at hpack
        exact hneg (hpack.symm.trans (by decide))
      rw [hm, hs] at hpack
      rw [← hpack]; decide
    · have hpos := unitsOf_pos hm hlt
      have hne : valueOf x ≠ 0 := fun h0 => by rw [← natAbs_valueOf, h0] at hpos; exact absurd hpos (by decide)
      rw [if_neg hne, decide_valueOf_neg hpos, natAbs_valueOf, unitsOf, roundMag_magUnits hlt, hpack]

theorem addCore_of_isNaN {x : F32} (h : isNaN x = true) (y : F32) : addCore x y = none := by simp [addCore, h]

/-- Either zero plus `+0.0` is `+0.0`. -/
theorem addCore_zero_posZero {x : F32} (h : x = 0x00000000#32 ∨ x = 0x80000000#32) :
    addCore x 0x00000000#32 = some 0x00000000#32 := by
  rcases h with rfl | rfl <;> decide

/-- Every place of a silent line's queue holds `+0.0`. -/
theorem delayQueue_silent {u : Dly} (h : ∀ x ∈ u.dl, x = 0x00000000#32) {n : Nat} {x : F32}
    (hx : (delayQueue u)[n]? = some x) : x = 0x00000000#32 :=
  h x (mem_delayQueue.mp (List.mem_of_getElem? hx))

/-! ### The statements -/

/-- Settles O15: one encoding and one execution for both names. -/
theorem panicIsReset : Obligations.PanicIsReset := by
  unfold Obligations.PanicIsReset
  exact ⟨by decide, by decide, exec_panic⟩

/-- Settles O16: `+0.0` is a value of the line that a zero of either sign leaves as it is. -/
theorem silenceInSilenceOut : Obligations.SilenceInSilenceOut := by
  unfold Obligations.SilenceInSilenceOut
  intro s xs h hline hxs hlen
  obtain ⟨houts, hafter⟩ := dlyRun_of_fixed h hline (fun x hx => addCore_zero_posZero (hxs x hx)) (by decide)
  exact ⟨_, exec_process h hlen, by rw [houts], hafter⟩

/-- Settles O17: the queue after RESET holds `+0.0` at every place, and the block is no longer than the queue. -/
theorem noMemoryAcrossReset : Obligations.NoMemoryAcrossReset := by
  unfold Obligations.NoMemoryAcrossReset
  intro s xs h hlen
  obtain ⟨hlegal, -, -⟩ := dlyInRange_iff.mp h
  have hcleared : dlyInRange s.params (dlyAtReset s.params s.dly.draws) := dlyAtReset_inRange hlegal _
  refine ⟨_, (dlyRun s.params xs (dlyAtReset s.params s.dly.draws)).1,
    (execAll_cons_of_next (exec_reset h) _).trans (execAll_cons_of_next (exec_process hcleared (by omega)) []),
    List.append_assoc .., dlyRun_length .., fun n x y hx hy => ?_⟩
  obtain ⟨old, hold, hsum⟩ := dlyRun_recurrence hcleared hx hy
  have hn : n < s.params.d := Nat.lt_of_lt_of_le (List.getElem?_eq_some_iff.mp hx).1 hlen
  rw [if_pos hn] at hold
  cases delayQueue_silent (fun _ => List.eq_of_mem_replicate) hold
  refine ⟨fun hnan => ?_, fun hnan hneg => ?_, fun hneg => ?_⟩
  · rwa [addCore_of_isNaN hnan, isResult_none] at hsum
  · rwa [← posZero, addCore_posZero hnan hneg, isResult_some] at hsum
  · rwa [addCore_zero_posZero (.inr hneg), isResult_some] at hsum

/-- Settles O13: the blocks run as their concatenation, whose recurrence starts from a queue of `+0.0`. -/
theorem delayRecurrenceFromReset : Obligations.DelayRecurrenceFromReset := by
  unfold Obligations.DelayRecurrenceFromReset
  intro s blocks h hline hcur hlen
  obtain ⟨outs, hrun, hlens, hflat⟩ := execAll_process h hlen
  refine ⟨_, outs, hrun, rfl, hlens, by rw [dlyRun_cur h, hcur, Nat.zero_add], fun n x y hx hy => ?_⟩
  rw [hflat] at hy ⊢
  obtain ⟨old, hold, hsum⟩ := dlyRun_recurrence h hx hy
  refine ⟨old, ?_, hsum⟩
  split_ifs at hold ⊢ with hn
  · exact delayQueue_silent hline hold
  · exact hold

end Sys2Proof.Machine
end

section
/-!
PROOF. The accumulator (41_accumulator.md): what an element of the buffer holds after `AccFill`.
-/

namespace Sys2Proof.Machine

/-- Reading after `AccFill`: the samples taken from the fill position on, every other element as before
(41_accumulator.md R121). -/
theorem memRead_accFill {c : Nat} {acc : Acc} (hb : Memory.wf c acc.buf) (hf : acc.fill ≤ c) (s : List F32) (j : Nat) :
    memRead (accFill c acc s).1.buf j =
      if acc.fill ≤ j ∧ j < acc.fill + accRoom c acc s then s[j - acc.fill]? else memRead acc.buf j := by
  obtain ⟨hroom, hfits⟩ := accRoom_le c acc s
  have htaken : (s.take (accRoom c acc s)).length = accRoom c acc s := List.length_take_of_le hroom
  have hbuf : acc.fill + (s.take (accRoom c acc s)).length ≤ acc.buf.length := by
    simp only [Memory.wf] at hb; omega
  rw [accFill_buf, memRead_memWriteRun _ _ _ _ hbuf, htaken]
  refine ite_congr rfl (fun hj => ?_) fun _ => rfl
  exact List.getElem?_take_of_lt (by omega)

/-- Settles O20: `memRead_accFill` inside the run of writes and outside it. -/
theorem accFillCopiesWhatFits : Obligations.AccFillCopiesWhatFits := by
  unfold Obligations.AccFillCopiesWhatFits
  intro c acc xs hb hf
  have hread := memRead_accFill hb hf xs
  refine ⟨fun j hj => ?taken, fun j hj => ?kept, (accFill_keeps_wf hb hf xs).1, accFill_fill c acc xs,
    accFill_rest c acc xs⟩
  case taken =>
    have hin : acc.fill ≤ acc.fill + j ∧ acc.fill + j < acc.fill + accRoom c acc xs :=
      ⟨Nat.le_add_right .., Nat.add_lt_add_left hj _⟩
    exact (hread _).trans (by rw [if_pos hin, Nat.add_sub_cancel_left])
  case kept =>
    have hout : ¬ (acc.fill ≤ j ∧ j < acc.fill + accRoom c acc xs) := by rw [accRoom]; omega
    exact (hread j).trans (if_neg hout)

end Sys2Proof.Machine
end

section
/-!
PROOF. The byte quantizer (44_window_numerics.md R195). The model rounds in units of 2^-149 with natural numbers; here
that is tied to the real number a finite pattern stands for.
-/

namespace Sys2Proof.Machine

theorem realOf_of_signOf_false {x : F32} (h : signOf x = false) : realOf x = (unitsOf x : ℝ) / 2 ^ 149 := by
  simp [realOf, valueOf, h]

theorem realOf_nonpos_of_signOf_true {x : F32} (h : signOf x = true) : realOf x ≤ 0 := by
  have hval : valueOf x ≤ 0 := by simp [valueOf, h]
  exact div_nonpos_of_nonpos_of_nonneg (Int.cast_nonpos.mpr hval) (by positivity)

/-- Rounding units of 2^-149 half up is the floor of the real number plus one half. -/
theorem floor_units_add_half (u : Nat) : ⌊(u : ℝ) / 2 ^ 149 + 1 / 2⌋₊ = (2 * u + 2 ^ 149) / 2 ^ 150 := by
  have hcast : (u : ℝ) / 2 ^ 149 + 1 / 2 = ((2 * u + 2 ^ 149 : Nat) : ℝ) / ((2 ^ 150 : Nat) : ℝ) := by
    push_cast; ring
  rw [hcast, Nat.floor_div_eq_div]

/-- A number below one half rounds to 0. -/
theorem floor_add_half_eq_zero {r : ℝ} (h : r < 1 / 2) : ⌊r + 1 / 2⌋₊ = 0 :=
  Nat.floor_eq_zero.mpr (by linarith)

theorem q8_of_isNaN {t : F32} (h : isNaN t = true) : q8 t = 0 := if_pos h

theorem q8_of_isFinite {t : F32} (h : isFinite t = true) :
    q8 t = if signOf t then 0 else BitVec.ofNat 8 (min 255 ((2 * unitsOf t + 2 ^ 149) / 2 ^ 150)) := by
  have hlt : magBits t < infBits := of_decide_eq_true h
  have hnan : isNaN t = false := decide_eq_false hlt.asymm
  have hinf : isInf t = false := decide_eq_false hlt.ne
  simp only [q8, hnan, hinf, Bool.false_eq_true, if_false]

/-- R195's closed form. It holds for negative values too: their rounded value is at most 0. -/
theorem q8_toNat_of_isFinite {t : F32} (h : isFinite t = true) :
    (q8 t).toNat = min 255 ⌊realOf t + 1 / 2⌋₊ := by
  rw [q8_of_isFinite h]
  cases hs : signOf t with
  | true =>
    have hsmall : realOf t < 1 / 2 := by linarith [realOf_nonpos_of_signOf_true hs]
    rw [floor_add_half_eq_zero hsmall]
    rfl
  | false =>
    rw [realOf_of_signOf_false hs, floor_units_add_half, if_neg Bool.false_ne_true, BitVec.toNat_ofNat]
    exact Nat.mod_eq_of_lt (Nat.lt_succ_of_le (min_le_left ..))

/-- Settles O35: a NaN and the infinities by the definition's branches, the finite values by the closed form. -/
theorem byteQuantizerRoundsAndSaturates : Obligations.ByteQuantizerRoundsAndSaturates := by
  unfold Obligations.ByteQuantizerRoundsAndSaturates
  intro t
  refine ⟨q8_of_isNaN, ?posInf, ?negInf, fun hfin hneg => ?negative, fun hfin _ => q8_toNat_of_isFinite hfin⟩
  case posInf => rintro rfl; decide
  case negInf => rintro rfl; decide
  case negative =>
    apply BitVec.eq_of_toNat_eq
    rw [q8_toNat_of_isFinite hfin, floor_add_half_eq_zero (hneg.trans (by norm_num))]
    rfl

end Sys2Proof.Machine
end

section
/-!
PROOF. Error responses (60_exceptions.md). An error is one word at the response port and nothing else, so each statement
says which check of a meaning fails first and what number its `info` is.
-/

namespace Sys2Proof.Machine

/-! ### The error response as a number -/

/-- The error response to a length, as its status word (60_exceptions.md R222, R223, R226). -/
theorem raise_infoOf (s : State) (e : Status) {n : Nat} (h : n < 2 ^ 24) :
    s.raise e (infoOf n) = { s with resps := s.resps ++ [[statusWord (statusCode e).toNat n]] } := by
  rw [State.raise, responseHeader_infoOf e h]

/-- A rejected transaction's response, as its status word (60_exceptions.md R220, R221). -/
theorem raiseIllegal_eq (s : State) (why : Illegal) :
    s.raiseIllegal why = { s with resps := s.resps ++ [[statusWord 1 (illegalInfo why).toNat]] } := by
  have hinfo : illegalInfo why = infoOf (illegalInfo why).toNat := by simp [infoOf]
  calc s.raiseIllegal why
      = s.raise .illegal (infoOf (illegalInfo why).toNat) := by rw [← hinfo, State.raiseIllegal]
    _ = _ := raise_infoOf s .illegal (illegalInfo why).isLt

/-! ### Lengths of an instance fit `info` -/

theorem n_lt_of_spaInRange {sizes : List Nat} {p : Params} {u : Spa} (h : spaInRange sizes p u) : p.n < 2 ^ 24 := by
  obtain ⟨⟨⟨-, -, hmax, -⟩, -⟩, -⟩ := spaInRange_iff.mp h
  omega

theorem nb_lt_of_dbaInRange {sizes : List Nat} {p : Params} {u : Dba} (h : dbaInRange sizes p u) : p.nb < 2 ^ 24 := by
  obtain ⟨⟨-, hmax, -⟩, -⟩ := dbaInRange_iff.mp h
  omega

/-! ### Which accumulator a block goes to -/

/-- DBA's roles in terms of `FB` (43_double_buffered.md R160). -/
theorem filling_eq (c : Nat) (u : Dba) : filling c u = if u.b.fill = c then u.a else u.b := by
  split_ifs with hb
  · exact (roles_of_b_full hb).2.1
  · exact (roles_of_b_not_full hb).2.1

/-! ### The step on a rejected transaction -/

theorem step_of_decode_error {s : State} {w0 : Word} {rest : List Word} {later : List HostEvent} {why : Illegal}
    (hport : s.cmds = .command w0 rest :: later) (hdecode : decode w0 rest = .error why) :
    step s = .next ({ s with cmds := later }.raiseIllegal why) := by
  simp only [step, hport, runEvent, runTransaction, hdecode]

/-! ### The statements -/

/-- Settles O6: the step is the illegal response, whose `info` is a number for each reason. -/
theorem stepAnswersIllegalTransaction : Obligations.StepAnswersIllegalTransaction := by
  unfold Obligations.StepAnswersIllegalTransaction
  intro s w0 rest later why hport hdecode
  rw [step_of_decode_error hport hdecode, raiseIllegal_eq]
  cases why with
  | unassignedOpcode => rfl
  | reservedBits => rfl
  | wordCount => rfl

/-- Settles O11: the length is the first check of all five commands, and each required length fits `info`. -/
theorem lengthMismatchIsReported : Obligations.LengthMismatchIsReported := by
  unfold Obligations.LengthMismatchIsReported
  refine fun s => ⟨fun lout xs h hlen hne => ?process, fun lout h hne => ?time, fun lout h hne => ?frequency,
    fun lout h hne => ⟨?dbTime, ?dbFrequency⟩⟩
  case process => exact execProcess_next.mpr ⟨h, .inl ⟨hne, (raise_infoOf s .length hlen).symm⟩⟩
  case time => exact execTime_next.mpr ⟨h, .inl ⟨hne, (raise_infoOf s .length (n_lt_of_spaInRange h)).symm⟩⟩
  case frequency =>
    have hhalf : s.params.n / 2 < 2 ^ 24 := (Nat.div_le_self ..).trans_lt (n_lt_of_spaInRange h)
    exact execFrequency_next.mpr ⟨h, .inl ⟨hne, (raise_infoOf s .length hhalf).symm⟩⟩
  case dbTime => exact execDbTime_next.mpr ⟨h, .inl ⟨hne, (raise_infoOf s .length (nb_lt_of_dbaInRange h)).symm⟩⟩
  case dbFrequency =>
    exact execDbFrequency_next.mpr ⟨h, .inl ⟨hne, (raise_infoOf s .length (nb_lt_of_dbaInRange h)).symm⟩⟩

/-- Settles O46: outside state Invalid the size of the block is the next check. -/
theorem dbFeedReportsOversizeBlock : Obligations.DbFeedReportsOversizeBlock := by
  unfold Obligations.DbFeedReportsOversizeBlock
  intro s xs h hlen hvalid hsize
  have hphase : dbaPhase s.params.nb s.dba ≠ .invalid := fun hinvalid => hvalid (dbaPhase_invalid.mp hinvalid)
  have hover : oversize s.params.nb s.dba xs := by rw [oversize, filling_eq]; exact hsize
  exact execDbFeed_next.mpr ⟨h, .inr (.inl ⟨hphase, hover, (raise_infoOf s .tooBig hlen).symm⟩)⟩

end Sys2Proof.Machine
end

section
/-!
PROOF. Encoding (30_encoding.md). Decoding the words of a header and its operands, and encoding the command they
assemble to, undo each other; the rejections are read off the header as a number. With the steps that decode nothing new:
the oldest transaction's execution, and waiting.
-/

namespace Sys2Proof.Machine

/-! ### Decoding and encoding -/

/-- A header with its word count and clear reserved bits decodes to the command of its opcode. -/
theorem decode_header {op : Op} {arg : BitVec 24} {rest : List Word}
    (hcount : rest.length + 1 = expectedWords (formatOf op) arg) (hclear : reservedClear (formatOf op) arg = true) :
    decode (header op arg) rest = .ok (assembleOperands op arg rest) := by
  simp [decode, hcount, hclear]

theorem argIdx_setWidth (idx : Byte) : argIdx (idx.setWidth 24) = idx := by
  apply BitVec.eq_of_toNat_eq
  have := idx.isLt
  rw [argIdx_toNat, BitVec.toNat_setWidth]; omega

/-- The reserved bits of format I on the number `arg` is. -/
theorem argHigh_eq_zero_iff (arg : BitVec 24) : argHigh arg = 0 ↔ arg.toNat / 2 ^ 8 = 0 := by
  rw [← argHigh_toNat]
  exact (BitVec.toNat_inj (y := 0#16)).symm

theorem argHigh_setWidth (idx : Byte) : argHigh (idx.setWidth 24) = 0 := by
  have := idx.isLt
  rw [argHigh_eq_zero_iff, BitVec.toNat_setWidth]; omega

/-- An index field with clear bits above it is the index extended with zeros. -/
theorem setWidth_argIdx {arg : BitVec 24} (h : argHigh arg = 0) : (argIdx arg).setWidth 24 = arg := by
  apply BitVec.eq_of_toNat_eq
  have := arg.isLt
  rw [argHigh_eq_zero_iff] at h
  rw [BitVec.toNat_setWidth, argIdx_toNat]; omega

/-- A block whose length is an `L` field fits that field, and encodes to it. -/
theorem blockLength_of_count {rest : List F32} {arg : BitVec 24} (h : rest.length = arg.toNat) :
    blockFits rest = true ∧ blockLength rest = arg := by
  have := arg.isLt
  refine ⟨decide_eq_true (by omega), BitVec.eq_of_toNat_eq ?_⟩
  rw [blockLength, BitVec.toNat_ofNat]; omega

/-- Encoding what the decoder assembles gives the header and its words back, and the command is well-formed. -/
theorem encode_assembleOperands {op : Op} {arg : BitVec 24} {rest : List Word}
    (hcount : rest.length + 1 = expectedWords (formatOf op) arg) (hclear : reservedClear (formatOf op) arg = true) :
    encode (assembleOperands op arg rest) = header op arg :: rest ∧ (assembleOperands op arg rest).wf = true := by
  have hnil : rest.length + 1 = 1 → rest = [] := fun h => List.length_eq_zero_iff.mp (by omega)
  cases op with
  | process =>
    cases rest with
    | nil => simp only [formatOf, expectedWords, List.length_nil] at hcount; omega
    | cons lout samples =>
      have hlen : samples.length = arg.toNat := by
        simp only [formatOf, expectedWords, List.length_cons] at hcount; omega
      obtain ⟨hfits, hfield⟩ := blockLength_of_count hlen
      exact ⟨by simp [assembleOperands, encode, hfield], hfits⟩
  | feed =>
    obtain ⟨hfits, hfield⟩ := blockLength_of_count (rest := rest) (arg := arg) (by
      simp only [formatOf, expectedWords] at hcount; omega)
    exact ⟨by simp [assembleOperands, encode, hfield], hfits⟩
  | dbFeed =>
    obtain ⟨hfits, hfield⟩ := blockLength_of_count (rest := rest) (arg := arg) (by
      simp only [formatOf, expectedWords] at hcount; omega)
    exact ⟨by simp [assembleOperands, encode, hfield], hfits⟩
  | reset =>
    have harg : arg = 0 := by simpa [formatOf, reservedClear] using hclear
    rw [hnil hcount, harg]
    exact ⟨rfl, rfl⟩
  | changeWindowing =>
    have hhigh : argHigh arg = 0 := by simpa [formatOf, reservedClear] using hclear
    rw [hnil hcount]
    exact ⟨by simp only [assembleOperands, encode, setWidth_argIdx hhigh], rfl⟩
  | time => rw [hnil hcount]; exact ⟨rfl, rfl⟩
  | frequency => rw [hnil hcount]; exact ⟨rfl, rfl⟩
  | dbTime => rw [hnil hcount]; exact ⟨rfl, rfl⟩
  | dbFrequency => rw [hnil hcount]; exact ⟨rfl, rfl⟩

/-- Settles O1: each command's words are a header with its word count and clear reserved bits. -/
theorem decodeOfEncodeIsCanonical : Obligations.DecodeOfEncodeIsCanonical := by
  unfold Obligations.DecodeOfEncodeIsCanonical
  intro i hwf
  cases i with
  | process lout samples =>
    refine ⟨_, _, rfl, decode_header ?_ rfl⟩
    rw [formatOf, expectedWords, blockLength_toNat hwf, List.length_cons]; omega
  | feed samples =>
    refine ⟨_, _, rfl, decode_header ?_ rfl⟩
    rw [formatOf, expectedWords, blockLength_toNat hwf]; omega
  | dbFeed samples =>
    refine ⟨_, _, rfl, decode_header ?_ rfl⟩
    rw [formatOf, expectedWords, blockLength_toNat hwf]; omega
  | changeWindowing idx =>
    refine ⟨_, _, rfl, (decode_header rfl ?_).trans ?_⟩
    · simp [formatOf, reservedClear, argHigh_setWidth]
    · simp only [assembleOperands, argIdx_setWidth, canonical]
  | reset => exact ⟨_, _, rfl, decode_header rfl rfl⟩
  | panic => exact ⟨_, _, rfl, decode_header rfl rfl⟩
  | time lout => exact ⟨_, _, rfl, decode_header rfl rfl⟩
  | frequency lout => exact ⟨_, _, rfl, decode_header rfl rfl⟩
  | dbTime lout => exact ⟨_, _, rfl, decode_header rfl rfl⟩
  | dbFrequency lout => exact ⟨_, _, rfl, decode_header rfl rfl⟩

/-- Settles O2: of the decoder's answers only the last is a command, and that one encodes back. -/
theorem decodedCommandEncodesBack : Obligations.DecodedCommandEncodesBack := by
  unfold Obligations.DecodedCommandEncodesBack
  intro w0 rest i h
  rcases decode_cases w0 rest with ⟨-, hd⟩ | ⟨op, hop, ⟨-, hd⟩ | ⟨hcount, ⟨-, hd⟩ | ⟨hclear, hd⟩⟩⟩ <;>
    rw [hd] at h <;> cases h
  rw [encode_assembleOperands hcount hclear |>.1, header_fields hop]
  exact ⟨rfl, (encode_assembleOperands hcount hclear).2⟩

/-! ### The rejections, on the header as a number -/

/-- The assigned opcodes as numbers (30_encoding.md R82). -/
theorem opOf_eq_none_iff (b : BitVec 8) :
    opOf b = none ↔ b.toNat ∉ [0x01, 0x02, 0x10, 0x11, 0x12, 0x13, 0x20, 0x21, 0x22] := by
  revert b; decide

/-- The word count of R72 on the opcode's number. -/
theorem expectedWords_eq (op : Op) (arg : BitVec 24) :
    expectedWords (formatOf op) arg =
      if (opCode op).toNat = 0x01 then 2 + arg.toNat
      else if (opCode op).toNat = 0x10 ∨ (opCode op).toNat = 0x20 then 1 + arg.toNat else 1 := by
  cases op <;> simp [opCode, formatOf, expectedWords]

/-- The reserved bits of R83 on the opcode's number. -/
theorem reservedClear_eq_false_iff (op : Op) (arg : BitVec 24) :
    reservedClear (formatOf op) arg = false ↔
      ((opCode op).toNat = 0x02 ∧ arg.toNat ≠ 0) ∨ ((opCode op).toNat = 0x13 ∧ arg.toNat / 2 ^ 8 ≠ 0) := by
  have hzero : arg = 0 ↔ arg.toNat = 0 := (BitVec.toNat_inj (y := 0#24)).symm
  cases op with
  | reset => simpa [opCode, formatOf, reservedClear] using not_congr hzero
  | changeWindowing => simpa [opCode, formatOf, reservedClear] using not_congr (argHigh_eq_zero_iff arg)
  | process | feed | time | frequency | dbFeed | dbTime | dbFrequency => simp [opCode, formatOf, reservedClear]

/-- Settles O3: the decoder's four answers, each with the numbers of its header. -/
theorem decodeRejectsInOrder : Obligations.DecodeRejectsInOrder := by
  unfold Obligations.DecodeRejectsInOrder
  intro w0 rest op arg assigned words reserved
  have hassigned : opOf (headerOp w0) = none ↔ ¬ assigned := by
    rw [opOf_eq_none_iff, headerOp_toNat]
  rcases decode_cases w0 rest with ⟨hnone, hd⟩ | ⟨o, hop, hcases⟩
  · have hna := hassigned.mp hnone
    simp [hd, hna]
  · have ha : assigned := not_not.mp fun hna => by rw [hassigned.mpr hna] at hop; cases hop
    have hnum : (opCode o).toNat = op := by rw [← opCode_of_opOf hop, headerOp_toNat]
    have hwords : expectedWords (formatOf o) (headerArg w0) = words := by
      rw [expectedWords_eq, hnum, headerArg_toNat]
    have hreserved := reservedClear_eq_false_iff o (headerArg w0)
    rw [hnum, headerArg_toNat] at hreserved
    rw [hwords] at hcases
    rcases hcases with ⟨hcount, hd⟩ | ⟨hcount, ⟨hclear, hd⟩ | ⟨hclear, hd⟩⟩
    · simp [hd, ha, hcount]
    · have hr : reserved := hreserved.mp hclear
      simp [hd, ha, hcount, hr]
    · have hr : ¬ reserved := fun h => by rw [hreserved.mpr h] at hclear; cases hclear
      simp [hd, ha, hcount, hr]

/-- Settles O4: six rows of the encoding table. -/
theorem wordsOfTheSpecDecode : Obligations.WordsOfTheSpecDecode := by
  unfold Obligations.WordsOfTheSpecDecode
  decide

/-! ### The step on an accepted transaction, and with none -/

theorem step_of_decode_ok {s : State} {w0 : Word} {rest : List Word} {later : List HostEvent} {i : Instr}
    (hport : s.cmds = .command w0 rest :: later) (hdecode : decode w0 rest = .ok i) :
    step s = exec i { s with cmds := later } := by
  simp only [step, hport, runEvent, runTransaction, hdecode]

theorem step_of_no_event {s : State} (h : s.cmds = []) : step s = .next s := by
  simp only [step, h]

/-- Settles O5. -/
theorem stepRunsDecodedCommand : Obligations.StepRunsDecodedCommand := by
  unfold Obligations.StepRunsDecodedCommand
  exact fun s w0 rest later i => step_of_decode_ok

/-- Settles O7. -/
theorem stepWaitsWithoutEvent : Obligations.StepWaitsWithoutEvent := by
  unfold Obligations.StepWaitsWithoutEvent
  exact fun s => step_of_no_event

end Sys2Proof.Machine
end

section
/-!
PROOF. A command as an effect on the unit it addresses (20_memory.md R58, R61): whether it completes, what it leaves in
its unit and what it answers depend on that unit and the parameters alone. From this one reading of `exec` follow what
commands leave unchanged, that errors change nothing, that accessors may be repeated, and that commands of different
units can be exchanged.
-/

namespace Sys2Proof.Machine

/-! ### The effect on a unit, and the response -/

/-- What a command of DLY leaves in its unit, and its response (40_delay.md). -/
def dlyEffect (p : Params) : Instr → Dly → Dly × List Word
  | .process lout xs, u =>
    if lout.toNat ≠ xs.length then (u, [responseHeader .length (infoOf xs.length)])
    else ((dlyRun p xs u).2, responseHeader .ok (infoOf xs.length) :: (dlyRun p xs u).1)
  | .reset, u => (dlyClear u, [responseHeader .ok 0])
  | .panic, u => (dlyClear u, [responseHeader .ok 0])
  | _, u => (u, [])

/-- What a command of SPA leaves in its unit, and its response (42_analyzer.md). -/
def spaEffect (p : Params) : Instr → Spa → Spa × List Word
  | .feed xs, u => ((feedRun p u xs).1, [responseHeader .ok (infoFlag (feedRun p u xs).2)])
  | .time lout, u =>
    (u, if lout.toNat ≠ p.n then [responseHeader .length (infoOf p.n)]
      else responseHeader .ok (infoOf p.n) :: u.tsnap.map byteWord)
  | .frequency lout, u =>
    (u, if lout.toNat ≠ p.n / 2 then [responseHeader .length (infoOf (p.n / 2))]
      else responseHeader .ok (infoOf (p.n / 2)) :: u.fsnap.map byteWord)
  | .changeWindowing idx, u => ({ u with win := idx }, [responseHeader .ok 0])
  | _, u => (u, [])

/-- What a command of DBA leaves in its unit, and its response (43_double_buffered.md). -/
def dbaEffect (p : Params) : Instr → Dba → Dba × List Word
  | .dbFeed xs, u =>
    if dbaPhase p.nb u = .invalid then (u, [responseHeader .invariant 0])
    else if oversize p.nb u xs then (u, [responseHeader .tooBig (infoOf xs.length)])
    else ((dbFeedAccepted p.nb xs u).2, [responseHeader .ok (infoFlag (dbFeedAccepted p.nb xs u).1)])
  | .dbTime lout, u =>
    (u, if lout.toNat ≠ p.nb then [responseHeader .length (infoOf p.nb)]
      else if dbaPhase p.nb u = .invalid then [responseHeader .invariant 0]
      else responseHeader .ok (infoFlag (frameExists (dbaPhase p.nb u))) :: dbTimeSource p.nb u)
  | .dbFrequency lout, u =>
    (u, if lout.toNat ≠ p.nb then [responseHeader .length (infoOf p.nb)]
      else responseHeader .ok (infoOf p.nb) :: u.dfsnap)
  | _, u => (u, [])

/-- The unit that a command addresses holds a state of the block. -/
def ready (i : Instr) (s : State) : Bool :=
  match agentOf i with
  | .dly => dlyInRange s.params s.dly
  | .spa => spaInRange s.fftSizes s.params s.spa
  | .dba => dbaInRange s.fftSizes s.params s.dba

/-- The state with a command's effect on its unit. -/
def affected (i : Instr) (s : State) : State :=
  match agentOf i with
  | .dly => { s with dly := (dlyEffect s.params i s.dly).1 }
  | .spa => { s with spa := (spaEffect s.params i s.spa).1 }
  | .dba => { s with dba := (dbaEffect s.params i s.dba).1 }

/-- A command's response. -/
def answer (i : Instr) (s : State) : List Word :=
  match agentOf i with
  | .dly => (dlyEffect s.params i s.dly).2
  | .spa => (spaEffect s.params i s.spa).2
  | .dba => (dbaEffect s.params i s.dba).2

/-- The fault of a unit that holds no state of the block (20_memory.md R53; log 10). -/
def faultOf : Agent → Fault
  | .dly => .dlyNotAState
  | .spa => .spaNotAState
  | .dba => .dbaNotAState

/-- Every command is its effect on its unit with its response, or its unit's fault. -/
theorem exec_eq (i : Instr) (s : State) :
    exec i s = if ready i s then .next { affected i s with resps := s.resps ++ [answer i s] }
      else .fault (faultOf (agentOf i)) := by
  cases i with
  | process lout xs =>
    by_cases hlen : lout.toNat = xs.length <;>
      simp [exec, execProcess, ready, affected, answer, agentOf, faultOf, dlyEffect, hlen, State.raise, State.respond]
  | reset => rfl
  | panic => rfl
  | feed xs => rfl
  | time lout =>
    by_cases hlen : lout.toNat = s.params.n <;>
      simp [exec, execTime, ready, affected, answer, agentOf, faultOf, spaEffect, hlen, State.raise, State.respond]
  | frequency lout =>
    by_cases hlen : lout.toNat = s.params.n / 2 <;>
      simp [exec, execFrequency, ready, affected, answer, agentOf, faultOf, spaEffect, hlen, State.raise, State.respond]
  | changeWindowing idx => rfl
  | dbFeed xs =>
    by_cases hinv : dbaPhase s.params.nb s.dba = .invalid <;> by_cases hover : oversize s.params.nb s.dba xs <;>
      simp [exec, execDbFeed, ready, affected, answer, agentOf, faultOf, dbaEffect, hinv, hover, State.raise,
        State.respond]
  | dbTime lout =>
    by_cases hlen : lout.toNat = s.params.nb <;> by_cases hinv : dbaPhase s.params.nb s.dba = .invalid <;>
      simp [exec, execDbTime, ready, affected, answer, agentOf, faultOf, dbaEffect, hlen, hinv, State.raise,
        State.respond]
  | dbFrequency lout =>
    by_cases hlen : lout.toNat = s.params.nb <;>
      simp [exec, execDbFrequency, ready, affected, answer, agentOf, faultOf, dbaEffect, hlen, State.raise,
        State.respond]

theorem exec_next_iff {i : Instr} {s t : State} :
    exec i s = .next t ↔ ready i s = true ∧ t = { affected i s with resps := s.resps ++ [answer i s] } := by
  rw [exec_eq]
  split_ifs with h
  · simp [h, eq_comm]
  · simp [h]

/-! ### What a command leaves unchanged -/

/-- The parameters, the engine's sizes, the counter of resets and the two ports are no unit's. -/
theorem affected_frame (i : Instr) (s : State) :
    (affected i s).params = s.params ∧ (affected i s).fftSizes = s.fftSizes ∧ (affected i s).resets = s.resets ∧
    (affected i s).cmds = s.cmds ∧ (affected i s).resps = s.resps := by
  unfold affected
  cases agentOf i <;> exact ⟨rfl, rfl, rfl, rfl, rfl⟩

theorem affected_dly {i : Instr} (h : agentOf i ≠ .dly) (s : State) : (affected i s).dly = s.dly := by
  unfold affected
  cases ha : agentOf i with
  | dly => exact absurd ha h
  | spa => rfl
  | dba => rfl

theorem affected_spa {i : Instr} (h : agentOf i ≠ .spa) (s : State) : (affected i s).spa = s.spa := by
  unfold affected
  cases ha : agentOf i with
  | dly => rfl
  | spa => exact absurd ha h
  | dba => rfl

theorem affected_dba {i : Instr} (h : agentOf i ≠ .dba) (s : State) : (affected i s).dba = s.dba := by
  unfold affected
  cases ha : agentOf i with
  | dly => rfl
  | spa => rfl
  | dba => exact absurd ha h

/-- The frame loop writes neither the window index nor the window table (42_analyzer.md R149). -/
theorem feedLoop_window (p : Params) (fuel : Nat) (u : Spa) (rem : List F32) (b : Bool) :
    (feedLoop p fuel u rem b).1.win = u.win ∧ (feedLoop p fuel u rem b).1.wlut = u.wlut := by
  induction fuel generalizing u rem b with
  | zero => exact ⟨rfl, rfl⟩
  | succ fuel ih =>
    simp only [feedLoop]
    split_ifs
    · exact ⟨rfl, rfl⟩
    · exact ih _ _ _
    · exact ⟨rfl, rfl⟩

theorem spaEffect_wlut (p : Params) (i : Instr) (u : Spa) : (spaEffect p i u).1.wlut = u.wlut := by
  cases i with
  | feed xs => exact (feedLoop_window p _ u xs false).2
  | process | reset | panic | time | frequency | changeWindowing | dbFeed | dbTime | dbFrequency => rfl

theorem spaEffect_win {i : Instr} (h : ∀ idx, i ≠ .changeWindowing idx) (p : Params) (u : Spa) :
    (spaEffect p i u).1.win = u.win := by
  cases i with
  | feed xs => exact (feedLoop_window p _ u xs false).1
  | changeWindowing idx => exact absurd rfl (h idx)
  | process | reset | panic | time | frequency | dbFeed | dbTime | dbFrequency => rfl

/-- The window table is read-only. -/
theorem affected_wlut (i : Instr) (s : State) : (affected i s).spa.wlut = s.spa.wlut := by
  by_cases ha : agentOf i = .spa
  · simp only [affected, ha, spaEffect_wlut]
  · rw [affected_spa ha]

theorem affected_win {i : Instr} (h : ∀ idx, i ≠ .changeWindowing idx) (s : State) :
    (affected i s).spa.win = s.spa.win := by
  by_cases ha : agentOf i = .spa
  · simp only [affected, ha, spaEffect_win h]
  · rw [affected_spa ha]

/-! ### Responses -/

theorem responseHeader_status (e : Status) (info : BitVec 24) :
    (responseHeader e info).toNat / 2 ^ 24 = (statusCode e).toNat := by
  have := info.isLt
  rw [responseHeader, BitVec.toNat_append, ← Nat.shiftLeft_add_eq_or_of_lt this, Nat.shiftLeft_eq]; omega

theorem statusCode_le (e : Status) : (statusCode e).toNat ≤ 4 := by cases e <;> decide

theorem statusCode_eq_zero_iff (e : Status) : (statusCode e).toNat = 0 ↔ e = .ok := by cases e <;> decide

/-- A response to which an error code belongs is one word, and its unit is as it was. -/
def errorsKeep {α : Type} (u : α) (r : α × List Word) : Prop :=
  ∃ e info payload, r.2 = responseHeader e info :: payload ∧ (e ≠ .ok → payload = [] ∧ r.1 = u)

theorem errorsKeep_ok {α : Type} (u v : α) (info : BitVec 24) (payload : List Word) :
    errorsKeep u (v, responseHeader .ok info :: payload) := ⟨.ok, info, payload, rfl, fun h => absurd rfl h⟩

theorem errorsKeep_error {α : Type} (u : α) (e : Status) (info : BitVec 24) :
    errorsKeep u (u, [responseHeader e info]) := ⟨e, info, [], rfl, fun _ => ⟨rfl, rfl⟩⟩

theorem dlyEffect_errorsKeep (p : Params) {i : Instr} (h : agentOf i = .dly) (u : Dly) :
    errorsKeep u (dlyEffect p i u) := by
  cases i with
  | process lout xs =>
    simp only [dlyEffect]
    split_ifs
    · exact errorsKeep_error ..
    · exact errorsKeep_ok ..
  | reset => exact errorsKeep_ok ..
  | panic => exact errorsKeep_ok ..
  | feed | time | frequency | changeWindowing | dbFeed | dbTime | dbFrequency => cases h

theorem spaEffect_errorsKeep (p : Params) {i : Instr} (h : agentOf i = .spa) (u : Spa) :
    errorsKeep u (spaEffect p i u) := by
  cases i with
  | feed xs => exact errorsKeep_ok ..
  | changeWindowing idx => exact errorsKeep_ok ..
  | time | frequency =>
    simp only [spaEffect]
    split_ifs
    · exact errorsKeep_error ..
    · exact errorsKeep_ok ..
  | process | reset | panic | dbFeed | dbTime | dbFrequency => cases h

theorem dbaEffect_errorsKeep (p : Params) {i : Instr} (h : agentOf i = .dba) (u : Dba) :
    errorsKeep u (dbaEffect p i u) := by
  cases i with
  | dbFeed | dbTime =>
    simp only [dbaEffect]
    split_ifs
    · exact errorsKeep_error ..
    · exact errorsKeep_error ..
    · exact errorsKeep_ok ..
  | dbFrequency lout =>
    simp only [dbaEffect]
    split_ifs
    · exact errorsKeep_error ..
    · exact errorsKeep_ok ..
  | process | reset | panic | feed | time | frequency | changeWindowing => cases h

/-- The same of every command, on the whole state (60_exceptions.md R226). -/
theorem answer_errorsKeep (i : Instr) (s : State) : errorsKeep s (affected i s, answer i s) := by
  cases ha : agentOf i with
  | dly =>
    obtain ⟨e, info, payload, hr, hkeep⟩ := dlyEffect_errorsKeep s.params ha s.dly
    exact ⟨e, info, payload, by simp only [answer, ha, hr], fun he =>
      ⟨(hkeep he).1, by simp only [affected, ha, (hkeep he).2]⟩⟩
  | spa =>
    obtain ⟨e, info, payload, hr, hkeep⟩ := spaEffect_errorsKeep s.params ha s.spa
    exact ⟨e, info, payload, by simp only [answer, ha, hr], fun he =>
      ⟨(hkeep he).1, by simp only [affected, ha, (hkeep he).2]⟩⟩
  | dba =>
    obtain ⟨e, info, payload, hr, hkeep⟩ := dbaEffect_errorsKeep s.params ha s.dba
    exact ⟨e, info, payload, by simp only [answer, ha, hr], fun he =>
      ⟨(hkeep he).1, by simp only [affected, ha, (hkeep he).2]⟩⟩

/-! ### The statements -/

/-- Settles O54: a command completes exactly where it is ready. -/
theorem commandsStopOnlyOutsideTheRanges : Obligations.CommandsStopOnlyOutsideTheRanges := by
  unfold Obligations.CommandsStopOnlyOutsideTheRanges
  intro i s
  have hnext : (∃ t, exec i s = .next t) ↔ ready i s = true :=
    ⟨fun ⟨t, h⟩ => (exec_next_iff.mp h).1, fun h => ⟨_, exec_next_iff.mpr ⟨h, rfl⟩⟩⟩
  have hstop : ready i s = false → exec i s = .fault (faultOf (agentOf i)) := fun h => by
    rw [exec_eq, h, if_neg Bool.false_ne_true]
  unfold ready at hnext hstop
  refine ⟨fun ha => ?_, fun ha => ?_, fun ha => ?_⟩ <;> rw [ha] at hnext hstop <;> exact ⟨hnext, hstop⟩

/-- Settles O55: the response's header has the status's code, and an error keeps the unit. -/
theorem errorsChangeNothing : Obligations.ErrorsChangeNothing := by
  unfold Obligations.ErrorsChangeNothing
  intro i s t h
  obtain ⟨-, rfl⟩ := exec_next_iff.mp h
  obtain ⟨e, info, payload, hr, hkeep⟩ := answer_errorsKeep i s
  refine ⟨_, payload, congrArg (fun r => s.resps ++ [r]) hr, ?_, fun hne => ?_⟩
  · rw [responseHeader_status]; exact statusCode_le e
  · rw [responseHeader_status, ne_eq, statusCode_eq_zero_iff] at hne
    have hanswer : answer i s = responseHeader e info :: payload := hr
    obtain ⟨hnil, hsame⟩ : payload = [] ∧ affected i s = s := hkeep hne
    exact ⟨hnil, by rw [hsame, hanswer, hnil]⟩

/-- Settles O56: the frame of a command's effect. -/
theorem commandsChangeOnlyTheirUnit : Obligations.CommandsChangeOnlyTheirUnit := by
  unfold Obligations.CommandsChangeOnlyTheirUnit
  intro i s t h
  obtain ⟨-, rfl⟩ := exec_next_iff.mp h
  obtain ⟨hparams, hsizes, hresets, hcmds, -⟩ := affected_frame i s
  exact ⟨hparams, hsizes, hresets, hcmds, affected_wlut i s, fun hi => affected_win hi s,
    fun hi => affected_dly hi s, fun hi => affected_spa hi s, fun hi => affected_dba hi s⟩

/-- An accessor leaves its unit as it was. -/
theorem affected_accessor {i : Instr}
    (h : ∃ lout, i = .time lout ∨ i = .frequency lout ∨ i = .dbTime lout ∨ i = .dbFrequency lout) (s : State) :
    affected i s = s := by
  obtain ⟨lout, rfl | rfl | rfl | rfl⟩ := h <;> rfl

/-- Neither what a command needs nor what it answers depends on the responses given before. -/
theorem answer_of_resps (i : Instr) (s : State) (rs : List (List Word)) :
    ready i { s with resps := rs } = ready i s ∧ answer i { s with resps := rs } = answer i s ∧
    affected i { s with resps := rs } = { affected i s with resps := rs } := by
  unfold ready answer affected
  cases agentOf i <;> exact ⟨rfl, rfl, rfl⟩

/-- Settles O57: an accessor changes nothing but the responses, which no command reads. -/
theorem accessorsChangeNothing : Obligations.AccessorsChangeNothing := by
  unfold Obligations.AccessorsChangeNothing
  intro i s t hi h
  obtain ⟨hready, rfl⟩ := exec_next_iff.mp h
  rw [affected_accessor hi]
  obtain ⟨hready', hanswer, -⟩ := answer_of_resps i s (s.resps ++ [answer i s])
  refine ⟨answer i s, rfl, exec_next_iff.mpr ⟨hready'.trans hready, ?_⟩⟩
  rw [affected_accessor hi, hanswer]

/-- A command does not see the effect of a command to another unit. -/
theorem answer_affected {i j : Instr} (h : agentOf i ≠ agentOf j) (s : State) :
    ready j (affected i s) = ready j s ∧ answer j (affected i s) = answer j s := by
  obtain ⟨hparams, hsizes, -⟩ := affected_frame i s
  cases hj : agentOf j with
  | dly => simp only [ready, answer, hj, hparams, affected_dly (hj ▸ h), and_self]
  | spa => simp only [ready, answer, hj, hparams, hsizes, affected_spa (hj ▸ h), and_self]
  | dba => simp only [ready, answer, hj, hparams, hsizes, affected_dba (hj ▸ h), and_self]

/-- Effects on different units can be exchanged. -/
theorem affected_comm {i j : Instr} (h : agentOf i ≠ agentOf j) (s : State) :
    affected j (affected i s) = affected i (affected j s) := by
  unfold affected
  cases hi : agentOf i <;> cases hj : agentOf j <;> simp_all

/-- Settles O58: either order has the two effects and the two answers of the state before. -/
theorem commandsOfDifferentUnitsCommute : Obligations.CommandsOfDifferentUnitsCommute := by
  unfold Obligations.CommandsOfDifferentUnitsCommute
  intro i j s s1 s2 hne hi hj
  obtain ⟨hreadyi, rfl⟩ := exec_next_iff.mp hi
  obtain ⟨hreadyj, rfl⟩ := exec_next_iff.mp hj
  obtain ⟨rj, aj, fj⟩ := answer_of_resps j (affected i s) (s.resps ++ [answer i s])
  obtain ⟨ri, ai, fi⟩ := answer_of_resps i (affected j s) (s.resps ++ [answer j s])
  obtain ⟨rj', aj'⟩ := answer_affected hne s
  obtain ⟨ri', ai'⟩ := answer_affected hne.symm s
  refine ⟨answer i s, answer j s, _, _, exec_next_iff.mpr ⟨?_, rfl⟩, exec_next_iff.mpr ⟨?_, rfl⟩, rfl, ?_, rfl, ?_, ?_⟩
  · rwa [rj, rj'] at hreadyj
  · rw [ri, ri', hreadyi]
  · simp [aj, aj']
  · simp [ai, ai']
  · simp only [fi, fj, affected_comm hne]

end Sys2Proof.Machine
end

section
/-!
PROOF. The commands that copy or write a few elements: RESET and PANIC, TIME, FREQUENCY, CHANGE_WINDOWING, DB_TIME and
DB_FREQUENCY, and DBA in state Invalid.
-/

namespace Sys2Proof.Machine

/-! ### Response words -/

theorem byteWord_eq : byteWord = fun b => BitVec.ofNat 32 b.toNat := by
  funext b
  apply BitVec.eq_of_toNat_eq
  rw [byteWord, BitVec.toNat_setWidth, BitVec.toNat_ofNat]

/-- A completed command's header with a length, as its status word (30_encoding.md R81). -/
theorem responseHeader_ok_infoOf {n : Nat} (h : n < 2 ^ 24) : responseHeader .ok (infoOf n) = statusWord 0 n :=
  responseHeader_infoOf .ok h

theorem responseHeader_length_infoOf {n : Nat} (h : n < 2 ^ 24) : responseHeader .length (infoOf n) = statusWord 2 n :=
  responseHeader_infoOf .length h

theorem responseHeader_invariant : responseHeader .invariant 0 = statusWord 4 0 := by decide

/-! ### The commands of DLY and SPA -/

/-- Settles O14: PANIC is RESET, and RESET leaves DLY as hardware reset does. -/
theorem resetClearsOnlyTheDelayLine : Obligations.ResetClearsOnlyTheDelayLine := by
  unfold Obligations.ResetClearsOnlyTheDelayLine
  intro s h i hi
  rcases List.mem_pair.mp hi with rfl | rfl
  · exact exec_reset h
  · exact (exec_panic s).trans (exec_reset h)

/-- Settles O26. -/
theorem timeCopiesTheSnapshot : Obligations.TimeCopiesTheSnapshot := by
  unfold Obligations.TimeCopiesTheSnapshot
  intro s lout h
  have hn := n_lt_of_spaInRange h
  refine exec_next_iff.mpr ⟨h, ?_⟩
  simp only [affected, answer, agentOf, spaEffect, responseHeader_length_infoOf hn, responseHeader_ok_infoOf hn,
    byteWord_eq]

/-- Settles O27. -/
theorem frequencyCopiesTheSnapshot : Obligations.FrequencyCopiesTheSnapshot := by
  unfold Obligations.FrequencyCopiesTheSnapshot
  intro s lout h
  have hn : s.params.n / 2 < 2 ^ 24 := (Nat.div_le_self ..).trans_lt (n_lt_of_spaInRange h)
  refine exec_next_iff.mpr ⟨h, ?_⟩
  simp only [affected, answer, agentOf, spaEffect, responseHeader_length_infoOf hn, responseHeader_ok_infoOf hn,
    byteWord_eq]

/-- Settles O28. -/
theorem changeWindowingWritesOnlyTheIndex : Obligations.ChangeWindowingWritesOnlyTheIndex := by
  unfold Obligations.ChangeWindowingWritesOnlyTheIndex
  intro s idx h
  have hstatus : responseHeader .ok 0 = 0x00000000#32 := by decide
  refine exec_next_iff.mpr ⟨h, ?_⟩
  simp only [affected, answer, agentOf, spaEffect, hstatus]

/-- Settles O29: 256 indices. -/
theorem windowIndexSelectsKind : Obligations.WindowIndexSelectsKind := by
  unfold Obligations.WindowIndexSelectsKind
  decide

/-! ### DBA's accessors and the state Invalid -/

/-- Settles O50. -/
theorem dbFrequencyCopiesTheSnapshot : Obligations.DbFrequencyCopiesTheSnapshot := by
  unfold Obligations.DbFrequencyCopiesTheSnapshot
  intro s lout h
  have hn := nb_lt_of_dbaInRange h
  refine exec_next_iff.mpr ⟨h, ?_⟩
  simp only [affected, answer, agentOf, dbaEffect, responseHeader_length_infoOf hn, responseHeader_ok_infoOf hn]

/-- The samples DB_TIME copies out, in terms of `FB` (43_double_buffered.md R160, R165). -/
theorem dbTimeSource_eq (c : Nat) (u : Dba) : dbTimeSource c u = if u.b.fill = c then u.b.buf else u.a.buf := by
  simp only [dbTimeSource, completed, fillsA, accIsFull, decide_eq_true_eq, apply_ite Acc.buf]

/-- A completed frame exists exactly where one accumulator is full and the other is not (10_state.md R38). -/
theorem frameExists_eq (c : Nat) (u : Dba) :
    frameExists (dbaPhase c u) = decide (u.a.fill = c ∧ u.b.fill ≠ c ∨ u.a.fill ≠ c ∧ u.b.fill = c) := by
  by_cases ha : u.a.fill = c <;> by_cases hb : u.b.fill = c <;> simp [dbaPhase, accIsFull, frameExists, ha, hb]

/-- Settles O49: the checks of DB_TIME in their order; the payload in state Empty is part of DBA's invariant. -/
theorem dbTimeCopiesTheCompletedFrame : Obligations.DbTimeCopiesTheCompletedFrame := by
  unfold Obligations.DbTimeCopiesTheCompletedFrame
  intro s lout h nb
  refine ⟨exec_next_iff.mpr ⟨h, ?_⟩, fun hinv ha hb => ?_⟩
  · simp only [affected, answer, agentOf, dbaEffect, responseHeader_length_infoOf (nb_lt_of_dbaInRange h),
      responseHeader_invariant, responseHeader_infoFlag, dbaPhase_invalid, frameExists_eq, dbTimeSource_eq]
    by_cases ha : s.dba.a.fill = s.params.nb <;> by_cases hb : s.dba.b.fill = s.params.nb <;> simp [nb, ha, hb]
  · obtain ⟨-, -, hempty⟩ := hinv
    obtain ⟨-, ⟨hwf, -⟩, -⟩ := dbaInRange_iff.mp h
    exact List.eq_replicate_iff.mpr ⟨hwf, (hempty (dbaPhase_empty.mpr ⟨ha, hb⟩)).2⟩

/-- In state Invalid no command changes DBA (43_double_buffered.md R164). -/
theorem dbaEffect_of_invalid {p : Params} {u : Dba} (h : dbaPhase p.nb u = .invalid) (i : Instr) :
    (dbaEffect p i u).1 = u := by
  cases i with
  | dbFeed xs => simp only [dbaEffect, h, if_true]
  | process | reset | panic | feed | time | frequency | changeWindowing | dbTime | dbFrequency => rfl

/-- Settles O47: in state Invalid both commands take the branch that reports it. -/
theorem invalidStateIsReported : Obligations.InvalidStateIsReported := by
  unfold Obligations.InvalidStateIsReported
  intro s xs lout h ha hb hlout
  have hphase : dbaPhase s.params.nb s.dba = .invalid := dbaPhase_invalid.mpr ⟨ha, hb⟩
  exact ⟨execDbFeed_next.mpr ⟨h, .inl ⟨hphase, rfl⟩⟩, execDbTime_next.mpr ⟨h, .inr (.inl ⟨hlout, hphase, rfl⟩)⟩⟩

/-- Settles O48: a command to another unit leaves DBA alone, and one to DBA has no effect in state Invalid. -/
theorem invalidStateIsNeverLeft : Obligations.InvalidStateIsNeverLeft := by
  unfold Obligations.InvalidStateIsNeverLeft
  intro i s t ha hb h
  obtain ⟨-, rfl⟩ := exec_next_iff.mp h
  obtain ⟨hparams, -⟩ := affected_frame i s
  refine ⟨?_, hparams⟩
  by_cases hi : agentOf i = .dba
  · simp only [affected, hi, dbaEffect_of_invalid (dbaPhase_invalid.mpr ⟨ha, hb⟩)]
  · exact affected_dba hi s

end Sys2Proof.Machine
end

section
/-!
PROOF. Steps (20_memory.md R58, R59, 70_reset_and_hazards.md R250 to R252): what a step can do, hardware reset, and the
invariants of 10_state.md R41, which every step keeps.
-/

namespace Sys2Proof.Machine

/-! ### What a step can do -/

theorem step_of_hreset {s : State} {p : Params} {later : List HostEvent} (hport : s.cmds = .hreset p :: later) :
    step s = if paramsLegal s.fftSizes p then .next ({ s with cmds := later }.hardwareReset p)
      else .refused .illegalInstance := by
  simp only [step, hport, runEvent, runHardwareReset]

/-- Everything a step that gives a next state can be: waiting, a command, a rejected transaction, a hardware reset. -/
theorem step_cases {s t : State} (h : step s = .next t) :
    (s.cmds = [] ∧ t = s) ∨
    ∃ e later, s.cmds = e :: later ∧
      ((∃ w0 rest i, e = .command w0 rest ∧ decode w0 rest = .ok i ∧ exec i { s with cmds := later } = .next t) ∨
       (∃ w0 rest why, e = .command w0 rest ∧ decode w0 rest = .error why ∧
         t = { s with cmds := later }.raiseIllegal why) ∨
       (∃ p, e = .hreset p ∧ paramsLegal s.fftSizes p = true ∧ t = { s with cmds := later }.hardwareReset p)) := by
  cases hport : s.cmds with
  | nil => rw [step_of_no_event hport] at h; cases h; exact .inl ⟨rfl, rfl⟩
  | cons e later =>
    refine .inr ⟨e, later, rfl, ?_⟩
    cases e with
    | command w0 rest =>
      cases hd : decode w0 rest with
      | ok i => rw [step_of_decode_ok hport hd] at h; exact .inl ⟨w0, rest, i, rfl, hd, h⟩
      | error why =>
        rw [step_of_decode_error hport hd] at h; cases h
        exact .inr (.inl ⟨w0, rest, why, rfl, hd, rfl⟩)
    | hreset p =>
      rw [step_of_hreset hport] at h
      split_ifs at h with hlegal
      cases h
      exact .inr (.inr ⟨p, rfl, hlegal, rfl⟩)

/-! ### Hardware reset -/

/-- Settles O8: the units' reset values. -/
theorem hardwareResetGivesResetValues : Obligations.HardwareResetGivesResetValues := by
  unfold Obligations.HardwareResetGivesResetValues
  intro s p later hport hlegal
  refine ⟨_, (step_of_hreset hport).trans (if_pos hlegal), rfl, rfl, rfl, rfl, rfl, rfl, rfl, rfl, ?_, ?_, rfl, rfl, rfl,
    rfl, rfl, rfl, ?_, ?_, rfl⟩ <;>
    exact workAtReset_length ..

theorem realOf_lt_iff (x y : F32) : realOf x < realOf y ↔ valueOf x < valueOf y := by
  rw [realOf, realOf, div_lt_div_iff_of_pos_right (by positivity), Int.cast_lt]

theorem realOf_le_iff (x y : F32) : realOf x ≤ realOf y ↔ valueOf x ≤ valueOf y := by
  rw [realOf, realOf, div_le_div_iff_of_pos_right (by positivity), Int.cast_le]

theorem realOf_nonneg_iff (x : F32) : 0 ≤ realOf x ↔ 0 ≤ valueOf x := by
  rw [realOf, le_div_iff₀ (by positivity), zero_mul, Int.cast_nonneg_iff]

theorem realOf_one32 : realOf one32 = 1 := by
  rw [realOf, show valueOf one32 = 2 ^ 149 by decide]; norm_num

/-- The legal values of the parameters, in real numbers (00_scope.md R7 to R12). -/
theorem paramsLegal_iff_real {sizes : List Nat} {p : Params} :
    paramsLegal sizes p = true ↔
      (1 ≤ p.d ∧ p.d ≤ 16777215) ∧ (p.n % 2 = 0 ∧ 2 ≤ p.n ∧ p.n ≤ 16777214 ∧ p.n ∈ sizes) ∧
      (1 ≤ p.nb ∧ p.nb ≤ 8388608 ∧ p.nb ∈ sizes) ∧
      (isFinite p.minDb = true ∧ isFinite p.maxDb = true ∧ realOf p.minDb < realOf p.maxDb) ∧
      (isFinite p.alpha = true ∧ 0 ≤ realOf p.alpha ∧ realOf p.alpha ≤ 1) := by
  have hone : realOf p.alpha ≤ 1 ↔ valueOf p.alpha ≤ valueOf one32 := by rw [← realOf_le_iff, realOf_one32]
  rw [paramsLegal_iff, realOf_lt_iff, realOf_nonneg_iff, hone]
  simp only [dlyParamsLegal, spaParamsLegal, dbaParamsLegal]
  norm_num
  tauto

/-- Settles O9. -/
theorem illegalInstanceIsRefused : Obligations.IllegalInstanceIsRefused := by
  unfold Obligations.IllegalInstanceIsRefused
  intro s p later hport legal
  have hlegal : paramsLegal s.fftSizes p = true ↔ legal := paramsLegal_iff_real
  refine ⟨fun hillegal => ?_, fun hl => ⟨{ s with cmds := later }.hardwareReset p, ?_, rfl⟩⟩
  · rw [step_of_hreset hport, if_neg (mt hlegal.mp hillegal)]
  · exact (step_of_hreset hport).trans (if_pos (hlegal.mpr hl))

/-! ### The invariants -/

theorem dlyEffect_keeps_inv {p : Params} {u : Dly} (h : dlyInv p u) (i : Instr) : dlyInv p (dlyEffect p i u).1 := by
  cases i with
  | process lout xs =>
    simp only [dlyEffect]
    split_ifs
    · exact h
    · exact dlyRun_keeps_inRange h xs
  | reset => exact dlyClear_keeps_inRange h
  | panic => exact dlyClear_keeps_inRange h
  | feed | time | frequency | changeWindowing | dbFeed | dbTime | dbFrequency => exact h

theorem spaEffect_keeps_inv {sizes : List Nat} {p : Params} {u : Spa} (h : spaInv sizes p u) (i : Instr) :
    spaInv sizes p (spaEffect p i u).1 := by
  cases i with
  | feed xs =>
    obtain ⟨hrange, hroom, -, -⟩ := feedRun_keeps xs h.1 h.2
    exact ⟨hrange, hroom⟩
  | changeWindowing idx => exact ⟨spaInRange_iff.mpr (spaInRange_iff.mp h.1), h.2⟩
  | process | reset | panic | time | frequency | dbFeed | dbTime | dbFrequency => exact h

theorem dbaEffect_keeps_inv {sizes : List Nat} {p : Params} {u : Dba} (h : dbaInv sizes p u) (i : Instr) :
    dbaInv sizes p (dbaEffect p i u).1 := by
  cases i with
  | dbFeed xs =>
    simp only [dbaEffect]
    split_ifs with hinvalid hover
    · exact h
    · exact h
    · exact dbFeedAccepted_keeps_dbaInv h xs hover
  | process | reset | panic | feed | time | frequency | changeWindowing | dbTime | dbFrequency => exact h

/-- Every command keeps the invariants, whether it completes or not. -/
theorem affected_keeps_inv {s : State} (h : s.inv) (i : Instr) : (affected i s).inv := by
  obtain ⟨hdly, hspa, hdba⟩ := h
  unfold affected
  cases agentOf i with
  | dly => exact ⟨dlyEffect_keeps_inv hdly i, hspa, hdba⟩
  | spa => exact ⟨hdly, spaEffect_keeps_inv hspa i, hdba⟩
  | dba => exact ⟨hdly, hspa, dbaEffect_keeps_inv hdba i⟩

/-- DBA as hardware reset leaves it meets its invariant: both accumulators are empty and silent. -/
theorem dbaAtReset_inv {sizes : List Nat} {p : Params} (h : dbaParamsLegal sizes p) (k draws : Nat) :
    dbaInv sizes p (dbaAtReset p k draws) := by
  have hne : (0 : Nat) ≠ p.nb := Nat.ne_of_lt h.1
  refine ⟨dbaAtReset_inRange h k draws, fun hinvalid => hne (dbaPhase_invalid.mp hinvalid).1, fun _ => ⟨rfl, ?_⟩⟩
  exact fun x hx => List.eq_of_mem_replicate hx

/-- Hardware reset with legal parameters establishes the invariants. -/
theorem hardwareReset_inv {s : State} {p : Params} (h : paramsLegal s.fftSizes p = true) : (s.hardwareReset p).inv := by
  obtain ⟨hdly, hspa, hdba⟩ := paramsLegal_iff.mp h
  refine ⟨dlyAtReset_inRange hdly _, ⟨spaAtReset_inRange hspa _ _, ?_⟩, dbaAtReset_inv hdba _ _⟩
  have hn : 0 < p.n := by obtain ⟨⟨-, h2, -⟩, -⟩ := hspa; omega
  exact hn

/-- Settles O52: the four kinds of step. -/
theorem stepKeepsInvariants : Obligations.StepKeepsInvariants := by
  unfold Obligations.StepKeepsInvariants
  intro s t hs h
  rcases step_cases h with ⟨-, rfl⟩ | ⟨e, later, -, ⟨w0, rest, i, -, -, hexec⟩ | ⟨w0, rest, why, -, -, rfl⟩ |
    ⟨p, -, hlegal, rfl⟩⟩
  · exact hs
  · obtain ⟨-, rfl⟩ := exec_next_iff.mp hexec
    exact affected_keeps_inv (s := { s with cmds := later }) hs i
  · exact hs
  · exact hardwareReset_inv (s := { s with cmds := later }) hlegal

/-- Settles O53: the reference parameters are legal. -/
theorem resetStateMeetsInvariants : Obligations.ResetStateMeetsInvariants := by
  unfold Obligations.ResetStateMeetsInvariants
  obtain ⟨hdly, hspa, hdba⟩ := paramsLegal_iff.mp reference_legal
  exact ⟨dlyAtReset_inRange hdly _, ⟨spaAtReset_inRange hspa _ _, by decide⟩, dbaAtReset_inv hdba _ _⟩

end Sys2Proof.Machine
end

section
/-!
PROOF. The samples an accumulator holds (41_accumulator.md R121 to R124): those below its fill-length. `AccFill` appends
to them and cuts off at the capacity.
-/

namespace Sys2Proof.Machine

/-- The samples of an accumulator: its elements below the fill-length. -/
def contents (acc : Acc) : List F32 := acc.buf.take acc.fill

section

variable {c : Nat} {acc : Acc} (hb : Memory.wf c acc.buf) (hf : acc.fill ≤ c)

include hb hf

theorem contents_length : (contents acc).length = acc.fill :=
  List.length_take_of_le (hf.trans hb.ge)

/-- `AccFill` leaves the old samples followed by what fits, and above them the elements that were there. -/
theorem accFill_parts (s : List F32) :
    contents (accFill c acc s).1 = contents acc ++ s.take (c - acc.fill) ∧
    (accFill c acc s).1.buf.drop (accFill c acc s).1.fill = acc.buf.drop (accFill c acc s).1.fill := by
  obtain ⟨hfill, hbuf, -⟩ := accFill_spec hb hf s
  have hlen : (acc.buf.take acc.fill ++ s.take (c - acc.fill)).length = min (acc.fill + s.length) c := by
    simp only [Memory.wf] at hb
    rw [List.length_append, List.length_take, List.length_take]; omega
  refine ⟨?_, ?_⟩
  · rw [contents, hbuf, hfill, List.take_left' hlen, contents]
  · rw [hbuf, hfill, List.drop_left' hlen]

/-- The samples after `AccFill` are the beginning of the old ones with the new ones, as many as fit. -/
theorem contents_accFill (s : List F32) : contents (accFill c acc s).1 = (contents acc ++ s).take c := by
  rw [(accFill_parts hb hf s).1, List.take_append, contents_length hb hf,
    List.take_of_length_le ((contents_length hb hf).trans_le hf)]

/-- A block that fits is appended. -/
theorem contents_accFill_of_fits {s : List F32} (h : acc.fill + s.length ≤ c) :
    contents (accFill c acc s).1 = contents acc ++ s := by
  rw [contents_accFill hb hf, List.take_of_length_le]
  rwa [List.length_append, contents_length hb hf]

/-- A block that fills up the accumulator leaves the whole buffer as its samples. -/
theorem accFill_of_full {s : List F32} (h : c ≤ acc.fill + s.length) :
    (accFill c acc s).1 = { buf := (contents acc ++ s).take c, fill := c } := by
  have hfill : (accFill c acc s).1.fill = c := by rw [(accFill_spec hb hf s).1]; omega
  have hbuf : contents (accFill c acc s).1 = (accFill c acc s).1.buf := by
    rw [contents, hfill, List.take_of_length_le (accFill_keeps_wf hb hf s).1.le]
  rw [contents_accFill hb hf] at hbuf
  exact congrArg₂ Acc.mk hbuf.symm hfill

/-- What `AccFill` gives back: the samples after the capacity. -/
theorem drop_room (s : List F32) : s.drop (c - acc.fill) = (contents acc ++ s).drop c := by
  rw [List.drop_append, contents_length hb hf,
    List.drop_of_length_le ((contents_length hb hf).trans_le hf), List.nil_append]

end

/-- Any sequence of `AccFill` calls: the samples are the beginning of the old ones with all the blocks. -/
theorem contents_foldl_accFill {c : Nat} (blocks : List (List F32)) {acc : Acc} (hb : Memory.wf c acc.buf)
    (hf : acc.fill ≤ c) :
    contents (blocks.foldl (fun a b => (accFill c a b).1) acc) = (contents acc ++ blocks.flatten).take c ∧
    (blocks.foldl (fun a b => (accFill c a b).1) acc).fill = min (acc.fill + blocks.flatten.length) c := by
  induction blocks generalizing acc with
  | nil =>
    have hle : (contents acc).length ≤ c := (contents_length hb hf).trans_le hf
    simp [List.take_of_length_le hle, hf]
  | cons b blocks ih =>
    obtain ⟨hb', hf'⟩ := accFill_keeps_wf hb hf b
    obtain ⟨hsamples, hfill⟩ := ih hb' hf'
    rw [List.foldl_cons]
    refine ⟨?_, ?_⟩
    · rw [hsamples, contents_accFill hb hf, List.flatten_cons, ← List.append_assoc, List.take_append, List.take_take,
        Nat.min_self, List.take_append (l₁ := contents acc ++ b), List.length_take]
      congr 2
      omega
    · rw [hfill, (accFill_spec hb hf b).1, List.flatten_cons, List.length_append]; omega

/-- Settles O21: an empty accumulator has no samples. -/
theorem accFillSequenceIsOneFill : Obligations.AccFillSequenceIsOneFill := by
  unfold Obligations.AccFillSequenceIsOneFill
  intro c acc blocks hb h0 last
  have hempty : contents acc = [] := by rw [contents, h0, List.take_zero]
  obtain ⟨hsamples, hfill⟩ := contents_foldl_accFill blocks hb (h0.trans_le (Nat.zero_le c))
  rw [h0, Nat.zero_add] at hfill
  refine ⟨hfill, hsamples.trans ?_⟩
  rw [hempty, List.nil_append]
  show _ = blocks.flatten.take last.fill
  rw [hfill, List.take_eq_take_iff]; omega

end Sys2Proof.Machine
end

section
/-!
PROOF. What no command can observe (10_state.md R27, R34, R36, 70_reset_and_hazards.md R264). A relation between two
states of one unit is unseen where both are in range together, no command answers differently on them, and every command
leaves them related; then whole steps cannot tell such states apart. The work buffers with the transform scratch, and the
stale samples, are two such relations.
-/

namespace Sys2Proof.Machine

/-! ### Unseen relations -/

/-- No command to a unit can tell related states of the unit apart. -/
structure Unseen {U : Type} (inRange : List Nat → Params → U → Bool) (effect : Params → Instr → U → U × List Word)
    (draws : U → Nat) (R : Params → U → U → Prop) : Prop where
  refl : ∀ p u, R p u u
  draws_eq : ∀ {p u v}, R p u v → draws v = draws u
  inRange_eq : ∀ {p u v}, R p u v → ∀ sizes, inRange sizes p v = inRange sizes p u
  effect_related : ∀ {p u v}, R p u v → ∀ sizes, inRange sizes p u = true → ∀ i,
    (effect p i v).2 = (effect p i u).2 ∧ R p (effect p i u).1 (effect p i v).1

section Steps

variable {Rs : Params → Spa → Spa → Prop} {Rd : Params → Dba → Dba → Prop}

/-- States that differ only in units SPA and DBA, each within its relation. -/
def related (Rs : Params → Spa → Spa → Prop) (Rd : Params → Dba → Dba → Prop) (s t : State) : Prop :=
  ∃ v w, t = { s with spa := v, dba := w } ∧ Rs s.params s.spa v ∧ Rd s.params s.dba w

/-- A command completes on both of two related states, with the same response. -/
theorem exec_related (hs : Unseen spaInRange spaEffect Spa.draws Rs) (hd : Unseen dbaInRange dbaEffect Dba.draws Rd)
    {s t s' : State} (h : related Rs Rd s t) {i : Instr} (hexec : exec i s = .next s') :
    ∃ t', exec i t = .next t' ∧ related Rs Rd s' t' := by
  obtain ⟨v, w, rfl, hv, hw⟩ := h
  obtain ⟨hready, rfl⟩ := exec_next_iff.mp hexec
  simp only [exec_next_iff]
  unfold ready affected answer at *
  cases ha : agentOf i with
  | dly =>
    rw [ha] at hready
    exact ⟨_, ⟨hready, rfl⟩, v, w, rfl, hv, hw⟩
  | spa =>
    rw [ha] at hready
    obtain ⟨hanswer, hafter⟩ := hs.effect_related hv _ hready i
    exact ⟨_, ⟨(hs.inRange_eq hv _).trans hready, rfl⟩, _, w, by simp only [hanswer], hafter, hw⟩
  | dba =>
    rw [ha] at hready
    obtain ⟨hanswer, hafter⟩ := hd.effect_related hw _ hready i
    exact ⟨_, ⟨(hd.inRange_eq hw _).trans hready, rfl⟩, v, _, by simp only [hanswer], hv, hafter⟩

/-- Unseen relations are kept by every step, with the same responses. -/
theorem step_related (hs : Unseen spaInRange spaEffect Spa.draws Rs) (hd : Unseen dbaInRange dbaEffect Dba.draws Rd)
    {s t s' : State} (h : related Rs Rd s t) (hstep : step s = .next s') :
    ∃ t', step t = .next t' ∧ related Rs Rd s' t' := by
  obtain ⟨v, w, rfl, hv, hw⟩ := id h
  rcases step_cases hstep with ⟨hport, rfl⟩ | ⟨e, later, hport, ⟨w0, rest, i, rfl, hdec, hexec⟩ |
    ⟨w0, rest, why, rfl, hdec, rfl⟩ | ⟨p, rfl, hlegal, rfl⟩⟩
  · exact ⟨_, step_of_no_event hport, h⟩
  · obtain ⟨t', ht', hrel⟩ := exec_related hs hd (s := { s with cmds := later })
      (t := { s with spa := v, dba := w, cmds := later })
      ⟨v, w, rfl, hv, hw⟩ hexec
    exact ⟨t', (step_of_decode_ok (s := { s with spa := v, dba := w }) hport hdec).trans ht', hrel⟩
  · exact ⟨_, step_of_decode_error hport hdec, v, w, rfl, hv, hw⟩
  · refine ⟨_, (step_of_hreset (s := { s with spa := v, dba := w }) hport).trans (if_pos hlegal), _, _, ?_, hs.refl ..,
      hd.refl ..⟩
    simp only [State.hardwareReset, hs.draws_eq hv, hd.draws_eq hw]

end Steps

/-! ### Work buffers and scratch -/

/-- `v` is `u` with other work buffers of the same lengths and another scratch. -/
def spaSameButWork (_ : Params) (u v : Spa) : Prop :=
  ∃ re im scratch, v = { u with wre := re, wim := im, scratch := scratch } ∧
    re.length = u.wre.length ∧ im.length = u.wim.length

def dbaSameButWork (_ : Params) (u v : Dba) : Prop :=
  ∃ re im scratch, v = { u with dwre := re, dwim := im, scratch := scratch } ∧
    re.length = u.dwre.length ∧ im.length = u.dwim.length

theorem sameButWork_iff (s t : State) : sameButWork s t ↔ related spaSameButWork dbaSameButWork s t := by
  constructor
  · rintro ⟨ht, ⟨h1, h2⟩, h3, h4⟩
    exact ⟨_, _, ht, ⟨_, _, _, rfl, h1, h2⟩, _, _, _, rfl, h3, h4⟩
  · rintro ⟨_, _, rfl, ⟨_, _, _, rfl, h1, h2⟩, _, _, _, rfl, h3, h4⟩
    exact ⟨rfl, ⟨h1, h2⟩, h3, h4⟩

/-- A frame writes the work buffers before anything reads them; only the scratch can still differ. -/
theorem spaComplete_sameButWork {p : Params} {u v : Spa} (h : spaSameButWork p u v) :
    spaSameButWork p (spaComplete p u) (spaComplete p v) := by
  obtain ⟨re, im, scratch, rfl, -, -⟩ := h
  exact ⟨_, _, _, rfl, rfl, rfl⟩

theorem feedLoop_sameButWork {p : Params} (fuel : Nat) {u v : Spa} (h : spaSameButWork p u v) (rem : List F32)
    (b : Bool) :
    (feedLoop p fuel v rem b).2 = (feedLoop p fuel u rem b).2 ∧
    spaSameButWork p (feedLoop p fuel u rem b).1 (feedLoop p fuel v rem b).1 := by
  induction fuel generalizing u v rem b with
  | zero => exact ⟨rfl, h⟩
  | succ fuel ih =>
    obtain ⟨re, im, scratch, rfl, hre, him⟩ := h
    have hfilled : spaSameButWork p { u with acc := (accFill p.n u.acc rem).1 }
        { u with acc := (accFill p.n u.acc rem).1, wre := re, wim := im, scratch := scratch } :=
      ⟨re, im, scratch, rfl, hre, him⟩
    simp only [feedLoop]
    split_ifs
    · exact ⟨rfl, spaComplete_sameButWork hfilled⟩
    · exact ih (spaComplete_sameButWork hfilled) _ _
    · exact ⟨rfl, hfilled⟩

theorem spaSameButWork_unseen : Unseen spaInRange spaEffect Spa.draws spaSameButWork where
  refl _ _ := ⟨_, _, _, rfl, rfl, rfl⟩
  draws_eq := by rintro p u v ⟨_, _, _, rfl, -, -⟩; rfl
  inRange_eq := by rintro p u v ⟨_, _, _, rfl, hre, him⟩ sizes; simp only [spaInRange, Memory.wf, hre, him]
  effect_related := by
    intro p u v h sizes _ i
    cases i with
    | feed xs =>
      obtain ⟨hflag, hafter⟩ := feedLoop_sameButWork (xs.length + 2) h xs false
      exact ⟨by simp only [spaEffect, feedRun, hflag], hafter⟩
    | process | reset | panic | time | frequency | changeWindowing | dbFeed | dbTime | dbFrequency =>
      obtain ⟨re, im, scratch, rfl, hre, him⟩ := h
      exact ⟨rfl, re, im, scratch, rfl, hre, him⟩

theorem dbFeedAccepted_sameButWork {p : Params} {u v : Dba} (h : dbaSameButWork p u v) (xs : List F32) :
    (dbFeedAccepted p.nb xs v).1 = (dbFeedAccepted p.nb xs u).1 ∧
    dbaSameButWork p (dbFeedAccepted p.nb xs u).2 (dbFeedAccepted p.nb xs v).2 := by
  obtain ⟨re, im, scratch, rfl, hre, him⟩ := h
  have hroles : filling p.nb { u with dwre := re, dwim := im, scratch := scratch } = filling p.nb u ∧
      completed p.nb { u with dwre := re, dwim := im, scratch := scratch } = completed p.nb u := ⟨rfl, rfl⟩
  simp only [dbFeedAccepted, hroles]
  split
  · refine ⟨rfl, ?_⟩
    cases hin : fillsA p.nb u <;>
      · simp only [fillsA] at hin ⊢
        rw [hin]
        exact ⟨_, _, _, rfl, rfl, rfl⟩
  · refine ⟨rfl, ?_⟩
    cases hin : fillsA p.nb u <;>
      · simp only [fillsA] at hin ⊢
        rw [hin]
        exact ⟨re, im, scratch, rfl, hre, him⟩

theorem dbaSameButWork_unseen : Unseen dbaInRange dbaEffect Dba.draws dbaSameButWork where
  refl _ _ := ⟨_, _, _, rfl, rfl, rfl⟩
  draws_eq := by rintro p u v ⟨_, _, _, rfl, -, -⟩; rfl
  inRange_eq := by rintro p u v ⟨_, _, _, rfl, hre, him⟩ sizes; simp only [dbaInRange, Memory.wf, hre, him]
  effect_related := by
    intro p u v h sizes _ i
    have hphase : dbaPhase p.nb v = dbaPhase p.nb u := by obtain ⟨_, _, _, rfl, -, -⟩ := h; rfl
    have hover : ∀ xs, oversize p.nb v xs ↔ oversize p.nb u xs := by obtain ⟨_, _, _, rfl, -, -⟩ := h; exact fun _ => .rfl
    cases i with
    | dbFeed xs =>
      obtain ⟨hflag, hafter⟩ := dbFeedAccepted_sameButWork h xs
      simp only [dbaEffect, hphase, hover]
      split_ifs
      · exact ⟨rfl, h⟩
      · exact ⟨rfl, h⟩
      · exact ⟨by rw [hflag], hafter⟩
    | process | reset | panic | feed | time | frequency | changeWindowing | dbTime | dbFrequency =>
      obtain ⟨re, im, scratch, rfl, hre, him⟩ := h
      exact ⟨rfl, re, im, scratch, rfl, hre, him⟩

/-- Settles O59: the work buffers and the scratch are unseen in both units. -/
theorem workBuffersAreUnobservable : Obligations.WorkBuffersAreUnobservable := by
  unfold Obligations.WorkBuffersAreUnobservable
  simp only [sameButWork_iff]
  exact fun s t s' => step_related spaSameButWork_unseen dbaSameButWork_unseen

/-! ### Stale samples -/

theorem sameSamples_refl (x : Acc) : sameSamples x x := ⟨rfl, rfl, rfl⟩

/-- A full accumulator has no stale samples. -/
theorem eq_of_sameSamples_of_full {x y : Acc} (h : sameSamples x y) (hfull : x.fill = x.buf.length) : x = y := by
  obtain ⟨hfill, hlen, htake⟩ := h
  rw [hfull, List.take_length, ← hfill, hfull, hlen, List.take_length] at htake
  cases x; cases y
  simp_all

theorem sameSamples_contents {x y : Acc} (h : sameSamples x y) : contents x = contents y := h.2.2

/-- `AccFill` neither reads above the fill-length nor sees what it gives back there. -/
theorem accFill_sameSamples {c : Nat} {x y : Acc} (h : sameSamples x y) (hb : Memory.wf c x.buf) (hf : x.fill ≤ c)
    (s : List F32) :
    sameSamples (accFill c x s).1 (accFill c y s).1 ∧ (accFill c y s).2 = (accFill c x s).2 := by
  obtain ⟨hfill, hlen, -⟩ := id h
  have hb' : Memory.wf c y.buf := hlen.symm.trans hb
  have hf' : y.fill ≤ c := hfill ▸ hf
  have hroom : accRoom c y s = accRoom c x s := by rw [accRoom, accRoom, hfill]
  refine ⟨⟨by rw [accFill_fill, accFill_fill, hfill, hroom], by simp [hlen], ?_⟩, by rw [accFill_rest, accFill_rest, hroom]⟩
  show contents _ = contents _
  rw [contents_accFill hb hf, contents_accFill hb' hf', sameSamples_contents h]

/-- `v` is `u` with other stale samples in the accumulator. -/
def spaSameButStale (_ : Params) (u v : Spa) : Prop := ∃ acc, v = { u with acc := acc } ∧ sameSamples u.acc acc

/-- `v` is `u` with other stale samples in the accumulator being filled. -/
def dbaSameButStale (p : Params) (u v : Dba) : Prop :=
  ∃ a b, v = { u with a := a, b := b } ∧ fillsA p.nb u = fillsA p.nb v ∧
    sameSamples (filling p.nb u) (filling p.nb v) ∧ completed p.nb u = completed p.nb v

theorem sameButStale_iff (s t : State) : sameButStale s t ↔ related spaSameButStale dbaSameButStale s t := by
  constructor
  · rintro ⟨ht, hacc, hroles⟩
    exact ⟨_, _, ht, ⟨_, rfl, hacc⟩, _, _, rfl, (congrArg (fun t => fillsA s.params.nb t.dba) ht).symm ▸ hroles⟩
  · rintro ⟨_, _, rfl, ⟨_, rfl, hacc⟩, _, _, rfl, hroles⟩
    exact ⟨rfl, hacc, hroles⟩

/-- FEED cannot tell stale samples: while the first pass leaves room they stay unread, and when it fills the accumulator
they are all overwritten. -/
theorem feedLoop_sameButStale {sizes : List Nat} {p : Params} {u v : Spa} (h : spaSameButStale p u v)
    (hr : spaInRange sizes p u) (fuel : Nat) (xs : List F32) (b : Bool) :
    (feedLoop p fuel v xs b).2 = (feedLoop p fuel u xs b).2 ∧
    spaSameButStale p (feedLoop p fuel u xs b).1 (feedLoop p fuel v xs b).1 := by
  cases fuel with
  | zero => exact ⟨rfl, h⟩
  | succ fuel =>
    obtain ⟨acc, rfl, hsame⟩ := h
    obtain ⟨-, ⟨hb, hf⟩, -⟩ := spaInRange_iff.mp hr
    obtain ⟨hfilled, hrest⟩ := accFill_sameSamples hsame hb hf xs
    have hfull : accIsFull p.n (accFill p.n acc xs).1 = accIsFull p.n (accFill p.n u.acc xs).1 := by
      rw [accIsFull, accIsFull, hfilled.1]
    simp only [feedLoop, hrest, hfull]
    by_cases hc : accIsFull p.n (accFill p.n u.acc xs).1 = true
    · have heq : (accFill p.n u.acc xs).1 = (accFill p.n acc xs).1 :=
        eq_of_sameSamples_of_full hfilled ((of_decide_eq_true hc).trans (accFill_keeps_wf hb hf xs).1.symm)
      rw [heq]
      exact ⟨rfl, _, rfl, sameSamples_refl _⟩
    · rw [if_neg hc, if_neg hc]
      exact ⟨rfl, _, rfl, hfilled⟩

theorem spaSameButStale_unseen : Unseen spaInRange spaEffect Spa.draws spaSameButStale where
  refl _ _ := ⟨_, rfl, sameSamples_refl _⟩
  draws_eq := by rintro p u v ⟨_, rfl, -⟩; rfl
  inRange_eq := by rintro p u v ⟨acc, rfl, hfill, hlen, -⟩ sizes; simp only [spaInRange, Memory.wf, hfill, hlen]
  effect_related := by
    intro p u v h sizes hr i
    cases i with
    | feed xs =>
      obtain ⟨hflag, hafter⟩ := feedLoop_sameButStale h hr (xs.length + 2) xs false
      exact ⟨by simp only [spaEffect, feedRun, hflag], hafter⟩
    | process | reset | panic | time | frequency | changeWindowing | dbFeed | dbTime | dbFrequency =>
      obtain ⟨acc, rfl, hsame⟩ := h
      exact ⟨rfl, acc, rfl, hsame⟩

theorem dbaSameButStale_refl (p : Params) (u : Dba) : dbaSameButStale p u u :=
  ⟨_, _, rfl, rfl, sameSamples_refl _, rfl⟩

/-- The accumulators that were there before are forgotten. -/
theorem putAccs_overwrites (i : Bool) (x y : Acc) (u : Dba) (a b : Acc) :
    putAccs i x y { u with a := a, b := b } = putAccs i x y u := by
  cases i <;> rfl

/-- Related states of DBA are in the same of the four states, and their accumulators have the same lengths. -/
theorem dbaSameButStale_fills {p : Params} {u v : Dba} (h : dbaSameButStale p u v) :
    (v.a.fill = u.a.fill ∧ v.a.buf.length = u.a.buf.length) ∧
    (v.b.fill = u.b.fill ∧ v.b.buf.length = u.b.buf.length) := by
  obtain ⟨a, b, rfl, hroles, ⟨hfill, hlen, -⟩, hcompleted⟩ := h
  unfold filling at hfill hlen
  unfold completed at hcompleted
  rw [← hroles] at hfill hlen hcompleted
  split_ifs at hfill hlen hcompleted
  · exact ⟨⟨hfill.symm, hlen.symm⟩, by rw [hcompleted]; exact ⟨rfl, rfl⟩⟩
  · exact ⟨by rw [hcompleted]; exact ⟨rfl, rfl⟩, ⟨hfill.symm, hlen.symm⟩⟩

theorem dbaSameButStale_phase {p : Params} {u v : Dba} (h : dbaSameButStale p u v) :
    dbaPhase p.nb v = dbaPhase p.nb u := by
  obtain ⟨⟨ha, -⟩, hb, -⟩ := dbaSameButStale_fills h
  rw [dbaPhase, dbaPhase, accIsFull, accIsFull, accIsFull, accIsFull, ha, hb]

/-- Putting back the same completed accumulator beside two filled ones that have room. -/
theorem putAccs_sameButStale {p : Params} {i : Bool} {x y o : Acc} (h : sameSamples x y) (hx : x.fill ≠ p.nb)
    (ho : i = true → o.fill = p.nb) (u : Dba) : dbaSameButStale p (putAccs i x o u) (putAccs i y o u) := by
  cases i with
  | false =>
    have hroles := roles_of_b_not_full (u := putAccs false x o u) hx
    have hroles' := roles_of_b_not_full (u := putAccs false y o u) (h.1 ▸ hx)
    exact ⟨_, _, rfl, by rw [hroles.1, hroles'.1], by rw [hroles.2.1, hroles'.2.1]; exact h,
      by rw [hroles.2.2, hroles'.2.2]; rfl⟩
  | true =>
    have hroles := roles_of_b_full (u := putAccs true x o u) (ho rfl)
    have hroles' := roles_of_b_full (u := putAccs true y o u) (ho rfl)
    exact ⟨_, _, rfl, by rw [hroles.1, hroles'.1], by rw [hroles.2.1, hroles'.2.1]; exact h,
      by rw [hroles.2.2, hroles'.2.2]; rfl⟩

theorem dbFeedAccepted_sameButStale {sizes : List Nat} {p : Params} {u v : Dba} (h : dbaSameButStale p u v)
    (hr : dbaInRange sizes p u) (xs : List F32) :
    (dbFeedAccepted p.nb xs v).1 = (dbFeedAccepted p.nb xs u).1 ∧
    dbaSameButStale p (dbFeedAccepted p.nb xs u).2 (dbFeedAccepted p.nb xs v).2 := by
  obtain ⟨a, b, rfl, hroles, hsame, hcompleted⟩ := h
  obtain ⟨⟨hb, hf⟩, -⟩ := roles_wf hr
  obtain ⟨hfilled, hrest⟩ := accFill_sameSamples hsame hb hf xs
  have hfull : accIsFull p.nb (accFill p.nb (filling p.nb { u with a := a, b := b }) xs).1 =
      accIsFull p.nb (accFill p.nb (filling p.nb u) xs).1 := by rw [accIsFull, accIsFull, hfilled.1]
  simp only [dbFeedAccepted, hrest, hfull, ← hroles, ← hcompleted]
  by_cases hc : accIsFull p.nb (accFill p.nb (filling p.nb u) xs).1 = true
  · have heq := eq_of_sameSamples_of_full hfilled ((of_decide_eq_true hc).trans (accFill_keeps_wf hb hf xs).1.symm)
    rw [if_pos hc, if_pos hc, ← heq]
    refine ⟨rfl, ?_⟩
    show dbaSameButStale p _ (putAccs _ _ _ { dbFrame _ _ u with a := a, b := b })
    rw [putAccs_overwrites]
    exact dbaSameButStale_refl ..
  · rw [if_neg hc, if_neg hc, putAccs_overwrites]
    refine ⟨rfl, putAccs_sameButStale hfilled (fun h => hc (decide_eq_true h)) (fun hA => ?_) u⟩
    rw [completed, hA, if_pos rfl]
    exact of_decide_eq_true hA

theorem dbaSameButStale_unseen : Unseen dbaInRange dbaEffect Dba.draws dbaSameButStale where
  refl := dbaSameButStale_refl
  draws_eq := by rintro p u v ⟨_, _, rfl, -⟩; rfl
  inRange_eq := by
    intro p u v h sizes
    obtain ⟨⟨ha, hal⟩, hb, hbl⟩ := dbaSameButStale_fills h
    obtain ⟨a, b, rfl, -⟩ := h
    change a.fill = u.a.fill at ha
    change b.fill = u.b.fill at hb
    simp only [dbaInRange, Memory.wf, ha, hal, hb, hbl]
  effect_related := by
    intro p u v h sizes hr i
    have hphase := dbaSameButStale_phase h
    cases i with
    | dbFeed xs =>
      obtain ⟨hflag, hafter⟩ := dbFeedAccepted_sameButStale h hr xs
      have hover : oversize p.nb v xs ↔ oversize p.nb u xs := by
        obtain ⟨_, _, -, -, ⟨hfill, -⟩, -⟩ := h
        rw [oversize, oversize, hfill]
      simp only [dbaEffect, hphase, hover]
      split_ifs
      · exact ⟨rfl, h⟩
      · exact ⟨rfl, h⟩
      · exact ⟨by rw [hflag], hafter⟩
    | dbTime lout =>
      have hsource : dbTimeSource p.nb v = dbTimeSource p.nb u := by
        obtain ⟨_, _, rfl, -, -, hcompleted⟩ := h
        rw [dbTimeSource, dbTimeSource, hcompleted]
      exact ⟨by simp only [dbaEffect, hphase, hsource], h⟩
    | process | reset | panic | feed | time | frequency | changeWindowing | dbFrequency =>
      refine ⟨?_, h⟩
      obtain ⟨_, _, rfl, -⟩ := h
      rfl

/-- Settles O60: stale samples are unseen in both units. -/
theorem staleSamplesAreUnobservable : Obligations.StaleSamplesAreUnobservable := by
  unfold Obligations.StaleSamplesAreUnobservable
  simp only [sameButStale_iff]
  exact fun s t s' => step_related spaSameButStale_unseen dbaSameButStale_unseen

end Sys2Proof.Machine
end

section
/-!
PROOF. DB_FEED (43_double_buffered.md R160 to R163, R168): what one block leaves in the two accumulators, and the stream
of samples over any sequence of blocks.
-/

namespace Sys2Proof.Machine

/-! ### One block -/

theorem completed_eq (c : Nat) (u : Dba) : completed c u = if u.b.fill = c then u.b else u.a := by
  split_ifs with hb
  · exact (roles_of_b_full hb).2.2
  · exact (roles_of_b_not_full hb).2.2

theorem fillsA_eq (c : Nat) (u : Dba) : fillsA c u = decide (u.b.fill = c) := rfl

theorem not_invalid {c : Nat} {u : Dba} (h : ¬ (u.a.fill = c ∧ u.b.fill = c)) : dbaPhase c u ≠ .invalid :=
  mt dbaPhase_invalid.mp h

/-- DB_FEED of a block that is neither refused nor in state Invalid. -/
theorem exec_dbFeed_accepted {s : State} (h : dbaInRange s.fftSizes s.params s.dba)
    (hphase : dbaPhase s.params.nb s.dba ≠ .invalid) {xs : List F32} (hover : ¬ oversize s.params.nb s.dba xs) :
    exec (.dbFeed xs) s = .next { s with
      dba := (dbFeedAccepted s.params.nb xs s.dba).2
      resps := s.resps ++ [[statusWord 0 (if (dbFeedAccepted s.params.nb xs s.dba).1 then 1 else 0)]] } := by
  rw [← responseHeader_infoFlag]
  exact execDbFeed_next.mpr ⟨h, .inr (.inr ⟨hphase, hover, rfl⟩)⟩

theorem responseHeader_no_frame : responseHeader .ok (infoFlag false) = 0x00000000#32 := by decide

theorem responseHeader_frame : responseHeader .ok (infoFlag true) = 0x00000001#32 := by decide

theorem statusWord_zero_zero : statusWord 0 0 = 0x00000000#32 := rfl

theorem statusWord_zero_one : statusWord 0 1 = 0x00000001#32 := rfl

/-- Settles O44: the accepted block leaves room. -/
theorem dbFeedWithoutFrame : Obligations.DbFeedWithoutFrame := by
  unfold Obligations.DbFeedWithoutFrame
  intro s xs h hvalid f hroom f'
  have hphase := not_invalid hvalid
  have hf : filling s.params.nb s.dba = f := filling_eq ..
  have hover : ¬ oversize s.params.nb s.dba xs := by rw [oversize, hf]; omega
  rw [exec_dbFeed_accepted h hphase hover]
  obtain ⟨⟨hwf, hle⟩, -⟩ := roles_wf h
  rcases dbFeedAccepted_cases h hphase xs with ⟨-, hacc⟩ | ⟨hge, -⟩
  · obtain ⟨hfill, hbuf, -⟩ := accFill_spec hwf hle xs
    have hf' : (accFill s.params.nb (filling s.params.nb s.dba) xs).1 = f' := by
      rw [hf] at hfill hbuf ⊢
      rw [Nat.min_eq_left hroom.le] at hfill hbuf
      rw [List.take_of_length_le (show xs.length ≤ s.params.nb - f.fill by omega)] at hbuf
      exact congrArg₂ Acc.mk hbuf hfill
    rw [hacc, hf', completed_eq, fillsA_eq]
    by_cases hb : s.dba.b.fill = s.params.nb <;> simp [hb, statusWord_zero_zero]
  · rw [hf] at hge; omega

/-- The other accumulator after a frame: the rest of the block over its old samples. -/
theorem accFill_accEmpty {c : Nat} {acc : Acc} (hb : Memory.wf c acc.buf) {s : List F32} (h : s.length ≤ c) :
    (accFill c (accEmpty acc) s).1 = { buf := s ++ acc.buf.drop s.length, fill := s.length } := by
  obtain ⟨hfill, hbuf, -⟩ := accFill_spec (acc := accEmpty acc) hb (Nat.zero_le c) s
  rw [accEmpty_fill, Nat.zero_add, Nat.min_eq_left h] at hfill hbuf
  rw [Nat.sub_zero, List.take_of_length_le h, List.take_zero, List.nil_append, accEmpty_buf] at hbuf
  exact congrArg₂ Acc.mk hbuf hfill

/-- Everything an accepted block that completes a frame leaves (43_double_buffered.md R161, R162). -/
theorem dbFeedAccepted_frame {sizes : List Nat} {p : Params} {u : Dba} (h : dbaInRange sizes p u)
    (hv : dbaPhase p.nb u ≠ .invalid) {xs : List F32} (hge : p.nb ≤ (filling p.nb u).fill + xs.length)
    (hover : ¬ oversize p.nb u xs) :
    let frame := contents (filling p.nb u) ++ xs.take (p.nb - (filling p.nb u).fill)
    let rest := xs.drop (p.nb - (filling p.nb u).fill)
    dbFeedAccepted p.nb xs u =
      (true, putAccs (fillsA p.nb u) { buf := frame, fill := p.nb }
        { buf := rest ++ (completed p.nb u).buf.drop rest.length, fill := rest.length } (dbFrame p.nb frame u)) := by
  intro frame rest
  obtain ⟨⟨hwf, hle⟩, hwf', -⟩ := roles_wf h
  have hframe : (accFill p.nb (filling p.nb u) xs).1 = { buf := frame, fill := p.nb } := by
    rw [accFill_of_full hwf hle hge, ← contents_accFill hwf hle, (accFill_parts hwf hle xs).1]
  have hrest : rest.length ≤ p.nb := by
    simp only [oversize, not_le] at hover
    rw [List.length_drop]; omega
  rcases dbFeedAccepted_cases h hv xs with ⟨hlt, -⟩ | ⟨-, hacc⟩
  · omega
  · rw [hacc, hframe, accFill_accEmpty hwf' hrest]

/-- Settles O45: the frame, the rest, and the frame's transform and magnitudes. -/
theorem dbFeedCompletesFrame : Obligations.DbFeedCompletesFrame := by
  unfold Obligations.DbFeedCompletesFrame
  intro s xs h hvalid nb inA f o hge hlt frame rest refilled out
  have hphase := not_invalid hvalid
  have hf : filling nb s.dba = f := filling_eq ..
  have ho : completed nb s.dba = o := completed_eq ..
  have hover : ¬ oversize nb s.dba xs := by rw [oversize, hf]; omega
  have hacc : dbFeedAccepted nb xs s.dba =
      (true, putAccs (decide inA) { buf := frame, fill := nb } refilled (dbFrame nb frame s.dba)) := by
    have hframe := dbFeedAccepted_frame h hphase (xs := xs) (by rw [hf]; exact hge) hover
    rwa [hf, ho] at hframe
  refine ⟨putAccs (decide inA) { buf := frame, fill := nb } refilled (dbFrame nb frame s.dba), ?_, ?_, ?_, ?_, ?_, ?_⟩
  · rw [exec_dbFeed_accepted h hphase hover, hacc]; rfl
  · by_cases hb : inA
    · rw [if_pos hb, decide_eq_true hb]; exact ⟨rfl, rfl⟩
    · rw [if_neg hb, decide_eq_false hb]; exact ⟨rfl, rfl⟩
  · rw [putAccs_dwre]; rfl
  · rw [putAccs_dwim]; rfl
  · rw [putAccs_dfsnap]
    exact (drawMap_length _ _ _).trans (fft_length _ _)
  · intro k hk
    obtain ⟨e, he⟩ := drawMap_getElem? (fun bin => mag .dba bin.1 bin.2) out s.dba.draws k
    have hbin : out[k]? = some _ := List.getElem?_eq_getElem ((fft_length _ _).symm ▸ hk)
    rw [hbin] at he
    exact ⟨_, _, hbin, by rw [putAccs_dfsnap]; exact he, magResult_mag ..⟩

/-! ### The stream of samples (43_double_buffered.md R168) -/

/-- The blocks that were not answered with an error. -/
def acceptedBlocks (blocks : List (List F32)) (answers : List Word) : List (List F32) :=
  ((blocks.zip answers).filter fun x => decide (x.2 = 0x00000000#32 ∨ x.2 = 0x00000001#32)).map Prod.fst

/-- From `u` to `v` the blocks were answered one by one, and `frames` were completed, with no sample lost. -/
structure Streamed (nb : Nat) (u v : Dba) (blocks : List (List F32)) (answers : List Word)
    (frames : List (List F32)) : Prop where
  answered : List.Forall₂ (fun b w => w = 0x00000000#32 ∨ w = 0x00000001#32 ∨
    (nb < b.length ∧ w = statusWord 3 b.length)) blocks answers
  stream : pending nb u ++ (acceptedBlocks blocks answers).flatten = frames.flatten ++ pending nb v
  frame_length : ∀ f ∈ frames, f.length = nb
  count : frames.length = answers.count 0x00000001#32
  roles : fillsA nb v = (fillsA nb u ^^ decide (frames.length % 2 = 1))
  last_frame : ∀ f, frames.getLast? = some f → completed nb v = { buf := f, fill := nb }
  no_frame : frames = [] → completed nb v = completed nb u

theorem streamed_nil (nb : Nat) (u : Dba) : Streamed nb u u [] [] [] where
  answered := .nil
  stream := by simp [acceptedBlocks]
  frame_length := by simp
  count := rfl
  roles := by simp
  last_frame := by simp
  no_frame _ := rfl

theorem decide_odd_add (a b : Nat) :
    decide ((a + b) % 2 = 1) = (decide (a % 2 = 1) ^^ decide (b % 2 = 1)) := by
  rcases Nat.mod_two_eq_zero_or_one a with ha | ha <;> rcases Nat.mod_two_eq_zero_or_one b with hb | hb <;>
    simp [Nat.add_mod, ha, hb]

/-- Streams join. -/
theorem Streamed.append {nb : Nat} {u v w : Dba} {blocks blocks' : List (List F32)} {answers answers' : List Word}
    {frames frames' : List (List F32)} (h : Streamed nb u v blocks answers frames)
    (h' : Streamed nb v w blocks' answers' frames') :
    Streamed nb u w (blocks ++ blocks') (answers ++ answers') (frames ++ frames') where
  answered := List.rel_append h.answered h'.answered
  stream := by
    have hzip : acceptedBlocks (blocks ++ blocks') (answers ++ answers') =
        acceptedBlocks blocks answers ++ acceptedBlocks blocks' answers' := by
      simp only [acceptedBlocks, List.zip_append h.answered.length_eq, List.filter_append, List.map_append]
    rw [hzip, List.flatten_append, ← List.append_assoc, h.stream, List.append_assoc, h'.stream, List.flatten_append,
      List.append_assoc]
  frame_length f hf := (List.mem_append.mp hf).elim (h.frame_length f) (h'.frame_length f)
  count := by rw [List.length_append, List.count_append, h.count, h'.count]
  roles := by rw [h'.roles, h.roles, List.length_append, decide_odd_add, Bool.xor_assoc]
  last_frame f hf := by
    rw [List.getLast?_append] at hf
    cases hlast : frames'.getLast? with
    | some g =>
      rw [hlast] at hf
      obtain rfl : g = f := Option.some.inj hf
      exact h'.last_frame g hlast
    | none =>
      rw [hlast] at hf
      rw [h'.no_frame (List.getLast?_eq_none_iff.mp hlast)]
      exact h.last_frame f hf
  no_frame hnil := by
    obtain ⟨hf, hf'⟩ := List.append_eq_nil_iff.mp hnil
    rw [h'.no_frame hf', h.no_frame hf]

/-- A refused block is no part of the stream. -/
theorem streamed_refused {nb : Nat} (u : Dba) {b : List F32} (hbig : nb < b.length) (hlen : b.length < 2 ^ 24) :
    Streamed nb u u [b] [statusWord 3 b.length] [] := by
  have hne : statusWord 3 b.length ≠ 0x00000000#32 ∧ statusWord 3 b.length ≠ 0x00000001#32 := by
    have htoNat : (statusWord 3 b.length).toNat = 3 * 2 ^ 24 + b.length := by
      rw [statusWord, BitVec.toNat_ofNat]; omega
    constructor <;> intro h <;> rw [h] at htoNat <;> simp at htoNat <;> omega
  constructor
  · exact .cons (.inr (.inr ⟨hbig, rfl⟩)) .nil
  · simp [acceptedBlocks, hne]
  · simp
  · simp [hne]
  · simp
  · simp
  · simp

theorem putAccs_roles {nb : Nat} {i : Bool} {x o : Acc} (u : Dba) (hx : i = false → x.fill ≠ nb)
    (ho : i = true → o.fill = nb) :
    fillsA nb (putAccs i x o u) = i ∧ filling nb (putAccs i x o u) = x ∧ completed nb (putAccs i x o u) = o := by
  cases i with
  | false => exact roles_of_b_not_full (u := putAccs false x o u) (hx rfl)
  | true => exact roles_of_b_full (u := putAccs true x o u) (ho rfl)

theorem putAccs_not (i : Bool) (x y : Acc) (u : Dba) : putAccs i x y u = putAccs (!i) y x u := by cases i <;> rfl

/-- A block that leaves room joins the pending samples. -/
theorem streamed_partial {sizes : List Nat} {p : Params} {u : Dba} (h : dbaInRange sizes p u) {b : List F32}
    (hlt : (filling p.nb u).fill + b.length < p.nb) :
    Streamed p.nb u (putAccs (fillsA p.nb u) (accFill p.nb (filling p.nb u) b).1 (completed p.nb u) u)
      [b] [0x00000000#32] [] := by
  obtain ⟨⟨hwf, hle⟩, -⟩ := roles_wf h
  have hfill : (accFill p.nb (filling p.nb u) b).1.fill < p.nb := by rw [(accFill_spec hwf hle b).1]; omega
  obtain ⟨hA, hF, hC⟩ := putAccs_roles (i := fillsA p.nb u) (o := completed p.nb u) u (fun _ => hfill.ne)
    (fun hA => by rw [completed, if_pos hA]; exact of_decide_eq_true hA)
  constructor
  · exact .cons (.inl rfl) .nil
  · show contents _ ++ _ = _ ++ contents _
    rw [hF, contents_accFill_of_fits hwf hle hlt.le]
    simp [acceptedBlocks]
  · simp
  · simp
  · simp [hA]
  · simp
  · exact fun _ => hC

/-- A block that completes a frame exchanges the roles. -/
theorem streamed_frame {sizes : List Nat} {p : Params} {u : Dba} (h : dbaInRange sizes p u)
    (hv : dbaPhase p.nb u ≠ .invalid) {b : List F32} (hge : p.nb ≤ (filling p.nb u).fill + b.length)
    (hover : ¬ oversize p.nb u b) :
    Streamed p.nb u (dbFeedAccepted p.nb b u).2 [b] [0x00000001#32]
      [contents (filling p.nb u) ++ b.take (p.nb - (filling p.nb u).fill)] := by
  obtain ⟨⟨hwf, hle⟩, hwf', -⟩ := roles_wf h
  have hacc := dbFeedAccepted_frame h hv hge hover
  set frame := contents (filling p.nb u) ++ b.take (p.nb - (filling p.nb u).fill) with hframe
  set rest := b.drop (p.nb - (filling p.nb u).fill) with hrest
  set refilled : Acc := { buf := rest ++ (completed p.nb u).buf.drop rest.length, fill := rest.length }
  have hflen : frame.length = p.nb := by
    rw [hframe, List.length_append, contents_length hwf hle, List.length_take]; omega
  have hrlen : rest.length < p.nb := by
    simp only [oversize, not_le] at hover
    rw [hrest, List.length_drop]; omega
  rw [hacc, putAccs_not]
  obtain ⟨hA, hF, hC⟩ := putAccs_roles (i := !fillsA p.nb u) (x := refilled) (o := { buf := frame, fill := p.nb })
    (dbFrame p.nb frame u) (fun _ => hrlen.ne) (fun _ => rfl)
  have hpending : contents refilled = rest := List.take_left
  constructor
  · exact .cons (.inr (.inl rfl)) .nil
  · show contents _ ++ _ = _ ++ contents _
    rw [hF, hpending]
    simp [acceptedBlocks, hframe, hrest]
  · simpa using hflen
  · rfl
  · exact hA.trans (by simp)
  · intro f hf
    obtain rfl : frame = f := Option.some.inj hf
    exact hC
  · simp

/-- What DB_FEED of one block answers and does, under DBA's invariant. -/
theorem dbaEffect_dbFeed_streamed {sizes : List Nat} {p : Params} {u : Dba} (h : dbaInv sizes p u) {b : List F32}
    (hlen : b.length < 2 ^ 24) :
    ∃ w frames, (dbaEffect p (.dbFeed b) u).2 = [w] ∧ Streamed p.nb u (dbaEffect p (.dbFeed b) u).1 [b] [w] frames := by
  obtain ⟨hr, hv, -⟩ := id h
  simp only [dbaEffect, if_neg hv]
  by_cases hover : oversize p.nb u b
  · have hbig : p.nb < b.length := by
      have hroom := filling_has_room hr hv
      rw [oversize] at hover; omega
    rw [if_pos hover]
    exact ⟨_, [], congrArg (fun w => [w]) (responseHeader_infoOf .tooBig hlen), streamed_refused u hbig hlen⟩
  · rw [if_neg hover]
    rcases Nat.lt_or_ge ((filling p.nb u).fill + b.length) p.nb with hlt | hge
    · rcases dbFeedAccepted_cases hr hv b with ⟨-, hacc⟩ | ⟨hge, -⟩
      · rw [hacc, responseHeader_no_frame]; exact ⟨_, [], rfl, streamed_partial hr hlt⟩
      · omega
    · have hflag : (dbFeedAccepted p.nb b u).1 = true := by rw [dbFeedAccepted_frame hr hv hge hover]
      rw [hflag, responseHeader_frame]
      exact ⟨_, _, rfl, streamed_frame hr hv hge hover⟩

/-- A sequence of DB_FEED commands, by the one block of each. -/
theorem execAll_dbFeed_streamed {s : State} (h : dbaInv s.fftSizes s.params s.dba) {blocks : List (List F32)}
    (hlen : ∀ b ∈ blocks, b.length < 2 ^ 24) :
    ∃ t answers frames, execAll (blocks.map .dbFeed) s = some t ∧ t.resps = s.resps ++ answers.map (fun w => [w]) ∧
      Streamed s.params.nb s.dba t.dba blocks answers frames := by
  induction blocks generalizing s with
  | nil => exact ⟨s, [], [], rfl, by simp, streamed_nil ..⟩
  | cons b blocks ih =>
    obtain ⟨hb, hblocks⟩ := List.forall_mem_cons.mp hlen
    obtain ⟨w, fs, hanswer, hone⟩ := dbaEffect_dbFeed_streamed h hb
    have hexec : exec (.dbFeed b) s = .next { s with
        dba := (dbaEffect s.params (.dbFeed b) s.dba).1, resps := s.resps ++ [[w]] } :=
      exec_next_iff.mpr ⟨h.1, by rw [← hanswer]; rfl⟩
    obtain ⟨t, answers, frames, hrun, hresps, hrest⟩ := ih (s := { s with
        dba := (dbaEffect s.params (.dbFeed b) s.dba).1, resps := s.resps ++ [[w]] })
      (dbaEffect_keeps_inv h _) hblocks
    exact ⟨t, w :: answers, fs ++ frames, (execAll_cons_of_next hexec _).trans hrun, by simp [hresps],
      hone.append hrest⟩

/-- Settles O51: the stream of the whole sequence. -/
theorem dbFeedLosesNoSample : Obligations.DbFeedLosesNoSample := by
  unfold Obligations.DbFeedLosesNoSample
  intro s blocks h hlen
  obtain ⟨t, answers, frames, hrun, hresps, hs⟩ := execAll_dbFeed_streamed h hlen
  obtain ⟨hcount, heach⟩ := List.forall₂_iff_get.mp hs.answered
  refine ⟨t, answers, frames, hrun, hresps, hcount.symm, fun n b w hb hw => ?_, hs.stream, hs.frame_length, hs.count,
    hs.roles, hs.last_frame, hs.no_frame⟩
  obtain ⟨hn, rfl⟩ := List.getElem?_eq_some_iff.mp hb
  obtain ⟨hn', rfl⟩ := List.getElem?_eq_some_iff.mp hw
  exact heach n hn hn'

end Sys2Proof.Machine
end

section
/-!
PROOF. PROCESS (40_delay.md R100 to R107): the whole effect of a block on the delay line, its parts, and two values that
never leave the line.
-/

namespace Sys2Proof.Machine

/-! ### The delay line after a block -/

/-- Place `k` after the cursor of the line that a block leaves is place `k` after the block in the queue extended by the
values fed back. -/
theorem dlyRun_place {p : Params} {u : Dly} (h : dlyInRange p u) {xs fed : List F32}
    (hend : delayQueue (dlyRun p xs u).2 = (delayQueue u ++ fed).drop xs.length) {k : Nat} (hk : k < p.d) :
    (dlyRun p xs u).2.dl[(u.cur + (xs.length + k)) % p.d]? = (delayQueue u ++ fed)[xs.length + k]? := by
  rw [← List.getElem?_drop, ← hend, getElem?_delayQueue (dlyRun_keeps_inRange h xs) hk, dlyRun_cur h, Nat.mod_add_mod,
    Nat.add_assoc]

/-- An element that the block visits ends at `G` times the last output there; one it does not visit stays
(40_delay.md R100, R103). -/
theorem dlyRun_line {p : Params} {u : Dly} (h : dlyInRange p u) (xs : List F32) :
    (∀ (n : Nat) (y : F32), (dlyRun p xs u).1[n]? = some y → xs.length ≤ n + p.d →
      ∃ fed, (dlyRun p xs u).2.dl[(u.cur + n) % p.d]? = some fed ∧ isResult (mulCore y gain) fed) ∧
    (∀ n, xs.length ≤ n → n < p.d → (dlyRun p xs u).2.dl[(u.cur + n) % p.d]? = u.dl[(u.cur + n) % p.d]?) := by
  obtain ⟨fed, hend, -, hout⟩ := dlyRun_queue h xs
  have hlen : (delayQueue u).length = p.d := (delayQueue_length u).trans (dlyInRange_iff.mp h).2.1
  refine ⟨fun n y hy hn => ?visited, fun n hn hlt => ?kept⟩
  case visited =>
    have hlt : n < xs.length := by simpa using (List.getElem?_eq_some_iff.mp hy).1
    obtain ⟨-, f, -, hf, -, hfed⟩ := hout n _ y (List.getElem?_eq_getElem hlt) hy
    refine ⟨f, ?_, hfed⟩
    have hplace := dlyRun_place h hend (k := n + p.d - xs.length) (by omega)
    rw [Nat.add_sub_of_le hn, ← Nat.add_assoc, Nat.add_mod_right] at hplace
    rw [hplace, List.getElem?_append_right (by omega), hlen, Nat.add_sub_cancel, hf]
  case kept =>
    have hplace := dlyRun_place h hend (k := n - xs.length) (by omega)
    rw [Nat.add_sub_of_le hn] at hplace
    rw [hplace, List.getElem?_append_left (hlen.symm ▸ hlt), getElem?_delayQueue h hlt]

/-- Settles O10: the recurrence over the queue, and the line after the block. -/
theorem processComputesDelayRecurrence : Obligations.ProcessComputesDelayRecurrence := by
  unfold Obligations.ProcessComputesDelayRecurrence
  intro s xs h hlen
  obtain ⟨hvisited, hkept⟩ := dlyRun_line h xs
  refine ⟨_, _, exec_process h hlen, dlyRun_length .., (dlyInRange_iff.mp (dlyRun_keeps_inRange h xs)).2.1,
    dlyRun_cur h xs, fun n x y hx hy => ?_, hvisited, hkept⟩
  obtain ⟨old, hold, hsum⟩ := dlyRun_recurrence h hx hy
  refine ⟨old, ?_, hsum⟩
  split_ifs at hold ⊢ with hn
  · rw [← getElem?_delayQueue h hn, hold]
  · exact hold

/-- Settles O12: the sample loop is a left fold. -/
theorem processChunksLikeOneBlock : Obligations.ProcessChunksLikeOneBlock := by
  unfold Obligations.ProcessChunksLikeOneBlock
  intro s xs ys h hlen
  have hlen' : (xs ++ ys).length < 2 ^ 24 := by rwa [List.length_append]
  have hx := exec_process h (xs := xs) (by omega)
  have hy := exec_process (s := { s with
      dly := (dlyRun s.params xs s.dly).2
      resps := s.resps ++ [statusWord 0 xs.length :: (dlyRun s.params xs s.dly).1] })
    (dlyRun_keeps_inRange h xs) (xs := ys) (by omega)
  have hxy := exec_process h hlen'
  rw [List.length_append] at hxy
  refine ⟨_, _, _, _, (execAll_cons_of_next hx _).trans (execAll_cons_of_next hy []), List.append_assoc ..,
    dlyRun_length .., dlyRun_length .., execAll_cons_of_next hxy [], ?_, ?_⟩
  · simp only [dlyRun_append]
  · simp only [dlyRun_append]

/-! ### Values that never leave the line -/

theorem addCore_of_isNaN_right (x : F32) {y : F32} (h : isNaN y = true) : addCore x y = none := by simp [addCore, h]

theorem mulCore_of_isNaN {x : F32} (h : isNaN x = true) (y : F32) : mulCore x y = none := by simp [mulCore, h]

/-- A NaN in the line meets every sample at its element and is fed back as a NaN (40_delay.md R100 (e)). -/
theorem dlyRun_nan {p : Params} {u : Dly} (h : dlyInRange p u) {j : Nat} {x : F32} (hj : u.dl[j]? = some x)
    (hnan : isNaN x = true) (xs : List F32) :
    (∃ x', (dlyRun p xs u).2.dl[j]? = some x' ∧ isNaN x' = true) ∧
    ∀ (n : Nat) (y : F32), (dlyRun p xs u).1[n]? = some y → (u.cur + n) % p.d = j → isNaN y = true := by
  induction xs generalizing u x with
  | nil => exact ⟨⟨x, hj, hnan⟩, by simp [dlyRun]⟩
  | cons z zs ih =>
    obtain ⟨old, fed, hold, hdl, hy, hfed⟩ := dlyStep_cases h z
    obtain ⟨-, -, hcur⟩ := dlyInRange_iff.mp h
    have hout : u.cur = j → isNaN (dlyStep p z u).1 = true := fun he => by
      obtain rfl : old = x := Option.some.inj ((hold.symm.trans (he ▸ rfl)).trans hj)
      rw [addCore_of_isNaN_right z hnan, isResult_none] at hy
      exact isNaN_of_isQuietNaN hy
    obtain ⟨x', hj', hnan'⟩ : ∃ x', (dlyStep p z u).2.dl[j]? = some x' ∧ isNaN x' = true := by
      have hread := memRead_memWrite u.dl u.cur j fed
      rw [← hdl, memRead, memRead] at hread
      by_cases he : u.cur = j
      · rw [if_pos he, if_pos (List.getElem?_eq_some_iff.mp hj).1] at hread
        rw [mulCore_of_isNaN (hout he), isResult_none] at hfed
        exact ⟨fed, hread, isNaN_of_isQuietNaN hfed⟩
      · rw [if_neg he] at hread
        exact ⟨x, hread.trans hj, hnan⟩
    obtain ⟨hline, houts⟩ := ih (dlyStep_keeps_inRange h z) hj' hnan'
    refine ⟨hline, fun n y hn hplace => ?_⟩
    cases n with
    | zero =>
      obtain rfl : (dlyStep p z u).1 = y := Option.some.inj hn
      rw [Nat.add_zero, Nat.mod_eq_of_lt hcur] at hplace
      exact hout hplace
    | succ n =>
      refine houts n y hn ?_
      rw [dlyStep_cur, advance_eq p hcur, Nat.mod_add_mod, Nat.add_assoc, Nat.add_comm 1 n]
      exact hplace

/-- Settles O18. -/
theorem naNInDelayLinePersists : Obligations.NaNInDelayLinePersists := by
  unfold Obligations.NaNInDelayLinePersists
  intro s xs j x h hlen hj hnan
  obtain ⟨hline, houts⟩ := dlyRun_nan h hj hnan xs
  exact ⟨_, _, exec_process h hlen, rfl, hline, houts⟩

/-- Settles O19: the smallest subnormal is a value of the line that a zero leaves as it is. -/
theorem smallestEchoNeverDies : Obligations.SmallestEchoNeverDies := by
  unfold Obligations.SmallestEchoNeverDies
  intro s xs h hlen hline hxs
  have hsum : ∀ x ∈ xs, addCore x 0x00000001#32 = some 0x00000001#32 := fun x hx => by rw [hxs x hx]; decide
  obtain ⟨houts, hafter⟩ := dlyRun_of_fixed h hline hsum (by decide)
  exact ⟨_, exec_process h hlen, by rw [houts], hafter⟩

end Sys2Proof.Machine
end

section
/-!
PROOF. Free draws (44_window_numerics.md R181). Two patterns are the same value where they are equal or both NaNs. Every
operation gives the same value on the same values, whatever is drawn, and the byte quantizer gives the same byte; so
bytes never show a draw.
-/

namespace Sys2Proof.Machine

/-! ### The same value -/

theorem sameValue_refl (x : F32) : sameValue x x := .inl rfl

/-- A function whose answers on NaNs are all alike cannot tell the same values apart. -/
theorem congr_of_sameValue {α : Type} {f : F32 → α} (hf : ∀ x y, isNaN x = true → isNaN y = true → f x = f y)
    {x y : F32} (h : sameValue x y) : f x = f y := by
  rcases h with rfl | ⟨hx, hy⟩
  · rfl
  · exact hf x y hx hy

theorem sameValue_settle (u v : Agent) (r : Option F32) (d e : Nat) : sameValue (settle u r d).1 (settle v r e).1 := by
  cases r with
  | some x => exact .inl rfl
  | none => exact .inr ⟨isNaN_quietNaN _, isNaN_quietNaN _⟩

theorem isNaN_settle_none (u : Agent) (d : Nat) : isNaN (settle u none d).1 = true := isNaN_quietNaN _

theorem mulCore_of_isNaN_right (x : F32) {y : F32} (h : isNaN y = true) : mulCore x y = none := by simp [mulCore, h]

theorem divCore_of_isNaN {x : F32} (h : isNaN x = true) (y : F32) : divCore x y = none := by simp [divCore, h]

theorem sqrtCore_of_isNaN {x : F32} (h : isNaN x = true) : sqrtCore x = none := by simp [sqrtCore, h]

theorem subCore_of_isNaN {x : F32} (h : isNaN x = true) (y : F32) : subCore x y = none := addCore_of_isNaN h _

theorem addCore_congr {a a' b b' : F32} (ha : sameValue a a') (hb : sameValue b b') : addCore a b = addCore a' b' :=
  (congr_of_sameValue (f := (addCore · b)) (fun _ _ h h' => by rw [addCore_of_isNaN h, addCore_of_isNaN h']) ha).trans
    (congr_of_sameValue (f := addCore a')
      (fun _ _ h h' => by rw [addCore_of_isNaN_right _ h, addCore_of_isNaN_right _ h']) hb)

theorem mulCore_congr {a a' b b' : F32} (ha : sameValue a a') (hb : sameValue b b') : mulCore a b = mulCore a' b' :=
  (congr_of_sameValue (f := (mulCore · b)) (fun _ _ h h' => by rw [mulCore_of_isNaN h, mulCore_of_isNaN h']) ha).trans
    (congr_of_sameValue (f := mulCore a')
      (fun _ _ h h' => by rw [mulCore_of_isNaN_right _ h, mulCore_of_isNaN_right _ h']) hb)

theorem divCore_congr {a a' : F32} (ha : sameValue a a') (b : F32) : divCore a b = divCore a' b :=
  congr_of_sameValue (f := (divCore · b)) (fun _ _ h h' => by rw [divCore_of_isNaN h, divCore_of_isNaN h']) ha

theorem subCore_congr {a a' : F32} (ha : sameValue a a') (b : F32) : subCore a b = subCore a' b :=
  addCore_congr ha (sameValue_refl _)

theorem sqrtCore_congr {a a' : F32} (ha : sameValue a a') : sqrtCore a = sqrtCore a' :=
  congr_of_sameValue (fun _ _ h h' => by rw [sqrtCore_of_isNaN h, sqrtCore_of_isNaN h']) ha

theorem q8_congr {a a' : F32} (ha : sameValue a a') : q8 a = q8 a' :=
  congr_of_sameValue (fun _ _ h h' => by rw [q8_of_isNaN h, q8_of_isNaN h']) ha

theorem engineValue_congr {a a' : F32} (ha : sameValue a a') : engineValue a = engineValue a' :=
  congr_of_sameValue (fun _ _ => engineValue_of_isNaN) ha

/-- Setting the exponent and the top fraction bit makes a pattern a NaN. -/
theorem isNaN_toNaN (x : F32) : isNaN (toNaN x) = true := by
  unfold toNaN
  split_ifs with h
  · exact h
  · have hle : 0x7FC00000 ≤ (x ||| 0x7FC00000#32).toNat % 2 ^ 31 := by
      have hmod : (x ||| 0x7FC00000#32).toNat % 2 ^ 31 = x.toNat % 2 ^ 31 ||| 0x7FC00000 := by
        rw [BitVec.toNat_or, Nat.or_mod_two_pow]; rfl
      rw [hmod]
      exact Nat.right_le_or
    exact decide_eq_true (Nat.lt_of_lt_of_le (by decide) hle)

theorem log10_32_of_isNaN {x : F32} (h : isNaN x = true) : isNaN (log10_32 x) = true := by
  rw [log10_32, if_pos h]; exact isNaN_toNaN _

theorem log10_32_congr {a a' : F32} (ha : sameValue a a') : sameValue (log10_32 a) (log10_32 a') := by
  rcases ha with rfl | ⟨h, h'⟩
  · exact sameValue_refl _
  · exact .inr ⟨log10_32_of_isNaN h, log10_32_of_isNaN h'⟩

/-! ### The functions of 44_window_numerics.md -/

/-- A time byte does not show a draw. -/
theorem timeByte_indep (x : F32) (d e : Nat) : (timeByte x d).1 = (timeByte x e).1 := by
  have hsum : sameValue (fadd32 .spa one32 x d).1 (fadd32 .spa one32 x e).1 := sameValue_settle ..
  have hprod := mulCore_congr (sameValue_refl oneTwentyEight32) hsum
  refine q8_congr ?_
  rw [fmul32, fmul32, hprod]
  exact sameValue_settle ..

theorem mag_congr (u : Agent) (re im : F32) (d e : Nat) : sameValue (mag u re im d).1 (mag u re im e).1 := by
  have hre : sameValue (fmul32 u re re d).1 (fmul32 u re re e).1 := sameValue_settle ..
  have him : sameValue (fmul32 u im im (fmul32 u re re d).2).1 (fmul32 u im im (fmul32 u re re e).2).1 :=
    sameValue_settle ..
  simp only [mag, fadd32, fsqrt32]
  rw [addCore_congr hre him, sqrtCore_congr (sameValue_settle u u _ _ _)]
  exact sameValue_settle ..

theorem toDb_congr (p : Params) {m m' : F32} (h : sameValue m m') (d e : Nat) :
    sameValue (toDb p m d).1 (toDb p m' e).1 := by
  have hq : sameValue (norm p m d).1 (norm p m' e).1 := by
    simp only [norm, fdiv32, divCore_congr h]
    exact sameValue_settle ..
  simp only [toDb, fmul32, mulCore_congr (sameValue_refl twenty32) (log10_32_congr hq)]
  exact sameValue_settle ..

theorem smooth_congr (p : Params) {sm sm' v v' : F32} (hsm : sameValue sm sm') (hv : sameValue v v') (d e : Nat) :
    sameValue (smooth p sm v d).1.1 (smooth p sm' v' e).1.1 ∧ sameValue (smooth p sm v d).1.2 (smooth p sm' v' e).1.2 := by
  unfold smooth
  split_ifs
  · have hw : ∀ d1 d2 d3 e1 e2 e3,
        sameValue (fadd32 .spa (fmul32 .spa sm p.alpha d1).1 (fmul32 .spa v (oneMinusAlpha p) d2).1 d3).1
          (fadd32 .spa (fmul32 .spa sm' p.alpha e1).1 (fmul32 .spa v' (oneMinusAlpha p) e2).1 e3).1 := by
      intro d1 d2 d3 e1 e2 e3
      simp only [fmul32, mulCore_congr hsm (sameValue_refl p.alpha),
        mulCore_congr hv (sameValue_refl (oneMinusAlpha p)), fadd32]
      rw [addCore_congr (sameValue_settle .spa .spa _ d1 e1) (sameValue_settle .spa .spa _ d2 e2)]
      exact sameValue_settle ..
    exact ⟨hw .., hw ..⟩
  · exact ⟨hv, hsm⟩

theorem freqByte_congr (p : Params) {v v' : F32} (h : sameValue v v') (d e : Nat) :
    (freqByte p v d).1 = (freqByte p v' e).1 := by
  have hdiff : sameValue (fsub32 .spa v p.minDb d).1 (fsub32 .spa v' p.minDb e).1 := by
    simp only [fsub32, subCore_congr h]
    exact sameValue_settle ..
  refine q8_congr ?_
  simp only [fmul32, mulCore_congr (sameValue_refl (scale p)) hdiff]
  exact sameValue_settle ..

/-- The pipeline of a bin shows no draw in its byte, and in the smoothing memory only which NaN it is. -/
theorem spaBin_congr (p : Params) {sm sm' : F32} (h : sameValue sm sm') (bin : F32 × F32) (d e : Nat) :
    (spaBin p sm bin d).1.2 = (spaBin p sm' bin e).1.2 ∧ sameValue (spaBin p sm bin d).1.1 (spaBin p sm' bin e).1.1 := by
  have hsmooth := fun d1 e1 => smooth_congr p h (toDb_congr p (mag_congr .spa bin.1 bin.2 d e) (mag .spa bin.1 bin.2 d).2
    (mag .spa bin.1 bin.2 e).2) d1 e1
  exact ⟨freqByte_congr p (hsmooth _ _).1 _ _, (hsmooth _ _).2⟩

end Sys2Proof.Machine
end

section
/-!
PROOF. FEED (42_analyzer.md R130 to R139): the accumulator, the snapshots and the smoothing memory over the whole block,
each by the passes of the frame loop.
-/

namespace Sys2Proof.Machine

/-! ### The passes of a FEED -/

/-- FEED of a block is a number of frames and then a partial fill: what holds of the partial fill and is carried back
over a frame holds of FEED. -/
theorem feedRun_induct {sizes : List Nat} {p : Params} {motive : Spa → List F32 → Spa → Prop}
    (hpartial : ∀ u xs, spaInRange sizes p u → u.acc.fill + xs.length < p.n →
      motive u xs { u with acc := (accFill p.n u.acc xs).1 })
    (hframe : ∀ u xs v, spaInRange sizes p u → u.acc.fill < p.n → p.n ≤ u.acc.fill + xs.length →
      motive (spaComplete p { u with acc := { buf := (contents u.acc ++ xs).take p.n, fill := p.n } })
        ((contents u.acc ++ xs).drop p.n) v → motive u xs v)
    {u : Spa} (h : spaInv sizes p u) (xs : List F32) : motive u xs (feedRun p u xs).1 := by
  obtain ⟨hr, hf⟩ := h
  induction hl : xs.length using Nat.strong_induction_on generalizing xs u with
  | _ l ih =>
    subst hl
    rcases Nat.lt_or_ge (u.acc.fill + xs.length) p.n with hlt | hge
    · rw [feedRun_partial hlt]
      exact hpartial u xs hr hlt
    · obtain ⟨-, ⟨hb, hle⟩, -⟩ := spaInRange_iff.mp hr
      have hc := spaComplete_keeps_inRange (spaFill_keeps_inRange hr xs)
      rw [feedRun_frame hf hge, drop_room hb hle]
      rw [accFill_of_full hb hle hge] at hc ⊢
      refine hframe u xs _ hr hf hge (ih _ ?_ _ hc (Nat.zero_lt_of_lt hf) rfl)
      rw [List.length_drop, List.length_append, contents_length hb hle]; omega

theorem feedRun_flag {p : Params} {u : Spa} (hf : u.acc.fill < p.n) (xs : List F32) :
    (feedRun p u xs).2 = decide (p.n ≤ u.acc.fill + xs.length) := by
  rcases Nat.lt_or_ge (u.acc.fill + xs.length) p.n with hlt | hge
  · rw [feedRun_partial hlt, decide_eq_false (by omega)]
  · rw [feedRun_frame hf hge, decide_eq_true hge]

theorem exec_feed {s : State} (h : spaInv s.fftSizes s.params s.spa) (xs : List F32) :
    exec (.feed xs) s = .next { s with
      spa := (feedRun s.params s.spa xs).1
      resps := s.resps ++ [[statusWord 0 (if s.params.n ≤ s.spa.acc.fill + xs.length then 1 else 0)]] } := by
  obtain ⟨hr, hf⟩ := h
  refine execFeed_next.mpr ⟨hr, ?_⟩
  rw [feedRun_flag hf, State.respond, responseHeader_infoFlag]
  simp only [decide_eq_true_eq]

/-! ### The accumulator -/

/-- A completed frame leaves an accumulator without samples. -/
theorem contents_spaComplete (p : Params) (u : Spa) : contents (spaComplete p u).acc = [] := by
  rw [contents, spaComplete_acc, accEmpty_fill, List.take_zero]

/-- The samples after FEED: those after the last frame. -/
theorem feedRun_contents {sizes : List Nat} {p : Params} {u : Spa} (h : spaInv sizes p u) (xs : List F32) :
    (feedRun p u xs).1.acc.fill = (u.acc.fill + xs.length) % p.n ∧
    contents (feedRun p u xs).1.acc =
      (contents u.acc ++ xs).drop ((u.acc.fill + xs.length) / p.n * p.n) := by
  refine feedRun_induct (motive := fun u xs v => v.acc.fill = (u.acc.fill + xs.length) % p.n ∧
    contents v.acc = (contents u.acc ++ xs).drop ((u.acc.fill + xs.length) / p.n * p.n)) ?_ ?_ h xs
  · intro u xs hr hlt
    obtain ⟨-, ⟨hb, hle⟩, -⟩ := spaInRange_iff.mp hr
    refine ⟨?_, ?_⟩
    · rw [Nat.mod_eq_of_lt hlt, accFill_of_fits xs hlt.le]
    · rw [Nat.div_eq_of_lt hlt, Nat.zero_mul, List.drop_zero, contents_accFill_of_fits hb hle hlt.le]
  · intro u xs v hr hf hge ⟨hfill, hsamples⟩
    obtain ⟨-, ⟨hb, hle⟩, -⟩ := spaInRange_iff.mp hr
    have hlen : ((contents u.acc ++ xs).drop p.n).length = u.acc.fill + xs.length - p.n := by
      rw [List.length_drop, List.length_append, contents_length hb hle]
    rw [contents_spaComplete, List.nil_append] at hsamples
    rw [spaComplete_acc, accEmpty_fill, Nat.zero_add, hlen] at hfill hsamples
    refine ⟨hfill.trans (Nat.mod_eq_sub_mod hge).symm, ?_⟩
    rw [hsamples, List.drop_drop,
      Nat.div_eq_sub_div (Nat.zero_lt_of_lt hf) hge, Nat.succ_mul, Nat.add_comm]

/-- FEED of a block that completes no frame writes nothing but the accumulator, and there nothing above the samples. -/
theorem feedRun_no_frame {sizes : List Nat} {p : Params} {u : Spa} (h : spaInv sizes p u) {xs : List F32}
    (hlt : u.acc.fill + xs.length < p.n) :
    (feedRun p u xs).1 = { u with acc := (feedRun p u xs).1.acc } ∧
    (feedRun p u xs).1.acc.buf.drop (feedRun p u xs).1.acc.fill = u.acc.buf.drop (feedRun p u xs).1.acc.fill := by
  obtain ⟨-, ⟨hb, hle⟩, -⟩ := spaInRange_iff.mp h.1
  rw [feedRun_partial hlt]
  exact ⟨rfl, (accFill_parts hb hle xs).2⟩

/-- Settles O22. -/
theorem feedConsumesTheBlock : Obligations.FeedConsumesTheBlock := by
  unfold Obligations.FeedConsumesTheBlock
  intro s xs h n total
  obtain ⟨hr, -, hwin, hwlut⟩ := feedRun_keeps xs h.1 h.2
  obtain ⟨-, ⟨hb, -⟩, -⟩ := spaInRange_iff.mp hr
  obtain ⟨hfill, hsamples⟩ := feedRun_contents h xs
  exact ⟨_, exec_feed h xs, hfill, hb, hwin, hwlut, hsamples, fun hlt => feedRun_no_frame h hlt⟩

/-- FEED commands one after the other are FEED of the concatenation (42_analyzer.md R139). -/
theorem execAll_feed {s : State} (h : spaInv s.fftSizes s.params s.spa) (blocks : List (List F32)) :
    ∃ t, execAll (blocks.map .feed) s = some t ∧ t.spa = (feedRun s.params s.spa blocks.flatten).1 := by
  induction blocks generalizing s with
  | nil =>
    refine ⟨s, rfl, ?_⟩
    have hnil : s.spa.acc.fill + ([] : List F32).length < s.params.n := h.2
    rw [List.flatten_nil, feedRun_partial hnil, accFill_of_fits [] hnil.le]
    rfl
  | cons b blocks ih =>
    obtain ⟨hr, hf, -, -⟩ := feedRun_keeps b h.1 h.2
    obtain ⟨t, hrun, hspa⟩ := ih (s := { s with
      spa := (feedRun s.params s.spa b).1
      resps := s.resps ++ [[statusWord 0 (if s.params.n ≤ s.spa.acc.fill + b.length then 1 else 0)]] }) ⟨hr, hf⟩
    refine ⟨t, (execAll_cons_of_next (exec_feed h b) _).trans hrun, ?_⟩
    rw [hspa, List.flatten_cons, feedRun_append b blocks.flatten h.2]

/-- Settles O25. -/
theorem feedChunkingLaw : Obligations.FeedChunkingLaw := by
  unfold Obligations.FeedChunkingLaw
  intro s bs cs h hflat
  obtain ⟨t1, hrun1, hspa1⟩ := execAll_feed h bs
  obtain ⟨t2, hrun2, hspa2⟩ := execAll_feed h cs
  exact ⟨t1, t2, hrun1, hrun2, by rw [hspa1, hspa2, hflat]⟩

/-! ### The time snapshot -/

theorem spaComplete_tsnap (p : Params) (u : Spa) : (spaComplete p u).tsnap = u.acc.buf.map fun x => (timeByte x 0).1 :=
  drawMap_of_indep timeByte _ (fun x d => timeByte_indep x d 0) _ _

/-- The last frame of a FEED: its bytes are the time snapshot, and its samples lie above the fill-length. Without a frame
both are as before. -/
theorem feedRun_last_frame {sizes : List Nat} {p : Params} {u : Spa} (h : spaInv sizes p u) (xs : List F32) :
    let total := u.acc.fill + xs.length
    let last := ((contents u.acc ++ xs).drop ((total / p.n - 1) * p.n)).take p.n
    let v := (feedRun p u xs).1
    (total < p.n → v.tsnap = u.tsnap ∧ v.acc.buf.drop v.acc.fill = u.acc.buf.drop v.acc.fill) ∧
    (p.n ≤ total → v.tsnap = last.map (fun x => (timeByte x 0).1) ∧
      v.acc.buf.drop v.acc.fill = last.drop v.acc.fill) := by
  refine feedRun_induct (motive := fun u xs v =>
    let total := u.acc.fill + xs.length
    let last := ((contents u.acc ++ xs).drop ((total / p.n - 1) * p.n)).take p.n
    (total < p.n → v.tsnap = u.tsnap ∧ v.acc.buf.drop v.acc.fill = u.acc.buf.drop v.acc.fill) ∧
    (p.n ≤ total → v.tsnap = last.map (fun x => (timeByte x 0).1) ∧
      v.acc.buf.drop v.acc.fill = last.drop v.acc.fill)) ?_ ?_ h xs
  · intro u xs hr hlt
    obtain ⟨-, ⟨hb, hle⟩, -⟩ := spaInRange_iff.mp hr
    exact ⟨fun _ => ⟨rfl, (accFill_parts hb hle xs).2⟩, fun hge => absurd hge (by omega)⟩
  · intro u xs v hr hf hge ih
    obtain ⟨-, ⟨hb, hle⟩, -⟩ := spaInRange_iff.mp hr
    have hlen : ((contents u.acc ++ xs).drop p.n).length = u.acc.fill + xs.length - p.n := by
      rw [List.length_drop, List.length_append, contents_length hb hle]
    have hn : 0 < p.n := Nat.zero_lt_of_lt hf
    simp only [contents_spaComplete, List.nil_append, hlen] at ih
    simp only [spaComplete_acc, accEmpty_fill, accEmpty_buf, Nat.zero_add, List.drop_drop, spaComplete_tsnap] at ih
    have hdiv := Nat.div_eq_sub_div hn hge
    refine ⟨fun hlt => absurd hge (by omega), fun _ => ?_⟩
    rcases Nat.lt_or_ge (u.acc.fill + xs.length - p.n) p.n with hlt | hge'
    · rw [hdiv, Nat.div_eq_of_lt hlt, Nat.zero_add, Nat.sub_self, Nat.zero_mul, List.drop_zero]
      exact ih.1 hlt
    · have hpos : 1 ≤ (u.acc.fill + xs.length - p.n) / p.n := (Nat.le_div_iff_mul_le hn).mpr (by omega)
      have hskip : p.n + ((u.acc.fill + xs.length - p.n) / p.n - 1) * p.n =
          ((u.acc.fill + xs.length) / p.n - 1) * p.n := by
        rw [hdiv, Nat.add_sub_cancel, Nat.sub_mul, Nat.one_mul]
        have := Nat.mul_le_mul_right p.n hpos
        omega
      rw [← hskip]
      exact ih.2 hge'

/-- Settles O23: a time byte does not depend on the draw counter. -/
theorem timeSnapshotIsOfLastFrame : Obligations.TimeSnapshotIsOfLastFrame := by
  unfold Obligations.TimeSnapshotIsOfLastFrame
  intro s t xs h hexec hge n frames last
  obtain rfl := Host.Outcome.next.inj ((exec_feed h xs).symm.trans hexec)
  obtain ⟨hr, -⟩ := feedRun_keeps xs h.1 h.2
  obtain ⟨-, -, -, -, htsnap, -⟩ := spaInRange_iff.mp hr
  obtain ⟨hbytes, habove⟩ := (feedRun_last_frame h xs).2 hge
  refine ⟨htsnap, fun j x d hj => ?_, habove⟩
  rw [hbytes, List.getElem?_map]
  exact (congrArg _ hj).trans (congrArg some (timeByte_indep x 0 d))

/-! ### The bins of a frame -/

/-- The samples of a frame under the window, and the draw counter after them (42_analyzer.md R133). -/
def frameWindowed (u : Spa) : List F32 × Nat := spaWindowed u (spaTime u).2

/-- What the transform of a frame is given (42_analyzer.md R134). -/
def frameInput (u : Spa) : List (F32 × F32) := spaInput (frameWindowed u).1

/-- The transform of a frame (42_analyzer.md R134). -/
def frameOut (p : Params) (u : Spa) : List (F32 × F32) := fft p.n (frameInput u)

/-- The smoothing memories and bytes of a frame's bins (42_analyzer.md R135). -/
def frameBins (p : Params) (u : Spa) : List (F32 × Byte) := (spaBins p u.sm (frameOut p u) (frameWindowed u).2).1

theorem spaFrame_sm (p : Params) (u : Spa) : (spaFrame p u).sm = (frameBins p u).map Prod.fst := rfl
theorem spaFrame_fsnap (p : Params) (u : Spa) : (spaFrame p u).fsnap = (frameBins p u).map Prod.snd := rfl

theorem frameOut_length (p : Params) (u : Spa) : (frameOut p u).length = p.n := fft_length ..

/-- Bin `k` of a frame is the pipeline on smoothing memory `k` and output `k` of the transform. -/
theorem getElem?_frameBins {p : Params} {u : Spa} {k : Nat} {sm : F32} {bin : F32 × F32} (hk : k < p.n / 2)
    (hsm : u.sm[k]? = some sm) (hbin : (frameOut p u)[k]? = some bin) :
    ∃ d, (frameBins p u)[k]? = some (spaBin p sm bin d).1 := by
  obtain ⟨d, hd⟩ := drawMap_getElem? (fun sb => spaBin p sb.1 sb.2) (u.sm.zip ((frameOut p u).take (p.n / 2)))
    (frameWindowed u).2 k
  rw [List.getElem?_zip_eq_some (z := (sm, bin)) |>.mpr ⟨hsm, (List.getElem?_take_of_lt hk).trans hbin⟩] at hd
  exact ⟨d, hd⟩

/-! ### The smoothing memory -/

/-- A map with draws, seen through a function that does not show them. -/
theorem drawMap_map_of_indep {α β γ : Type} {f : α → Nat → β × Nat} {g : β → γ} {k : α → γ}
    (h : ∀ x d, g (f x d).1 = k x) (xs : List α) (d : Nat) : (drawMap f xs d).1.map g = xs.map k := by
  induction xs generalizing d with
  | nil => rfl
  | cons x xs ih => rw [drawMap, List.map_cons, List.map_cons, ih, h]

theorem spaBin_sm_of_disabled {p : Params} (h : isZero p.alpha = true) (sm : F32) (bin : F32 × F32) (d : Nat) :
    (spaBin p sm bin d).1.1 = sm := by
  simp [spaBin, smooth, smoothingEnabled, h]

/-- With smoothing disabled a frame leaves the smoothing memory. -/
theorem frameBins_sm_of_disabled {p : Params} {u : Spa} (h : isZero p.alpha = true) (hsm : u.sm.length = p.n / 2) :
    (frameBins p u).map Prod.fst = u.sm := by
  have hmap := drawMap_map_of_indep (f := fun sb : F32 × (F32 × F32) => spaBin p sb.1 sb.2) (g := Prod.fst)
    (k := Prod.fst) (fun sb d => spaBin_sm_of_disabled h sb.1 sb.2 d) (u.sm.zip ((frameOut p u).take (p.n / 2)))
    (frameWindowed u).2
  rw [frameBins, spaBins, hmap]
  exact List.map_fst_zip (by rw [List.length_take, frameOut_length]; omega)

/-- Settles O32: no pass of the frame loop writes the smoothing memory. -/
theorem smoothingDisabledKeepsMemory : Obligations.SmoothingDisabledKeepsMemory := by
  unfold Obligations.SmoothingDisabledKeepsMemory
  intro s xs h halpha
  refine ⟨_, exec_feed h xs, ?_⟩
  refine feedRun_induct (motive := fun u _ v => v.sm = u.sm) (fun u xs hr hlt => rfl) ?_ h xs
  intro u xs v hr hf hge ih
  obtain ⟨-, ⟨hb, hle⟩, -⟩ := spaInRange_iff.mp hr
  have hfilled := spaFill_keeps_inRange hr xs
  rw [accFill_of_full hb hle hge] at hfilled
  exact ih.trans (frameBins_sm_of_disabled halpha (spaInRange_iff.mp hfilled).2.2.2.1)

/-! ### One frame -/

/-- The row of the table that the window index selects. -/
theorem getElem?_weightsFor {sizes : List Nat} {p : Params} {u : Spa} (h : spaInRange sizes p u) :
    u.wlut[kindRow (kindOf u.win)]? = some (weightsFor u.wlut u.win) := by
  obtain ⟨-, -, -, -, -, -, hrows, -⟩ := spaInRange_iff.mp h
  have hk : kindRow (kindOf u.win) < u.wlut.length := by rw [hrows]; cases kindOf u.win <;> decide
  rw [weightsFor, List.getD_eq_getElem _ _ hk, List.getElem?_eq_getElem hk]

/-- FEED of a block that completes exactly one frame. -/
theorem feedRun_one_frame {sizes : List Nat} {p : Params} {u : Spa} (h : spaInv sizes p u) {xs : List F32}
    (hge : p.n ≤ u.acc.fill + xs.length) (hlt : u.acc.fill + xs.length < 2 * p.n) :
    let frame := contents u.acc ++ xs.take (p.n - u.acc.fill)
    let rest := xs.drop (p.n - u.acc.fill)
    (feedRun p u xs).1 = { spaFrame p { u with acc := { buf := frame, fill := p.n } } with
      acc := { buf := rest ++ frame.drop rest.length, fill := rest.length } } := by
  intro frame rest
  obtain ⟨-, ⟨hb, hle⟩, -⟩ := spaInRange_iff.mp h.1
  have hframe : (accFill p.n u.acc xs).1 = { buf := frame, fill := p.n } := by
    rw [accFill_of_full hb hle hge, ← contents_accFill hb hle, (accFill_parts hb hle xs).1]
  have hrest : rest.length < p.n := by rw [List.length_drop]; omega
  have hwf : Memory.wf p.n frame := by
    have := (accFill_keeps_wf hb hle xs).1
    rwa [hframe] at this
  rw [feedRun_frame h.2 hge, hframe, feedRun_partial]
  · rw [spaComplete_acc, accFill_accEmpty (acc := { buf := frame, fill := p.n }) hwf hrest.le]
    rfl
  · rw [spaComplete_acc, accEmpty_fill, Nat.zero_add]
    exact hrest

/-- Settles O24: windowed, transformed, and each bin through the pipeline. -/
theorem feedProcessesOneFrame : Obligations.FeedProcessesOneFrame := by
  unfold Obligations.FeedProcessesOneFrame
  intro s xs h hge hlt frame rest
  have hone := feedRun_one_frame h hge hlt
  obtain ⟨-, ⟨hb, hle⟩, -, hsm, -⟩ := spaInRange_iff.mp h.1
  simp only [Memory.wf] at hsm
  have hframe : frame.length = s.params.n := by
    rw [List.length_append, List.length_take, List.length_take]; simp only [Memory.wf] at hb; omega
  set u : Spa := { s.spa with acc := { buf := frame, fill := s.params.n } } with hu
  have hr : spaInRange s.fftSizes s.params u := by
    have hfilled := spaFill_keeps_inRange h.1 xs
    rwa [accFill_of_full hb hle hge, ← contents_accFill hb hle, (accFill_parts hb hle xs).1] at hfilled
  have hf := spaInRange_iff.mp (spaFrame_keeps_inRange hr)
  refine ⟨_, weightsFor s.spa.wlut s.spa.win, (frameWindowed u).1, (exec_feed h xs).trans ?_, congrArg Spa.acc hone,
    getElem?_weightsFor h.1, ?_, ?_, ?_⟩
  · rw [if_pos hge, statusWord_zero_one]
  · rw [frameWindowed, spaWindowed, drawMap_length, List.length_zip, weightsFor_length hr, hframe, Nat.min_self]
  · intro j x w hx hw
    obtain ⟨e, he⟩ := drawMap_getElem? (fun xw => fmul32 .spa xw.1 xw.2) (frame.zip (weightsFor s.spa.wlut s.spa.win))
      (spaTime u).2 j
    rw [List.getElem?_zip_eq_some (z := (x, w)) |>.mpr ⟨hx, hw⟩] at he
    exact ⟨_, he, isResult_settle ..⟩
  · intro out
    have hout : out = frameOut s.params u := by
      simp only [out, frameOut, frameInput, spaInput, realInput, List.map_map]; rfl
    rw [hone, hout]
    refine ⟨rfl, rfl, hf.2.2.2.1, hf.2.2.2.2.2.1, fun k hk => ?_⟩
    obtain ⟨sm, hsmk⟩ : ∃ sm, s.spa.sm[k]? = some sm := ⟨_, List.getElem?_eq_getElem (hsm.symm ▸ hk)⟩
    obtain ⟨bin, hbin⟩ : ∃ bin, (frameOut s.params u)[k]? = some bin :=
      ⟨_, List.getElem?_eq_getElem (by rw [frameOut_length]; omega)⟩
    obtain ⟨e, he⟩ := getElem?_frameBins (u := u) hk hsmk hbin
    refine ⟨sm, bin, (spaBin s.params sm bin e).1.1, (spaBin s.params sm bin e).1.2, hsmk, hbin, ?_, ?_,
      binResult_spaBin ..⟩
    · show (spaFrame s.params u).sm[k]? = _
      rw [spaFrame_sm, List.getElem?_map, he]; rfl
    · show (spaFrame s.params u).fsnap[k]? = _
      rw [spaFrame_fsnap, List.getElem?_map, he]; rfl

/-! ### Draws over a whole FEED -/

/-- A map with draws relates related lists, where the function relates related elements at every draw counter. -/
theorem drawMap_forall₂ {α β : Type} {f : α → Nat → β × Nat} {R : α → α → Prop} {S : β → β → Prop}
    (h : ∀ x y d e, R x y → S (f x d).1 (f y e).1) {xs ys : List α} (hxy : List.Forall₂ R xs ys) (d e : Nat) :
    List.Forall₂ S (drawMap f xs d).1 (drawMap f ys e).1 := by
  induction hxy generalizing d e with
  | nil => exact .nil
  | cons hx _ ih => exact .cons (h _ _ d e hx) (ih _ _)

theorem map_eq_map_of_forall₂ {α β : Type} {R : α → α → Prop} {g : α → β} (h : ∀ x y, R x y → g x = g y)
    {xs ys : List α} (hxy : List.Forall₂ R xs ys) : xs.map g = ys.map g := by
  induction hxy with
  | nil => rfl
  | cons hx _ ih => rw [List.map_cons, List.map_cons, h _ _ hx, ih]

/-- `v` is `u` with another draw counter and other NaNs in the smoothing memory. -/
def spaSameButDraws (u v : Spa) : Prop :=
  ∃ sm draws, v = { u with sm := sm, draws := draws } ∧ List.Forall₂ sameValue u.sm sm

theorem frameInput_congr {u v : Spa} (h : spaSameButDraws u v) : frameInput v = frameInput u := by
  obtain ⟨sm, draws, rfl, -⟩ := h
  have hsame : List.Forall₂ sameValue (frameWindowed { u with sm := sm, draws := draws }).1 (frameWindowed u).1 := by
    refine drawMap_forall₂ (R := Eq) (fun x y d e hxy => ?_) (List.forall₂_same.mpr fun _ _ => rfl) _ _
    rw [hxy]
    exact sameValue_settle ..
  exact congrArg realInput (map_eq_map_of_forall₂ (g := engineValue) (fun _ _ => engineValue_congr) hsame)

theorem frameOut_congr (p : Params) {u v : Spa} (h : spaSameButDraws u v) : frameOut p v = frameOut p u := by
  rw [frameOut, frameOut, frameInput_congr h]

theorem spaTime_congr {u v : Spa} (h : spaSameButDraws u v) : (spaTime v).1 = (spaTime u).1 := by
  obtain ⟨sm, draws, rfl, -⟩ := h
  have hbytes := fun d => drawMap_of_indep timeByte _ (fun x d => timeByte_indep x d 0) u.acc.buf d
  exact (hbytes draws).trans (hbytes u.draws).symm

theorem forall₂_zip {α β : Type} {R : α → α → Prop} {xs ys : List α} (h : List.Forall₂ R xs ys) (zs : List β) :
    List.Forall₂ (fun a b => R a.1 b.1 ∧ a.2 = b.2) (xs.zip zs) (ys.zip zs) := by
  induction h generalizing zs with
  | nil => exact .nil
  | cons hx _ ih =>
    cases zs with
    | nil => exact .nil
    | cons z zs => exact .cons ⟨hx, rfl⟩ (ih zs)

theorem frameBins_congr (p : Params) {u v : Spa} (h : spaSameButDraws u v) :
    List.Forall₂ (fun a b => a.2 = b.2 ∧ sameValue a.1 b.1) (frameBins p u) (frameBins p v) := by
  have hout := frameOut_congr p h
  obtain ⟨sm, draws, rfl, hsm⟩ := h
  rw [frameBins, frameBins, hout]
  refine drawMap_forall₂ (fun x y d e hxy => ?_) (forall₂_zip hsm _) _ _
  obtain ⟨hvalue, hbin⟩ := hxy
  rw [hbin]
  exact spaBin_congr p hvalue y.2 d e

/-- A completed frame by its parts. -/
theorem spaComplete_eq (p : Params) (u : Spa) :
    spaComplete p u = { u with
      acc := accEmpty u.acc
      tsnap := (spaTime u).1
      wre := (frameOut p u).map Prod.fst
      wim := (frameOut p u).map Prod.snd
      sm := (frameBins p u).map Prod.fst
      fsnap := (frameBins p u).map Prod.snd
      scratch := Config.scratchAfter p.n (frameInput u) u.scratch
      draws := (spaFrame p u).draws } := rfl

/-- A frame shows no draw but in the smoothing memory, and there only which NaN it is. -/
theorem spaComplete_sameButDraws (p : Params) {u v : Spa} (h : spaSameButDraws u v) :
    spaSameButDraws (spaComplete p u) (spaComplete p v) := by
  have hbins := frameBins_congr p h
  have hbytes : (frameBins p v).map Prod.snd = (frameBins p u).map Prod.snd :=
    (map_eq_map_of_forall₂ (fun _ _ hab => hab.1) hbins).symm
  refine ⟨(frameBins p v).map Prod.fst, (spaFrame p v).draws, ?_, ?_⟩
  · rw [spaComplete_eq, spaComplete_eq, spaTime_congr h, frameOut_congr p h, hbytes, frameInput_congr h]
    obtain ⟨sm, draws, rfl, -⟩ := h
    rfl
  · exact List.forall₂_map_left_iff.mpr (List.forall₂_map_right_iff.mpr (hbins.imp fun _ _ hab => hab.2))

theorem feedLoop_sameButDraws (p : Params) (fuel : Nat) {u v : Spa} (h : spaSameButDraws u v) (rem : List F32)
    (b : Bool) :
    (feedLoop p fuel v rem b).2 = (feedLoop p fuel u rem b).2 ∧
    spaSameButDraws (feedLoop p fuel u rem b).1 (feedLoop p fuel v rem b).1 := by
  induction fuel generalizing u v rem b with
  | zero => exact ⟨rfl, h⟩
  | succ fuel ih =>
    have hacc : v.acc = u.acc := by obtain ⟨_, _, rfl, -⟩ := h; rfl
    have hfilled : spaSameButDraws { u with acc := (accFill p.n u.acc rem).1 }
        { v with acc := (accFill p.n u.acc rem).1 } := by
      obtain ⟨sm, draws, rfl, hsm⟩ := h
      exact ⟨sm, draws, rfl, hsm⟩
    simp only [feedLoop, hacc]
    split_ifs
    · exact ⟨rfl, spaComplete_sameButDraws p hfilled⟩
    · exact ih (spaComplete_sameButDraws p hfilled) _ _
    · exact ⟨rfl, hfilled⟩

/-- Settles O34: the bytes by the same values they come from, and FEED pass by pass. -/
theorem byteOutputsIgnoreDraws : Obligations.ByteOutputsIgnoreDraws := by
  unfold Obligations.ByteOutputsIgnoreDraws
  refine ⟨timeByte_indep, fun p sm sm2 bin d e h => spaBin_congr p h bin d e, fun s t xs sm2 e hsm hexec => ?_⟩
  obtain ⟨hr, rfl⟩ := execFeed_next.mp hexec
  have hr' : spaInRange s.fftSizes s.params { s.spa with sm := sm2, draws := e } := by
    rw [spaInRange_iff] at hr ⊢
    simpa only [Memory.wf, hsm.length_eq] using hr
  obtain ⟨hflag, sm', draws', hafter, hsm'⟩ := feedLoop_sameButDraws s.params (xs.length + 2)
    (v := { s.spa with sm := sm2, draws := e }) ⟨sm2, e, rfl, hsm⟩ xs false
  refine ⟨_, execFeed_next.mpr ⟨hr', rfl⟩, ?_, ?_⟩
  · simp only [respond_resps, feedRun, hflag]
  · simp only [respond_spa, feedRun, hafter]
    exact ⟨trivial, trivial, trivial, hsm'⟩

end Sys2Proof.Machine
end

section
/-!
PROOF. Rounding (44_window_numerics.md R180). A number of units is rounded to a multiple of its spacing, to the nearest
one, and below the significands of that spacing there is nothing nearer; so the rounded magnitude is the nearest of all,
the even one of two.
-/

namespace Sys2Proof.Machine

/-! ### The rounded quotient -/

/-- A rounded quotient is the floor, less than or just half a divisor below, or the next integer. -/
theorem roundQuot_cases (num : Nat) {den : Nat} (h : 0 < den) :
    ∃ q r, num = q * den + r ∧ r < den ∧
      ((roundQuot num den = q ∧ (2 * r < den ∨ (2 * r = den ∧ q % 2 = 0))) ∨
       (roundQuot num den = q + 1 ∧ (den < 2 * r ∨ (2 * r = den ∧ q % 2 = 1)))) := by
  refine ⟨num / den, num % den, (Nat.div_add_mod' num den).symm, Nat.mod_lt num h, ?_⟩
  unfold roundQuot
  split_ifs with hup
  · exact .inr ⟨rfl, hup⟩
  · exact .inl ⟨rfl, by omega⟩

/-- The distance of a multiple of the divisor from the number. -/
def quotDist (num den j : Nat) : ℤ := |((j * den : Nat) : ℤ) - num|

theorem quotDist_of_le {num den j q r : Nat} (hnum : num = q * den + r) (hj : j ≤ q) :
    quotDist num den j = ((q - j : Nat) : ℤ) * den + r := by
  obtain ⟨i, rfl⟩ := Nat.exists_eq_add_of_le hj
  have hle : ((j * den : Nat) : ℤ) - num ≤ 0 := by rw [hnum]; push_cast; nlinarith [Int.natCast_nonneg (i * den)]
  rw [quotDist, abs_of_nonpos hle, hnum, Nat.add_sub_cancel_left]
  push_cast; ring

theorem quotDist_of_lt {num den j q r : Nat} (hnum : num = q * den + r) (hr : r < den) (hj : q < j) :
    quotDist num den j = ((j - q : Nat) : ℤ) * den - r := by
  obtain ⟨i, rfl⟩ := Nat.exists_eq_add_of_lt hj
  have hle : 0 ≤ ((((q + i + 1) * den : Nat) : ℤ) - num) := by
    rw [hnum]; push_cast; nlinarith [Int.natCast_nonneg (i * den)]
  rw [quotDist, abs_of_nonneg hle, hnum, show q + i + 1 - q = i + 1 by omega]
  push_cast; ring

/-- The rounded quotient is a nearest integer, the even one of two. -/
theorem roundQuot_nearest (num : Nat) {den : Nat} (h : 0 < den) (j : Nat) :
    quotDist num den (roundQuot num den) ≤ quotDist num den j ∧
    (quotDist num den (roundQuot num den) = quotDist num den j → j ≠ roundQuot num den → roundQuot num den % 2 = 0) := by
  obtain ⟨q, r, hnum, hr, hcases⟩ := roundQuot_cases num h
  have hdown : quotDist num den q = r := by rw [quotDist_of_le hnum le_rfl]; simp
  have hup : quotDist num den (q + 1) = den - r := by rw [quotDist_of_lt hnum hr (Nat.lt_succ_self q)]; simp
  have hbelow : j < q → (den : ℤ) + r ≤ quotDist num den j := fun hj => by
    have h1 : (1 : ℤ) ≤ ((q - j : Nat) : ℤ) := by omega
    rw [quotDist_of_le hnum hj.le]; nlinarith
  have habove : q + 1 < j → 2 * (den : ℤ) - r ≤ quotDist num den j := fun hj => by
    have h2 : (2 : ℤ) ≤ ((j - q : Nat) : ℤ) := by omega
    rw [quotDist_of_lt hnum hr (by omega)]; nlinarith
  rcases Nat.lt_trichotomy j q with hj | rfl | hj
  · have := hbelow hj
    rcases hcases with ⟨he, hside⟩ | ⟨he, hside⟩ <;> rw [he] <;> omega
  · rcases hcases with ⟨he, hside⟩ | ⟨he, hside⟩ <;> rw [he] <;> omega
  · rcases Nat.lt_or_ge (q + 1) j with hj' | hj'
    · have := habove hj'
      rcases hcases with ⟨he, hside⟩ | ⟨he, hside⟩ <;> rw [he] <;> omega
    · obtain rfl : j = q + 1 := by omega
      rcases hcases with ⟨he, hside⟩ | ⟨he, hside⟩ <;> rw [he] <;> omega

/-- Rounding to an integer is monotone. -/
theorem roundQuot_mono {a b : Nat} (hab : a ≤ b) (den : Nat) : roundQuot a den ≤ roundQuot b den := by
  have hdiv := Nat.div_le_div_right (c := den) hab
  have ha := Nat.div_add_mod' a den
  have hb := Nat.div_add_mod' b den
  unfold roundQuot
  rcases Nat.lt_or_eq_of_le hdiv with hlt | heq
  · split_ifs <;> omega
  · rw [heq] at ha ⊢
    split_ifs <;> omega

/-! ### The spacing -/

theorem spacing_mono {a b : Nat} (hab : a ≤ b) (den : Nat) : spacing a den ≤ spacing b den := by
  have hdiv := Nat.div_le_div_right (c := den) hab
  have hlog : Nat.log2 (a / den) ≤ Nat.log2 (b / den) := by
    rw [Nat.log2_eq_log_two, Nat.log2_eq_log_two]; exact Nat.log_mono_right hdiv
  unfold spacing; omega

/-- Rounding is monotone. -/
theorem roundMag_mono {a b : Nat} (hab : a ≤ b) {den : Nat} (h : 0 < den) : roundMag a den ≤ roundMag b den := by
  obtain ⟨ha, -⟩ := significand_bounds a h
  obtain ⟨-, hb⟩ := significand_bounds b h
  rw [roundMag_eq, roundMag_eq]
  refine min_le_min_right _ ?_
  rcases Nat.lt_or_eq_of_le (spacing_mono hab den) with hlt | heq
  · omega
  · have hq : significand a den ≤ significand b den := by
      rw [significand, significand, heq]; exact roundQuot_mono hab _
    omega

/-- Rounding is monotone in the quotient. -/
theorem roundMag_mono_quot {a b c d : Nat} (hb : 0 < b) (hd : 0 < d) (h : a * d ≤ c * b) :
    roundMag a b ≤ roundMag c d := by
  rw [← roundMag_mul_right a b hd, ← roundMag_mul_right c d hb, Nat.mul_comm d b]
  exact roundMag_mono h (Nat.mul_pos hb hd)

/-- Different finite magnitudes are different numbers of units. -/
theorem magUnits_inj {m m' : Nat} (hm : m < infBits) (hm' : m' < infBits) (h : magUnits m = magUnits m') : m = m' := by
  rw [← roundMag_magUnits hm, ← roundMag_magUnits hm', h]

/-- A magnitude of at least `2^23` steps of a spacing is a multiple of that spacing. -/
theorem magUnits_multiple {m k : Nat} (h : 2 ^ 23 * 2 ^ k ≤ magUnits m) : ∃ j, magUnits m = j * 2 ^ k := by
  rcases magUnits_cases m with ⟨hm, he⟩ | ⟨e, n, -, hn, -, he⟩
  · have hpos := Nat.one_le_two_pow (n := k)
    rw [he] at h; omega
  · have hke : k ≤ e := by
      by_contra hlt
      have hpow : 2 ^ (e + 1) ≤ 2 ^ k := Nat.pow_le_pow_right (by norm_num) (by omega)
      have hlt24 : n * 2 ^ e < 2 ^ 24 * 2 ^ e := Nat.mul_lt_mul_of_pos_right hn (by positivity)
      rw [he] at h
      rw [Nat.pow_succ] at hpow; omega
    refine ⟨n * 2 ^ (e - k), ?_⟩
    rw [he, Nat.mul_assoc, ← Nat.pow_add, Nat.sub_add_cancel hke]

/-! ### Nearest magnitudes -/

/-- `R` is a magnitude nearest to `x` units, the even one of two. -/
def nearestMag (R : Nat) (x : ℝ) : Prop :=
  ∀ m, m < infBits → |(magUnits R : ℝ) - x| ≤ |(magUnits m : ℝ) - x| ∧
    (|(magUnits R : ℝ) - x| = |(magUnits m : ℝ) - x| → m ≠ R → R % 2 = 0)

/-- It is enough to be nearest among the multiples of the spacing: what is no multiple lies below the smallest
significand, and is further away than that one. -/
theorem nearestMag_of_multiples {k n : Nat} {x : ℝ} (hn : n ≤ 2 ^ 24) (hk : k = 0 ∨ 2 ^ 23 ≤ n)
    (hx : k = 0 ∨ (2 ^ 23 * 2 ^ k : ℝ) ≤ x) (hfin : k * 2 ^ 23 + n < infBits)
    (hnear : ∀ j : Nat, |(n * 2 ^ k : ℝ) - x| ≤ |(j * 2 ^ k : ℝ) - x| ∧
      (|(n * 2 ^ k : ℝ) - x| = |(j * 2 ^ k : ℝ) - x| → j ≠ n → n % 2 = 0)) :
    nearestMag (k * 2 ^ 23 + n) x := by
  intro m hm
  have hR : magUnits (k * 2 ^ 23 + n) = n * 2 ^ k := magUnits_of_significand k hn hk
  have heven : (k * 2 ^ 23 + n) % 2 = n % 2 := by omega
  rw [hR, heven]
  by_cases hmul : ∃ j, magUnits m = j * 2 ^ k
  · obtain ⟨j, hj⟩ := hmul
    rw [hj]
    push_cast
    refine ⟨(hnear j).1, fun htie hne => (hnear j).2 htie fun hjn => hne ?_⟩
    exact magUnits_inj hm hfin ((hj.trans (by rw [hjn])).trans hR.symm)
  · have hsmall : magUnits m < 2 ^ 23 * 2 ^ k := not_le.mp fun hle => hmul (magUnits_multiple hle)
    have hk0 : k ≠ 0 := by rintro rfl; exact hmul ⟨magUnits m, by simp⟩
    have hxk := hx.resolve_left hk0
    have hmlt : (magUnits m : ℝ) < 2 ^ 23 * 2 ^ k := by exact_mod_cast hsmall
    have hstrict : |(n * 2 ^ k : ℝ) - x| < |(magUnits m : ℝ) - x| := by
      refine lt_of_le_of_lt (hnear (2 ^ 23)).1 ?_
      push_cast
      rw [abs_of_nonpos (by linarith), abs_of_nonpos (by linarith)]
      linarith
    push_cast
    exact ⟨hstrict.le, fun htie => absurd htie hstrict.ne⟩

/-- Distances from a quotient, as distances from the numerator. -/
theorem abs_sub_quot (y num : ℝ) {den : ℝ} (h : 0 < den) : |y - num / den| = |y * den - num| / den := by
  rw [← abs_of_pos h, ← abs_div, abs_of_pos h, sub_div, mul_div_cancel_right₀ _ h.ne']

/-- The rounded significand is nearest among the multiples of its spacing. -/
theorem significand_nearest (num : Nat) {den : Nat} (h : 0 < den) (j : Nat) :
    |(significand num den * 2 ^ spacing num den : ℝ) - num / den| ≤ |(j * 2 ^ spacing num den : ℝ) - num / den| ∧
    (|(significand num den * 2 ^ spacing num den : ℝ) - num / den| = |(j * 2 ^ spacing num den : ℝ) - num / den| →
      j ≠ significand num den → significand num den % 2 = 0) := by
  have hden : (0 : ℝ) < den := by exact_mod_cast h
  have hdist : ∀ i : Nat, |(i * 2 ^ spacing num den : ℝ) - num / den| =
      (quotDist num (den * 2 ^ spacing num den) i : ℝ) / den := by
    intro i
    rw [abs_sub_quot _ _ hden, quotDist]
    push_cast
    congr 2; ring
  rw [hdist, hdist, div_le_div_iff_of_pos_right hden, div_left_inj' hden.ne', Int.cast_le, Int.cast_inj]
  exact roundQuot_nearest num (by positivity) j

/-- A finite rounded magnitude is its significand at its spacing. -/
theorem roundMag_eq_of_lt {num den : Nat} (hfin : roundMag num den < infBits) :
    roundMag num den = spacing num den * 2 ^ 23 + significand num den := by
  rw [roundMag_eq] at hfin ⊢
  exact Nat.min_eq_left (by omega)

/-- A finite rounded magnitude is nearest to its quotient (R180). -/
theorem nearestMag_roundMag (num : Nat) {den : Nat} (h : 0 < den) (hfin : roundMag num den < infBits) :
    nearestMag (roundMag num den) ((num : ℝ) / den) := by
  obtain ⟨hle, hge⟩ := significand_bounds num h
  have hden : (0 : ℝ) < den := by exact_mod_cast h
  have heq := roundMag_eq_of_lt hfin
  rw [heq] at hfin ⊢
  refine nearestMag_of_multiples hle hge ((spacing_bounds num h).2.imp id fun hb => ?_) hfin (significand_nearest num h)
  rw [le_div_iff₀ hden]
  have : ((2 ^ 23 * (den * 2 ^ spacing num den) : Nat) : ℝ) ≤ num := by exact_mod_cast hb
  push_cast at this
  linarith

/-- Settles O41: the distances of `nearestMag_roundMag`, times the denominator. -/
theorem roundingIsNearestTiesToEven : Obligations.RoundingIsNearestTiesToEven := by
  unfold Obligations.RoundingIsNearestTiesToEven
  intro num den h hfin m hm
  have hden : (0 : ℝ) < den := by exact_mod_cast h
  have hdist : ∀ i : Nat, |(magUnits i : ℝ) - num / den| = ((|((magUnits i * den : Nat) : ℤ) - num| : ℤ) : ℝ) / den := by
    intro i
    rw [abs_sub_quot _ _ hden]
    push_cast
    rfl
  have hnear := nearestMag_roundMag num h hfin m hm
  rwa [hdist, hdist, div_le_div_iff_of_pos_right hden, div_left_inj' hden.ne', Int.cast_le, Int.cast_inj] at hnear

/-! ### Overflow -/

/-- A quotient rounds up to `b + 1`, an even number, exactly from half a step below it. -/
theorem roundQuot_eq_succ_iff {num den b : Nat} (h : 0 < den) (hodd : b % 2 = 1) :
    b + 1 ≤ roundQuot num den ↔ (2 * b + 1) * den ≤ 2 * num := by
  obtain ⟨q, r, hnum, hr, hcases⟩ := roundQuot_cases num h
  have hexp : (2 * b + 1) * den = 2 * (b * den) + den := by ring
  rw [hexp]
  rcases Nat.lt_trichotomy b q with hb | rfl | hb
  · have hle : b * den + den ≤ q * den := by rw [← Nat.succ_mul]; exact Nat.mul_le_mul_right _ hb
    rcases hcases with ⟨he, -⟩ | ⟨he, -⟩ <;> rw [he] <;> omega
  · rcases hcases with ⟨he, hside⟩ | ⟨he, hside⟩ <;> rw [he] <;> omega
  · have hle : q * den + den ≤ b * den := by rw [← Nat.succ_mul]; exact Nat.mul_le_mul_right _ hb
    rcases hcases with ⟨he, -⟩ | ⟨he, hside⟩ <;> rw [he] <;> omega

/-- Settles O42: the greatest finite magnitude has spacing `2^253`; an overflow is a greater spacing, or at that one a
significand of `2^24`. -/
theorem roundingOverflowsToInfinity : Obligations.RoundingOverflowsToInfinity := by
  unfold Obligations.RoundingOverflowsToInfinity
  intro num den h
  obtain ⟨hle, hge⟩ := significand_bounds num h
  obtain ⟨hupper, hlower⟩ := spacing_bounds num h
  have hinf : roundMag num den = infBits ↔ infBits ≤ spacing num den * 2 ^ 23 + significand num den := by
    rw [roundMag_eq, min_eq_right_iff]
  have hpow : ∀ e e', e ≤ e' → den * 2 ^ e ≤ den * 2 ^ e' := fun e e' he =>
    Nat.mul_le_mul_left _ (Nat.pow_le_pow_right (by norm_num) he)
  have hbits : infBits = 255 * 2 ^ 23 := rfl
  rw [hinf, hbits]
  rcases Nat.lt_trichotomy (spacing num den) 253 with hk | hk | hk
  · have := hpow (spacing num den) 252 (by omega)
    constructor <;> intro hc
    · omega
    · exfalso; omega
  · have hsucc := roundQuot_eq_succ_iff (num := num) (den := den * 2 ^ 253) (b := 2 ^ 24 - 1) (by positivity) (by norm_num)
    have hsig : significand num den = roundQuot num (den * 2 ^ 253) := by rw [significand, hk]
    rw [← hsig] at hsucc
    rw [hk]
    constructor <;> intro hc
    · have := hsucc.mp (by omega)
      omega
    · have := hsucc.mpr (by omega)
      omega
  · have hk0 : spacing num den ≠ 0 := by omega
    have hover : (2 ^ 25 - 1) * 2 ^ 252 * den ≤ num :=
      calc (2 ^ 25 - 1) * 2 ^ 252 * den ≤ 2 ^ 23 * 2 ^ 254 * den := Nat.mul_le_mul_right _ (by norm_num)
        _ = 2 ^ 23 * (den * 2 ^ 254) := by ring
        _ ≤ 2 ^ 23 * (den * 2 ^ spacing num den) := Nat.mul_le_mul_left _ (hpow 254 _ hk)
        _ ≤ num := hlower.resolve_left hk0
    exact ⟨fun _ => hover, fun _ => by omega⟩

end Sys2Proof.Machine
end

section
/-!
PROOF. The five operations are correctly rounded (44_window_numerics.md R180): a nearest magnitude with the sign of the
exact result is a nearest value, and each operation rounds its exact result, the square root through the integer root
and whether it is exact.
-/

namespace Sys2Proof.Machine

/-! ### Nearest values -/

/-- The sign of a value, as a factor. -/
noncomputable def signFactor (s : Bool) : ℝ := if s then -1 else 1

@[simp] theorem signFactor_false : signFactor false = 1 := rfl

@[simp] theorem signFactor_true : signFactor true = -1 := rfl

theorem abs_signFactor_mul (s : Bool) (x : ℝ) : |signFactor s * x| = |x| := by cases s <;> simp

theorem signFactor_not (s : Bool) : signFactor (!s) = -signFactor s := by cases s <;> simp

theorem signFactor_bne (s t : Bool) : signFactor (s != t) = signFactor s * signFactor t := by
  cases s <;> cases t <;> simp

theorem realOf_eq (x : F32) : realOf x = signFactor (signOf x) * ((unitsOf x : ℝ) / 2 ^ 149) := by
  rw [realOf, valueOf]
  cases signOf x
  · simp
  · simp [neg_div]

theorem realOf_pack (s : Bool) {m : Nat} (h : m < 2 ^ 31) :
    realOf (pack s m) = signFactor s * ((magUnits m : ℝ) / 2 ^ 149) := by
  rw [realOf_eq, signOf_pack s h, unitsOf, magBits_pack s h]

theorem isFinite_iff (x : F32) : isFinite x = true ↔ magBits x < infBits := decide_eq_true_iff

theorem isFinite_pack (s : Bool) {m : Nat} (h : m < 2 ^ 31) : isFinite (pack s m) = true ↔ m < infBits := by
  rw [isFinite_iff, magBits_pack s h]

/-- A finite value is nearest to itself. -/
theorem isNearest_of_eq {v : F32} {x : ℝ} (hv : isFinite v = true) (h : realOf v = x) : isNearest v x := by
  subst h
  refine ⟨hv, fun w _ => ?_⟩
  rw [sub_self, abs_zero]
  exact ⟨abs_nonneg _, fun htie hne => absurd (sub_eq_zero.mp (abs_eq_zero.mp htie.symm)) hne⟩

/-- A nearest magnitude with the sign of the number is a nearest value: a value of the other sign is no nearer than its
magnitude. -/
theorem isNearest_pack (s : Bool) {R : Nat} {x : ℝ} (hR : R < infBits) (hx : 0 ≤ x) (h : nearestMag R x) :
    isNearest (pack s R) (signFactor s * (x / 2 ^ 149)) := by
  have hlt : R < 2 ^ 31 := hR.trans infBits_lt
  have hc : (0 : ℝ) < 2 ^ 149 := by positivity
  have hscale : ∀ y : ℝ, |signFactor s * (y / 2 ^ 149) - signFactor s * (x / 2 ^ 149)| = |y - x| / 2 ^ 149 := fun y => by
    rw [← mul_sub, abs_signFactor_mul, ← sub_div, abs_div, abs_of_pos hc]
  refine ⟨(isFinite_pack s hlt).mpr hR, fun w hw => ?_⟩
  have hm : magBits w < infBits := (isFinite_iff w).mp hw
  obtain ⟨hle, htie⟩ := h _ hm
  rw [realOf_pack s hlt, magBits_pack s hlt, realOf_eq w, hscale]
  by_cases hs : signOf w = s
  · rw [hs, hscale, div_le_div_iff_of_pos_right hc, div_left_inj' hc.ne', unitsOf]
    exact ⟨hle, fun he hne => htie he fun hmR => hne (by rw [hmR])⟩
  · have hother : signFactor (signOf w) = -signFactor s := by
      rw [← signFactor_not]; congr 1; cases hw' : signOf w <;> cases s <;> simp_all
    have hneg : signFactor (signOf w) * ((unitsOf w : ℝ) / 2 ^ 149) =
        signFactor s * (-(magUnits (magBits w) : ℝ) / 2 ^ 149) := by rw [hother, unitsOf]; ring
    have hV : (0 : ℝ) ≤ magUnits (magBits w) := Nat.cast_nonneg _
    have hfar : |-(magUnits (magBits w) : ℝ) - x| = magUnits (magBits w) + x := by
      rw [abs_of_nonpos (by linarith)]; ring
    have hnear : |(magUnits (magBits w) : ℝ) - x| ≤ magUnits (magBits w) + x :=
      abs_le.mpr ⟨by linarith, by linarith⟩
    rw [hneg, hscale, hfar, div_le_div_iff_of_pos_right hc, div_left_inj' hc.ne']
    refine ⟨hle.trans hnear, fun he hne => ?_⟩
    by_cases hmR : magBits w = R
    · have hzero := (h 0 (by decide)).1
      rw [hmR] at he hne
      rw [show magUnits 0 = 0 by decide, Nat.cast_zero, zero_sub, abs_neg, abs_of_nonneg hx] at hzero
      have hU : (magUnits R : ℝ) = 0 := le_antisymm (by linarith) (Nat.cast_nonneg _)
      exact absurd (by rw [hU]; ring) hne
    · exact htie (le_antisymm hle (he ▸ hnear)) hmR

/-- A finite rounding is nearest to its quotient with its sign. -/
theorem isNearest_roundMag (s : Bool) (num : Nat) {den : Nat} (h : 0 < den)
    (hfin : isFinite (pack s (roundMag num den)) = true) :
    isNearest (pack s (roundMag num den)) (signFactor s * ((num : ℝ) / den / 2 ^ 149)) := by
  have hR := (isFinite_pack s (roundMag_lt num den)).mp hfin
  exact isNearest_pack s hR (by positivity) (nearestMag_roundMag num h hR)

/-! ### Operands -/

theorem not_isNaN_of_isFinite {x : F32} (h : isFinite x = true) : isNaN x = false ∧ isInf x = false := by
  rcases classify x with ⟨-, -, hx⟩ | ⟨-, -, hx⟩ | ⟨hn, hi, -⟩
  · rw [h] at hx; cases hx
  · rw [h] at hx; cases hx
  · exact ⟨hn, hi⟩

theorem isZero_iff_unitsOf {x : F32} (h : isFinite x = true) : isZero x = true ↔ unitsOf x = 0 := by
  rw [isZero, decide_eq_true_iff]
  constructor
  · intro hm; rw [unitsOf, hm]; decide
  · intro hu
    by_contra hm
    exact (unitsOf_pos hm ((isFinite_iff x).mp h)).ne' hu

theorem signOf_flipSign (x : F32) : signOf (flipSign x) = !signOf x := by
  simp only [signOf, flipSign, BitVec.getLsbD_xor]
  exact Bool.xor_true _

theorem magBits_flipSign (x : F32) : magBits (flipSign x) = magBits x := by
  rw [magBits, flipSign, BitVec.toNat_xor, Nat.xor_mod_two_pow, magBits]
  exact Nat.xor_zero _

theorem isFinite_flipSign (x : F32) : isFinite (flipSign x) = isFinite x := by
  rw [isFinite, magBits_flipSign, isFinite]

theorem valueOf_flipSign (x : F32) : valueOf (flipSign x) = -valueOf x := by
  rw [valueOf, valueOf, signOf_flipSign, unitsOf, unitsOf, magBits_flipSign]
  cases signOf x <;> simp

theorem realOf_flipSign (x : F32) : realOf (flipSign x) = -realOf x := by
  rw [realOf, realOf, valueOf_flipSign, Int.cast_neg, neg_div]

/-! ### The operations on finite operands -/

theorem addCore_of_isFinite {a b : F32} (ha : isFinite a = true) (hb : isFinite b = true) :
    addCore a b = if valueOf a + valueOf b = 0 then some (if signOf a && signOf b then negZero else posZero)
      else some (pack (decide (valueOf a + valueOf b < 0)) (roundMag (valueOf a + valueOf b).natAbs 1)) := by
  simp [addCore, not_isNaN_of_isFinite ha, not_isNaN_of_isFinite hb]

theorem mulCore_of_isFinite {a b : F32} (ha : isFinite a = true) (hb : isFinite b = true) :
    mulCore a b = some (pack (signOf a != signOf b) (roundMag (unitsOf a * unitsOf b) (2 ^ 149))) := by
  simp [mulCore, not_isNaN_of_isFinite ha, not_isNaN_of_isFinite hb]

theorem divCore_of_isFinite {a b : F32} (ha : isFinite a = true) (hb : isFinite b = true) (h0 : isZero b = false) :
    divCore a b = some (pack (signOf a != signOf b) (roundMag (unitsOf a * 2 ^ 149) (unitsOf b))) := by
  simp [divCore, not_isNaN_of_isFinite ha, not_isNaN_of_isFinite hb, h0]

/-- An integer number of units with its sign. -/
theorem signFactor_mul_natAbs (v : ℤ) : signFactor (decide (v < 0)) * (v.natAbs : ℝ) = v := by
  rcases lt_or_ge v 0 with h | h
  · rw [decide_eq_true h, signFactor_true, Nat.cast_natAbs, abs_of_neg h]; push_cast; ring
  · rw [decide_eq_false h.not_gt, signFactor_false, Nat.cast_natAbs, abs_of_nonneg h, one_mul]

theorem addCore_nearest {a b c : F32} (ha : isFinite a = true) (hb : isFinite b = true) (hc : isFinite c = true)
    (h : addCore a b = some c) : isNearest c (realOf a + realOf b) := by
  have hsum : realOf a + realOf b = ((valueOf a + valueOf b : ℤ) : ℝ) / 2 ^ 149 := by
    rw [realOf, realOf]; push_cast; ring
  rw [addCore_of_isFinite ha hb] at h
  rw [hsum]
  split_ifs at h with h0 hs
  · obtain rfl := Option.some.inj h
    rw [h0]
    exact isNearest_of_eq hc (by rw [realOf, show valueOf negZero = 0 by decide])
  · obtain rfl := Option.some.inj h
    rw [h0]
    exact isNearest_of_eq hc (by rw [realOf, show valueOf posZero = 0 by decide])
  · obtain rfl := Option.some.inj h
    have hnear := isNearest_roundMag _ _ (Nat.zero_lt_one) hc
    rwa [Nat.cast_one, div_one, ← mul_div_assoc, signFactor_mul_natAbs] at hnear

theorem mulCore_nearest {a b c : F32} (ha : isFinite a = true) (hb : isFinite b = true) (hc : isFinite c = true)
    (h : mulCore a b = some c) : isNearest c (realOf a * realOf b) := by
  rw [mulCore_of_isFinite ha hb] at h
  obtain rfl := Option.some.inj h
  have hnear := isNearest_roundMag _ _ (by positivity) hc
  have hreal : realOf a * realOf b = signFactor (signOf a != signOf b) *
      (((unitsOf a * unitsOf b : Nat) : ℝ) / ((2 ^ 149 : Nat) : ℝ) / 2 ^ 149) := by
    rw [realOf_eq a, realOf_eq b, signFactor_bne]; push_cast; ring
  rwa [hreal]

theorem divCore_nearest {a b c : F32} (ha : isFinite a = true) (hb : isFinite b = true) (hc : isFinite c = true)
    (h : divCore a b = some c) (h0 : realOf b ≠ 0) : isNearest c (realOf a / realOf b) := by
  have hub : unitsOf b ≠ 0 := fun hu => h0 (by rw [realOf_eq, hu]; simp)
  have hz : isZero b = false := Bool.eq_false_iff.mpr fun hz => hub ((isZero_iff_unitsOf hb).mp hz)
  rw [divCore_of_isFinite ha hb hz] at h
  obtain rfl := Option.some.inj h
  have hnear := isNearest_roundMag _ _ (Nat.pos_of_ne_zero hub) hc
  have hbR : (unitsOf b : ℝ) ≠ 0 := by exact_mod_cast hub
  have hsb : signFactor (signOf b) ≠ 0 := by cases signOf b <;> simp
  have hss : signFactor (signOf b) * signFactor (signOf b) = 1 := by cases signOf b <;> simp
  have hreal : realOf a / realOf b = signFactor (signOf a != signOf b) *
      (((unitsOf a * 2 ^ 149 : Nat) : ℝ) / (unitsOf b : ℝ) / 2 ^ 149) := by
    rw [realOf_eq a, realOf_eq b, signFactor_bne, div_eq_iff (by positivity)]
    push_cast
    field_simp
    linear_combination (-(signFactor (signOf a) * (unitsOf a : ℝ) * 2 ^ 149)) * hss
  rwa [hreal]

/-! ### The square root -/

/-- The bits found so far stay a lower bound of the root, and the bits to come reach it. -/
theorem rootBits_spec (b m r : Nat) (hlo : r * r ≤ m) (hhi : m < (r + 2 ^ b) * (r + 2 ^ b)) :
    rootBits b m r * rootBits b m r ≤ m ∧ m < (rootBits b m r + 1) * (rootBits b m r + 1) := by
  induction b generalizing r with
  | zero => exact ⟨hlo, hhi⟩
  | succ b ih =>
    rw [rootBits]
    split_ifs with h
    · exact ih _ h (by rwa [Nat.add_assoc, ← Nat.two_mul, Nat.mul_comm 2, ← Nat.pow_succ])
    · exact ih _ hlo (not_le.mp h)

theorem intRoot_spec {m : Nat} (h : m < 2 ^ 214 * 2 ^ 214) :
    intRoot m * intRoot m ≤ m ∧ m < (intRoot m + 1) * (intRoot m + 1) :=
  rootBits_spec 214 m 0 (Nat.zero_le m) (by simpa only [Nat.zero_add] using h)

/-- Of two numbers the smaller one is nearer exactly below their midpoint. -/
theorem abs_sub_le_iff_of_lt {v w y : ℝ} (h : v < w) : |v - y| ≤ |w - y| ↔ 2 * y ≤ v + w := by
  rw [← sq_le_sq]
  constructor <;> intro hy <;> nlinarith

/-- Of two numbers the larger one is nearer exactly above their midpoint. -/
theorem abs_sub_le_iff_of_gt {v w y : ℝ} (h : w < v) : |v - y| ≤ |w - y| ↔ v + w ≤ 2 * y := by
  rw [← sq_le_sq]
  constructor <;> intro hy <;> nlinarith

/-- Two numbers are equally near exactly at their midpoint. -/
theorem abs_sub_eq_iff_of_ne {v w y : ℝ} (h : v ≠ w) : |v - y| = |w - y| ↔ v + w = 2 * y := by
  rcases lt_or_gt_of_ne h with hlt | hgt
  · rw [le_antisymm_iff, abs_sub_le_iff_of_lt hlt, abs_sub_le_iff_of_gt hlt, le_antisymm_iff, and_comm, add_comm w v]
  · rw [le_antisymm_iff, abs_sub_le_iff_of_gt hgt, abs_sub_le_iff_of_lt hgt, le_antisymm_iff, add_comm w v]

/-- Two numbers between the same consecutive integers lie on the same side of every integer midpoint: what is nearer to
one is strictly nearer to the other. -/
theorem nearer_of_same_gap {a b M r x y : ℝ} (hM : a + b = 2 * M) (hgap : M ≤ r ∨ r + 1 ≤ M) (hx : r < x ∧ x < r + 1)
    (hy : r < y ∧ y < r + 1) (hab : a ≠ b) (h : |a - y| ≤ |b - y|) : |a - x| < |b - x| := by
  obtain ⟨hx1, hx2⟩ := hx
  obtain ⟨hy1, hy2⟩ := hy
  refine lt_of_le_of_ne ?_ fun htie => ?_
  · rcases lt_or_gt_of_ne hab with hlt | hgt
    · rw [abs_sub_le_iff_of_lt hlt] at h ⊢
      rcases hgap with hg | hg <;> linarith
    · rw [abs_sub_le_iff_of_gt hgt] at h ⊢
      rcases hgap with hg | hg <;> linarith
  · rw [abs_sub_eq_iff_of_ne hab] at htie
    rcases hgap with hg | hg <;> linarith

/-- The root of a non-zero number of units is so large that its spacing is at least one unit. -/
theorem spacing_root_pos {r : Nat} (h : 2 ^ 24 ≤ r) : 1 ≤ spacing (2 * r + 1) 2 := by
  have hdiv : (2 * r + 1) / 2 = r := by omega
  have hlog : 24 ≤ Nat.log2 r := (Nat.le_log2 (by omega)).mpr h
  rw [spacing, hdiv]; omega

/-- The integer root, with one half more where it is not exact, rounds as the real root does. -/
theorem nearestMag_root {m r : Nat} (hlo : r * r ≤ m) (hhi : m < (r + 1) * (r + 1)) (hr : 2 ^ 24 ≤ r)
    (hfin : roundMag (2 * r + (if r * r = m then 0 else 1)) 2 < infBits) :
    nearestMag (roundMag (2 * r + (if r * r = m then 0 else 1)) 2) (Real.sqrt (m : ℝ)) := by
  split_ifs at hfin ⊢ with hexact
  · have hroot : Real.sqrt (m : ℝ) = ((2 * r + 0 : Nat) : ℝ) / (2 : Nat) := by
      rw [← hexact, Nat.cast_mul, Real.sqrt_mul_self (Nat.cast_nonneg r)]; push_cast; ring
    rw [hroot]
    exact nearestMag_roundMag _ (by norm_num) hfin
  · have hx1 : (r : ℝ) < Real.sqrt m := Real.lt_sqrt_of_sq_lt (by
      rw [sq]; exact_mod_cast lt_of_le_of_ne hlo hexact)
    have hx2 : Real.sqrt m < r + 1 := (Real.sqrt_lt' (by positivity)).mpr (by rw [sq]; exact_mod_cast hhi)
    obtain ⟨hle, hge⟩ := significand_bounds (2 * r + 1) (den := 2) (by norm_num)
    have hk := spacing_root_pos hr
    have hlower := (spacing_bounds (2 * r + 1) (den := 2) (by norm_num)).2
    have hnear := significand_nearest (2 * r + 1) (den := 2) (by norm_num)
    have heq := roundMag_eq_of_lt hfin
    rw [heq] at hfin ⊢
    obtain ⟨k, hk'⟩ := Nat.exists_eq_add_of_le' hk
    rw [hk'] at hge hlower hnear hfin ⊢
    generalize significand (2 * r + 1) 2 = n at *
    refine nearestMag_of_multiples hle hge (.inr ?_) hfin fun j => ?_
    · have hint : 2 ^ 23 * 2 ^ (k + 1) ≤ r := by
        have := hlower.resolve_left (Nat.succ_ne_zero k)
        omega
      have : ((2 ^ 23 * 2 ^ (k + 1) : Nat) : ℝ) ≤ r := by exact_mod_cast hint
      push_cast at this
      linarith
    · rcases eq_or_ne j n with rfl | hjn
      · exact ⟨le_rfl, fun _ hne => absurd rfl hne⟩
      · have hmid : (n * 2 ^ (k + 1) : ℝ) + j * 2 ^ (k + 1) = 2 * (((n + j) * 2 ^ k : Nat) : ℝ) := by
          push_cast; ring
        have hgap : (((n + j) * 2 ^ k : Nat) : ℝ) ≤ r ∨ (r : ℝ) + 1 ≤ (((n + j) * 2 ^ k : Nat) : ℝ) := by
          rcases Nat.lt_or_ge r ((n + j) * 2 ^ k) with h | h
          · exact .inr (by exact_mod_cast h)
          · exact .inl (by exact_mod_cast h)
        have hne : (n * 2 ^ (k + 1) : ℝ) ≠ j * 2 ^ (k + 1) := fun he =>
          hjn (by exact_mod_cast (mul_right_cancel₀ (by positivity) he).symm)
        have hy : (r : ℝ) < ((2 * r + 1 : Nat) : ℝ) / (2 : Nat) ∧ ((2 * r + 1 : Nat) : ℝ) / (2 : Nat) < r + 1 := by
          push_cast; constructor <;> linarith
        have hstrict := nearer_of_same_gap hmid hgap ⟨hx1, hx2⟩ hy hne (hnear j).1
        exact ⟨hstrict.le, fun htie => absurd htie hstrict.ne⟩

theorem nearestMag_rootMag {u : Nat} (hu : 0 < u) (hlt : u * 2 ^ 149 < 2 ^ 214 * 2 ^ 214) (hfin : rootMag u < infBits) :
    nearestMag (rootMag u) (Real.sqrt ((u * 2 ^ 149 : Nat) : ℝ)) := by
  obtain ⟨hlo, hhi⟩ := intRoot_spec hlt
  refine nearestMag_root hlo hhi ?_ hfin
  by_contra hsmall
  have hle : (intRoot (u * 2 ^ 149) + 1) * (intRoot (u * 2 ^ 149) + 1) ≤ 2 ^ 24 * 2 ^ 24 :=
    Nat.mul_le_mul (not_le.mp hsmall) (not_le.mp hsmall)
  have hbig : 2 ^ 24 * 2 ^ 24 ≤ u * 2 ^ 149 :=
    le_trans (by norm_num) (Nat.le_mul_of_pos_left (2 ^ 149) hu)
  exact absurd hhi (hle.trans hbig).not_gt

theorem sqrt_div_eq {x c : ℝ} (hx : 0 ≤ x) (hc : 0 < c) : Real.sqrt (x / c) = Real.sqrt (x * c) / c := by
  have hsq : x / c = x * c / c ^ 2 := by field_simp
  rw [hsq, Real.sqrt_div (mul_nonneg hx hc.le), Real.sqrt_sq hc.le]

theorem magUnits_lt {m : Nat} (h : m < infBits) : magUnits m < 2 ^ 24 * 2 ^ 253 := by
  have hbits : infBits = 255 * 2 ^ 23 := rfl
  rcases magUnits_cases m with ⟨hm, he⟩ | ⟨k, n, hn, hn', rfl, he⟩
  · rw [he]; omega
  · rw [he]
    calc n * 2 ^ k < 2 ^ 24 * 2 ^ k := Nat.mul_lt_mul_of_pos_right hn' (by positivity)
      _ ≤ 2 ^ 24 * 2 ^ 253 := Nat.mul_le_mul_left _ (Nat.pow_le_pow_right (by norm_num) (by omega))

theorem sqrtCore_nearest {a c : F32} (ha : isFinite a = true) (hc : isFinite c = true) (h : sqrtCore a = some c) :
    isNearest c (Real.sqrt (realOf a)) := by
  have hfin := not_isNaN_of_isFinite ha
  simp only [sqrtCore, hfin, Bool.false_eq_true, if_false] at h
  split_ifs at h with hz hs
  · obtain rfl := Option.some.inj h
    have h0 : realOf a = 0 := by rw [realOf_eq, (isZero_iff_unitsOf ha).mp hz]; simp
    exact isNearest_of_eq hc (by rw [h0, Real.sqrt_zero])
  · obtain rfl := Option.some.inj h
    have hu : 0 < unitsOf a := Nat.pos_of_ne_zero fun hu => hz ((isZero_iff_unitsOf ha).mpr hu)
    have hlt : unitsOf a * 2 ^ 149 < 2 ^ 214 * 2 ^ 214 :=
      calc unitsOf a * 2 ^ 149 < 2 ^ 24 * 2 ^ 253 * 2 ^ 149 :=
            Nat.mul_lt_mul_of_pos_right (magUnits_lt ((isFinite_iff a).mp ha)) (by positivity)
        _ ≤ 2 ^ 214 * 2 ^ 214 := by norm_num
    have hR := (isFinite_pack false (roundMag_lt _ _)).mp hc
    have hnear := isNearest_pack false hR (Real.sqrt_nonneg _) (nearestMag_rootMag hu hlt hR)
    have hreal : Real.sqrt (realOf a) = signFactor false * (Real.sqrt ((unitsOf a * 2 ^ 149 : Nat) : ℝ) / 2 ^ 149) := by
      rw [realOf_eq, Bool.eq_false_iff.mpr hs, signFactor_false, one_mul, one_mul,
        sqrt_div_eq (Nat.cast_nonneg _) (by positivity), Nat.cast_mul, Nat.cast_pow, Nat.cast_ofNat]
    rwa [hreal]

/-- Settles O43: subtraction is addition of the value with the opposite sign. -/
theorem arithmeticIsCorrectlyRounded : Obligations.ArithmeticIsCorrectlyRounded := by
  unfold Obligations.ArithmeticIsCorrectlyRounded
  intro a b c ha hb hc
  refine ⟨addCore_nearest ha hb hc, fun h => ?_, mulCore_nearest ha hb hc, divCore_nearest ha hb hc,
    sqrtCore_nearest ha hc⟩
  rw [sub_eq_add_neg, ← realOf_flipSign]
  exact addCore_nearest ha ((isFinite_flipSign b).trans hb) hc h

end Sys2Proof.Machine
end

section
/-!
PROOF. The window table (44_window_numerics.md R185 to R192). A weight is a rounded quotient; of a cosine window it is
the quotient that both bounds of the cosine round to, and between two numbers that round alike every number does.
-/

namespace Sys2Proof.Machine

/-! ### Rounded quotients -/

/-- The smallest multiple of one half step above the greatest finite value is far above one. -/
theorem roundMag_lt_of_le {num den : Nat} (h : 0 < den) (hle : num ≤ 2 ^ 200 * den) : roundMag num den < infBits := by
  refine lt_of_le_of_ne (roundMag_le _ _) fun hinf => ?_
  have hover := (roundingOverflowsToInfinity num den h).mp hinf
  have hbig : 2 ^ 200 * den < (2 ^ 25 - 1) * 2 ^ 252 * den := Nat.mul_lt_mul_of_pos_right (by norm_num) h
  omega

theorem rnd32_eq_pack (num den : Nat) : rnd32 num den = pack false (roundMag (num * 2 ^ 149) den) := by
  simp [rnd32, pack]

/-- The binary32 value of a quotient of at most 2 is nearest to it (R183). -/
theorem isNearest_rnd32 {num den : Nat} (h : 0 < den) (hle : num ≤ 2 * den) :
    isNearest (rnd32 num den) ((num : ℝ) / den) := by
  have hR : roundMag (num * 2 ^ 149) den < infBits := roundMag_lt_of_le h (by omega)
  have hnear := isNearest_pack false hR (by positivity) (nearestMag_roundMag _ h hR)
  rw [rnd32_eq_pack]
  convert hnear using 1
  rw [signFactor_false, one_mul, Nat.cast_mul, Nat.cast_pow, Nat.cast_ofNat]
  field_simp

/-- The exact quotient of equal numbers. -/
theorem rnd32_mul_right (num den : Nat) {c : Nat} (hc : 0 < c) : rnd32 (num * c) (den * c) = rnd32 num den := by
  rw [rnd32, rnd32, Nat.mul_right_comm, roundMag_mul_right _ _ hc]

/-- A value nearest to both ends of an interval is nearest to every number in it. -/
theorem isNearest_between {v : F32} {lo hi x : ℝ} (hlo : isNearest v lo) (hhi : isNearest v hi) (h1 : lo ≤ x)
    (h2 : x ≤ hi) : isNearest v x := by
  refine ⟨hlo.1, fun w hw => ?_⟩
  obtain ⟨hlo1, hlo2⟩ := hlo.2 w hw
  obtain ⟨hhi1, hhi2⟩ := hhi.2 w hw
  rcases lt_trichotomy (realOf v) (realOf w) with hlt | heq | hgt
  · rw [abs_sub_le_iff_of_lt hlt] at hhi1 ⊢
    refine ⟨by linarith, fun htie hne => hhi2 ?_ hne⟩
    rw [abs_sub_eq_iff_of_ne hlt.ne] at htie ⊢
    linarith
  · rw [heq]
    exact ⟨le_rfl, fun _ hne => absurd rfl hne⟩
  · rw [abs_sub_le_iff_of_gt hgt] at hlo1 ⊢
    refine ⟨by linarith, fun htie hne => hlo2 ?_ hne⟩
    rw [abs_sub_eq_iff_of_ne hgt.ne'] at htie ⊢
    linarith

/-! ### The bounds of the cosine -/

theorem cosStepLo_le (t c j : Nat) : cosStepLo t c j ≤ fixOne := Nat.sub_le ..

theorem cosStepHi_le (t c j : Nat) : cosStepHi t c j ≤ fixOne := Nat.sub_le ..

theorem cosBracket_le (terms tLo tHi j : Nat) :
    (cosBracket terms tLo tHi j).1 ≤ fixOne ∧ (cosBracket terms tLo tHi j).2 ≤ fixOne := by
  cases terms with
  | zero => exact ⟨Nat.zero_le _, le_rfl⟩
  | succ k => exact ⟨cosStepLo_le .., cosStepHi_le ..⟩

theorem cosQuarter_le (n m : Nat) : (cosQuarter n m).1 ≤ fixOne ∧ (cosQuarter n m).2 ≤ fixOne := cosBracket_le ..

/-- Both bounds lie between -1 and 1. -/
def withinOne (c : ℤ × ℤ) : Prop :=
  (-(fixOne : ℤ) ≤ c.1 ∧ c.1 ≤ fixOne) ∧ (-(fixOne : ℤ) ≤ c.2 ∧ c.2 ≤ fixOne)

theorem withinOne_self {c : ℤ} (h1 : -(fixOne : ℤ) ≤ c) (h2 : c ≤ fixOne) : withinOne (c, c) := ⟨⟨h1, h2⟩, h1, h2⟩

theorem withinOne_quarter (n m : Nat) :
    withinOne (((cosQuarter n m).1 : ℤ), ((cosQuarter n m).2 : ℤ)) ∧
    withinOne (-((cosQuarter n m).2 : ℤ), -((cosQuarter n m).1 : ℤ)) := by
  obtain ⟨h1, h2⟩ := cosQuarter_le n m
  refine ⟨⟨⟨?_, ?_⟩, ?_, ?_⟩, ⟨?_, ?_⟩, ?_, ?_⟩ <;> omega

theorem cosBounds_withinOne (n m : Nat) : withinOne (cosBounds n m) := by
  unfold cosBounds
  simp only
  split_ifs
  · exact withinOne_self (by omega) (by omega)
  · exact withinOne_self (by omega) (by omega)
  · exact withinOne_self (by omega) (by omega)
  · exact withinOne_self (by omega) (by omega)
  · exact withinOne_self (by omega) (by omega)
  · exact (withinOne_quarter ..).1
  · exact (withinOne_quarter ..).2
  · exact (withinOne_quarter ..).1
  · exact (withinOne_quarter ..).2

/-- Where the cosine is a multiple of one half its two bounds are one. -/
theorem cosBounds_of_rational {n m : Nat}
    (h : n = 0 ∨ 2 * n = m ∨ 4 * n = m ∨ 4 * n = 3 * m ∨ 6 * n = m ∨ 6 * n = 5 * m ∨ 3 * n = m ∨ 3 * n = 2 * m) :
    (cosBounds n m).1 = (cosBounds n m).2 := by
  unfold cosBounds
  simp only
  rw [apply_ite Prod.fst, apply_ite Prod.snd]
  split_ifs
  iterate 5 · rfl
  all_goals omega

/-! ### Weights of the cosine windows -/

/-- A cosine window as a function of the cosine (44_window_numerics.md R187 to R189). -/
noncomputable def weightOfCos (w : WindowKind) (x : ℝ) : ℝ :=
  match w with
  | .rectangular => 1
  | .bartlett => 1
  | .hanning => (1 - x) / 2
  | .hamming => (27 - 23 * x) / 50
  | .blackman => (17 + 25 * x + 8 * x ^ 2) / 50

/-- The windows whose weights come from the cosine. -/
def isCosineWindow (w : WindowKind) : Prop := w = .hanning ∨ w = .hamming ∨ w = .blackman

theorem weightReal_eq {w : WindowKind} (hw : isCosineWindow w) (r : ℝ) :
    weightReal w r = weightOfCos w (Real.cos (2 * Real.pi * r)) := by
  rcases hw with rfl | rfl | rfl
  · simp only [weightReal, weightOfCos]; ring
  · simp only [weightReal, weightOfCos]; ring
  · simp only [weightReal, weightOfCos]
    rw [show 4 * Real.pi * r = 2 * (2 * Real.pi * r) by ring, Real.cos_two_mul]; ring

/-- Each is monotone or antitone between -1 and 1, so a number between two others has a weight between theirs. -/
theorem weightOfCos_between (w : WindowKind) {lo x hi : ℝ} (h : -1 ≤ lo) (h1 : lo ≤ x) (h2 : x ≤ hi) :
    (weightOfCos w lo ≤ weightOfCos w x ∧ weightOfCos w x ≤ weightOfCos w hi) ∨
    (weightOfCos w hi ≤ weightOfCos w x ∧ weightOfCos w x ≤ weightOfCos w lo) := by
  cases w with
  | rectangular => exact .inl ⟨le_rfl, le_rfl⟩
  | bartlett => exact .inl ⟨le_rfl, le_rfl⟩
  | hanning => exact .inr ⟨by simp only [weightOfCos]; linarith, by simp only [weightOfCos]; linarith⟩
  | hamming => exact .inr ⟨by simp only [weightOfCos]; linarith, by simp only [weightOfCos]; linarith⟩
  | blackman => exact .inl ⟨by simp only [weightOfCos]; nlinarith, by simp only [weightOfCos]; nlinarith⟩

theorem fixOne_pos : 0 < fixOne := by rw [fixOne]; positivity

/-- A weight's numerator over its denominator is the window at the bound of the cosine. -/
theorem weightNum_div {w : WindowKind} (hw : isCosineWindow w) (c : ℤ) :
    (weightNum w c : ℝ) / weightDen w = weightOfCos w (c / fixOne) := by
  have hf : (fixOne : ℝ) ≠ 0 := by exact_mod_cast fixOne_pos.ne'
  rcases hw with rfl | rfl | rfl <;> simp only [weightNum, weightDen, weightOfCos] <;> push_cast <;> field_simp

/-- The numerators are non-negative and not above their denominators by more than a factor 2. -/
theorem weightNum_bounds {w : WindowKind} (hw : isCosineWindow w) {c : ℤ} (h1 : -(fixOne : ℤ) ≤ c) (h2 : c ≤ fixOne) :
    0 ≤ weightNum w c ∧ weightNum w c ≤ 2 * weightDen w ∧ 0 < weightDen w := by
  have hf := fixOne_pos
  rcases hw with rfl | rfl | rfl
  · simp only [weightNum, weightDen]; omega
  · simp only [weightNum, weightDen]; omega
  · simp only [weightNum, weightDen]
    push_cast
    exact ⟨by nlinarith, by nlinarith, by positivity⟩

/-- The weight at a bound of the cosine is nearest to the window there. -/
theorem isNearest_weightAt {w : WindowKind} (hw : isCosineWindow w) {c : ℤ} (h1 : -(fixOne : ℤ) ≤ c) (h2 : c ≤ fixOne) :
    isNearest (weightAt w c) (weightOfCos w (c / fixOne)) := by
  obtain ⟨hnn, hle, hpos⟩ := weightNum_bounds hw h1 h2
  have hnear := isNearest_rnd32 hpos (num := (weightNum w c).toNat) (by omega)
  have hcast : (((weightNum w c).toNat : Nat) : ℝ) = weightNum w c := by
    exact_mod_cast Int.toNat_of_nonneg hnn
  rwa [hcast, weightNum_div hw] at hnear

theorem weight_eq {w : WindowKind} (hw : isCosineWindow w) {n m : Nat}
    (h : weightAt w (cosBounds n m).1 = weightAt w (cosBounds n m).2) :
    weight w n m = weightAt w (cosBounds n m).1 := by
  rcases hw with rfl | rfl | rfl <;> exact if_pos h

/-- Where both bounds of the cosine round alike, the weight is nearest to the real one. -/
theorem isNearest_weight {w : WindowKind} (hw : isCosineWindow w) {n m : Nat} (hnm : n < m)
    (h : weightAt w (cosBounds n m).1 = weightAt w (cosBounds n m).2) :
    isNearest (weight w n m) (weightReal w ((n : ℝ) / m)) := by
  obtain ⟨⟨hlo1, hlo2⟩, hhi1, hhi2⟩ := cosBounds_withinOne n m
  obtain ⟨hcos1, hcos2⟩ := cosBounds_sound hnm
  have hf : (0 : ℝ) < fixOne := by exact_mod_cast fixOne_pos
  have hlo := isNearest_weightAt hw hlo1 hlo2
  have hhi := isNearest_weightAt hw hhi1 hhi2
  rw [← h] at hhi
  rw [weight_eq hw h, weightReal_eq hw]
  have hm1 : (-1 : ℝ) ≤ (cosBounds n m).1 / fixOne := by
    rw [le_div_iff₀ hf]
    have : ((-(fixOne : ℤ) : ℤ) : ℝ) ≤ (cosBounds n m).1 := by exact_mod_cast hlo1
    push_cast at this
    linarith
  rcases weightOfCos_between w hm1 ((div_le_iff₀ hf).mpr hcos1) ((le_div_iff₀ hf).mpr hcos2) with ⟨h1, h2⟩ | ⟨h1, h2⟩
  · exact isNearest_between hlo hhi h1 h2
  · exact isNearest_between hhi hlo h1 h2

/-! ### The other windows -/

theorem isNearest_rectangular (n m : Nat) :
    isNearest (weight .rectangular n m) (weightReal .rectangular ((n : ℝ) / m)) := by
  have hfin : isFinite one32 = true := by decide
  exact isNearest_of_eq hfin realOf_one32

theorem isNearest_bartlett {n m : Nat} (h : n < m) :
    isNearest (weight .bartlett n m) (weightReal .bartlett ((n : ℝ) / m)) := by
  have hm : (0 : ℝ) < m := by exact_mod_cast Nat.zero_lt_of_lt h
  have hhalf : (n : ℝ) / m < 1 / 2 ↔ 2 * n < m := by
    rw [div_lt_div_iff₀ hm (by norm_num), one_mul, mul_comm]; exact_mod_cast Iff.rfl
  simp only [weight, weightReal, hhalf]
  split_ifs with hlt
  · have hnear := isNearest_rnd32 (num := 2 * n) (Nat.zero_lt_of_lt h) (by omega)
    push_cast at hnear
    rwa [mul_div_assoc] at hnear
  · have hnear := isNearest_rnd32 (num := 2 * m - 2 * n) (Nat.zero_lt_of_lt h) (by omega)
    rw [Nat.cast_sub (by omega)] at hnear
    push_cast at hnear
    rwa [sub_div, mul_div_assoc, mul_div_assoc, div_self hm.ne', mul_one] at hnear

/-- Settles O31. -/
theorem windowWeightsAreNearest : Obligations.WindowWeightsAreNearest := by
  unfold Obligations.WindowWeightsAreNearest
  intro n m h
  refine ⟨isNearest_rectangular n m, isNearest_bartlett h, fun w => ?_⟩
  have hsettled : weightAt w (cosBounds n m).1 = weightAt w (cosBounds n m).2 →
      isNearest (weight w n m) (weightReal w ((n : ℝ) / m)) := by
    cases w with
    | rectangular => exact fun _ => isNearest_rectangular n m
    | bartlett => exact fun _ => isNearest_bartlett h
    | hanning => exact isNearest_weight (.inl rfl) h
    | hamming => exact isNearest_weight (.inr (.inl rfl)) h
    | blackman => exact isNearest_weight (.inr (.inr rfl)) h
  exact ⟨hsettled, fun hrational => hsettled (by rw [cosBounds_of_rational hrational])⟩

/-! ### Entries of the table -/

theorem windowTable_entry (w : WindowKind) {k n : Nat} (hk : k < n) :
    ((windowTable n)[kindRow w]?.bind fun row => row[k]?) = some (weight w k n) := by
  cases w <;> simp [windowTable, kindRow, hk]

theorem roundMag_zero (den : Nat) : roundMag 0 den = 0 := by simp [roundMag, spacing, roundQuot]

theorem rnd32_zero (den : Nat) : rnd32 0 den = 0x00000000#32 := by rw [rnd32, Nat.zero_mul, roundMag_zero]

theorem rnd32_self {n : Nat} (h : 0 < n) : rnd32 n n = 0x3F800000#32 := by
  have hone := rnd32_mul_right 1 1 h
  rw [Nat.one_mul] at hone
  rw [hone]; decide

/-- A cosine weight where the cosine is settled. -/
theorem weight_of_cos {w : WindowKind} (hw : isCosineWindow w) {n m : Nat} {c : ℤ} (h : cosBounds n m = (c, c)) :
    weight w n m = weightAt w c := by
  rw [weight_eq hw (by rw [h]), h]

theorem cosBounds_start (n : Nat) : cosBounds 0 n = ((fixOne : ℤ), (fixOne : ℤ)) := rfl

theorem cosBounds_middle {n : Nat} (h2 : 2 ≤ n) (heven : n % 2 = 0) :
    cosBounds (n / 2) n = (-(fixOne : ℤ), -(fixOne : ℤ)) := by
  rw [cosBounds, if_neg (by omega), if_pos (by omega)]

theorem cosBounds_quarter {n : Nat} (h2 : 2 ≤ n) (h4 : n % 4 = 0) : cosBounds (n / 4) n = (0, 0) := by
  rw [cosBounds, if_neg (by omega), if_neg (by omega), if_pos (by omega)]

/-- One quarter of the way up the Bartlett window. -/
theorem rnd32_half {n : Nat} (h2 : 2 ≤ n) (h4 : n % 4 = 0) : rnd32 (2 * (n / 4)) n = 0x3F000000#32 := by
  have hquot := rnd32_mul_right 1 2 (c := 2 * (n / 4)) (by omega)
  rw [Nat.one_mul, show 2 * (2 * (n / 4)) = n by omega] at hquot
  rw [hquot]; decide

/-- Settles O30: the cosine is 1, -1 and 0 at the three places. -/
theorem windowTableFixedEntries : Obligations.WindowTableFixedEntries := by
  unfold Obligations.WindowTableFixedEntries
  intro n heven h2 _ entry
  have hentry : ∀ (w : WindowKind) {k : Nat}, k < n → ∀ {v : F32}, weight w k n = v → entry (kindRow w) k = some v :=
    fun w _ hk _ hv => (windowTable_entry w hk).trans (congrArg some hv)
  have hhan : isCosineWindow .hanning := .inl rfl
  have hham : isCosineWindow .hamming := .inr (.inl rfl)
  have hbla : isCosineWindow .blackman := .inr (.inr rfl)
  have h0 : 0 < n := by omega
  have hhalf : n / 2 < n := by omega
  have hstart := cosBounds_start n
  have hmiddle := cosBounds_middle h2 heven
  refine ⟨fun k hk => hentry .rectangular hk rfl, fun k hk => hentry .bartlett hk rfl,
    hentry .bartlett h0 ?_, hentry .hanning h0 ?_, hentry .bartlett hhalf ?_, hentry .hanning hhalf ?_,
    hentry .hamming hhalf ?_, hentry .hamming h0 ?_, hentry .blackman h0 ?_, hentry .blackman hhalf ?_, fun h4 => ?_⟩
  · rw [weight, if_pos (by omega), Nat.mul_zero, rnd32_zero]
  · rw [weight_of_cos hhan hstart]; decide
  · rw [weight, if_neg (by omega), show 2 * n - 2 * (n / 2) = n by omega, rnd32_self h0]
  · rw [weight_of_cos hhan hmiddle]; decide
  · rw [weight_of_cos hham hmiddle]; decide
  · rw [weight_of_cos hham hstart]; decide
  · rw [weight_of_cos hbla hstart]; decide
  · rw [weight_of_cos hbla hmiddle]; decide
  · have hq : n / 4 < n := by omega
    have hquarter := cosBounds_quarter h2 h4
    refine ⟨hentry .bartlett hq ?_, hentry .hanning hq ?_, hentry .hamming hq ?_, hentry .blackman hq ?_⟩
    · rw [weight, if_pos (by omega), rnd32_half h2 h4]
    · rw [weight_of_cos hhan hquarter]; decide
    · rw [weight_of_cos hham hquarter]; decide
    · rw [weight_of_cos hbla hquarter]; decide

end Sys2Proof.Machine
end

section
/-!
PROOF. Special values (44_window_numerics.md R180, R197 to R203, 70_reset_and_hazards.md R263): what the operations do with
zeros, infinities and NaNs, and from it the magnitude, the decibels of the special magnitudes and the bin that sticks at
`-inf`.
-/

namespace Sys2Proof.Machine

/-! ### Zeros and infinities -/

theorem isZero_cases {x : F32} (h : isZero x = true) : x = posZero ∨ x = negZero := by
  have hx := pack_signOf_magBits x
  rw [show magBits x = 0 from of_decide_eq_true h] at hx
  cases hs : signOf x <;> rw [hs] at hx
  · exact .inl (hx.symm.trans (by decide))
  · exact .inr (hx.symm.trans (by decide))

theorem isInf_cases {x : F32} (h : isInf x = true) : x = posInf ∨ x = negInf := by
  have hx := pack_signOf_magBits x
  rw [show magBits x = infBits from of_decide_eq_true h] at hx
  cases hs : signOf x <;> rw [hs] at hx
  · exact .inl (hx.symm.trans (by decide))
  · exact .inr (hx.symm.trans (by decide))

theorem isZero_of_isInf {x : F32} (h : isInf x = true) : isZero x = false := by
  rcases isInf_cases h with rfl | rfl <;> decide

theorem isNaN_of_isInf {x : F32} (h : isInf x = true) : isNaN x = false := by
  rcases isInf_cases h with rfl | rfl <;> decide

theorem isInf_of_isNaN_false {x : F32} (h : isNaN x = false) (hfin : isFinite x = false) : isInf x = true := by
  rcases classify x with ⟨h', -, -⟩ | ⟨-, h', -⟩ | ⟨-, -, h'⟩
  · rw [h] at h'; cases h'
  · exact h'
  · rw [hfin] at h'; cases h'

/-! ### The operations on infinities -/

theorem addCore_of_isInf_left {x y : F32} (hx : isInf x = true) (hy : isNaN y = false)
    (h : isInf y = true → signOf x = signOf y) : addCore x y = some x := by
  cases hi : isInf y <;> simp_all [addCore, isNaN_of_isInf hx]

theorem addCore_of_isInf_right {x y : F32} (hy : isInf y = true) (hx : isNaN x = false)
    (h : isInf x = true → x = y) : addCore x y = some y := by
  cases hi : isInf x
  · simp [addCore, isNaN_of_isInf hy, hx, hy, hi]
  · rw [h hi]; exact addCore_of_isInf_left hy (isNaN_of_isInf hy) fun _ => rfl

theorem mulCore_of_isInf_left {x y : F32} (hx : isInf x = true) (hy : isNaN y = false) (h0 : isZero y = false) :
    mulCore x y = some (pack (signOf x != signOf y) infBits) := by
  simp [mulCore, hx, hy, h0, isNaN_of_isInf hx, isZero_of_isInf hx]

theorem mulCore_of_isInf_right {x y : F32} (hy : isInf y = true) (hx : isNaN x = false) (h0 : isZero x = false) :
    mulCore x y = some (pack (signOf x != signOf y) infBits) := by
  simp [mulCore, hx, hy, h0, isNaN_of_isInf hy, isZero_of_isInf hy]

theorem mulCore_inf_zero {x y : F32} (h : isInf x = true ∧ isZero y = true ∨ isZero x = true ∧ isInf y = true) :
    mulCore x y = none := by
  rcases h with ⟨hx, hy⟩ | ⟨hx, hy⟩ <;> simp [mulCore, hx, hy]

theorem divCore_of_isInf_left {x y : F32} (hx : isInf x = true) (hy : isFinite y = true) :
    divCore x y = some (pack (signOf x != signOf y) infBits) := by
  simp [divCore, hx, not_isNaN_of_isFinite hy, isNaN_of_isInf hx, isZero_of_isInf hx]

/-! ### Magnitudes -/

/-- A value that can be a magnitude: no NaN and not negative. -/
def isMagnitude (x : F32) : Prop := isNaN x = false ∧ signOf x = false

theorem isMagnitude_pack {m : Nat} (h : m ≤ infBits) : isMagnitude (pack false m) := by
  have hlt := lt_of_le_of_lt h infBits_lt
  refine ⟨?_, signOf_pack false hlt⟩
  rw [isNaN, magBits_pack false hlt]
  exact decide_eq_false h.not_gt

theorem valueOf_of_isMagnitude {x : F32} (h : isMagnitude x) : valueOf x = unitsOf x := by simp [valueOf, h.2]

/-- A square is a magnitude. -/
theorem isMagnitude_square {x : F32} (h : isNaN x = false) : ∃ y, mulCore x x = some y ∧ isMagnitude y := by
  cases hfin : isFinite x
  · have hinf := isInf_of_isNaN_false h hfin
    refine ⟨_, mulCore_of_isInf_left hinf h (isZero_of_isInf hinf), ?_⟩
    rw [bne_self_eq_false]; exact isMagnitude_pack le_rfl
  · refine ⟨_, mulCore_of_isFinite hfin hfin, ?_⟩
    rw [bne_self_eq_false]; exact isMagnitude_pack (roundMag_le _ _)

/-- The sum of two magnitudes is one. -/
theorem isMagnitude_add {x y : F32} (hx : isMagnitude x) (hy : isMagnitude y) :
    ∃ z, addCore x y = some z ∧ isMagnitude z := by
  cases hfx : isFinite x
  · exact ⟨x, addCore_of_isInf_left (isInf_of_isNaN_false hx.1 hfx) hy.1 fun _ => hx.2.trans hy.2.symm, hx⟩
  · cases hfy : isFinite y
    · refine ⟨y, addCore_of_isInf_right (isInf_of_isNaN_false hy.1 hfy) hx.1 fun hinf => ?_, hy⟩
      rw [(not_isNaN_of_isFinite hfx).2] at hinf; cases hinf
    · rw [addCore_of_isFinite hfx hfy, valueOf_of_isMagnitude hx, valueOf_of_isMagnitude hy]
      split_ifs with h0 hs
      · rw [hx.2] at hs; cases hs
      · exact ⟨_, rfl, isMagnitude_pack (Nat.zero_le infBits)⟩
      · refine ⟨_, rfl, ?_⟩
        rw [decide_eq_false (by omega)]
        exact isMagnitude_pack (roundMag_le _ _)

/-- The square root of a magnitude is one. -/
theorem isMagnitude_sqrt {x : F32} (hx : isMagnitude x) : ∃ y, sqrtCore x = some y ∧ isMagnitude y := by
  simp only [sqrtCore, hx.1, hx.2, Bool.false_eq_true, if_false]
  split_ifs
  · exact ⟨x, rfl, hx⟩
  · exact ⟨x, rfl, hx⟩
  · exact ⟨_, rfl, isMagnitude_pack (roundMag_le _ _)⟩

theorem isMagnitude_mag (u : Agent) {re im : F32} (hre : isNaN re = false) (him : isNaN im = false) (d : Nat) :
    isMagnitude (mag u re im d).1 := by
  obtain ⟨a, ha, hma⟩ := isMagnitude_square hre
  obtain ⟨b, hb, hmb⟩ := isMagnitude_square him
  obtain ⟨c, hc, hmc⟩ := isMagnitude_add hma hmb
  obtain ⟨r, hr, hmr⟩ := isMagnitude_sqrt hmc
  simpa [mag, fmul32, fadd32, fsqrt32, ha, hb, hc, hr] using hmr

/-- The magnitude of silence. -/
theorem mag_of_isZero (u : Agent) {re im : F32} (hre : isZero re = true) (him : isZero im = true) (d : Nat) :
    (mag u re im d).1 = posZero := by
  have hsquare : ∀ {x : F32}, isZero x = true → mulCore x x = some posZero := fun h => by
    rcases isZero_cases h with rfl | rfl <;> decide
  have hsum : addCore posZero posZero = some posZero := by decide
  have hroot : sqrtCore posZero = some posZero := by decide
  simp [mag, fmul32, fadd32, fsqrt32, hsquare hre, hsquare him, hsum, hroot]

/-- A NaN component goes through the sum of the squares and the root. -/
theorem isNaN_mag (u : Agent) {re im : F32} (h : isNaN re = true ∨ isNaN im = true) (d : Nat) :
    isNaN (mag u re im d).1 = true := by
  have hsum : ∀ e, isNaN (fadd32 u (fmul32 u re re d).1 (fmul32 u im im (fmul32 u re re d).2).1 e).1 = true := fun e => by
    rcases h with hre | him
    · have hprod : isNaN (fmul32 u re re d).1 = true := by
        rw [fmul32, mulCore_of_isNaN hre]; exact isNaN_settle_none ..
      rw [fadd32, addCore_of_isNaN hprod]; exact isNaN_settle_none ..
    · have hprod : ∀ e', isNaN (fmul32 u im im e').1 = true := fun e' => by
        rw [fmul32, mulCore_of_isNaN him]; exact isNaN_settle_none ..
      rw [fadd32, addCore_of_isNaN_right _ (hprod _)]; exact isNaN_settle_none ..
  simp only [mag]
  rw [fsqrt32, sqrtCore_of_isNaN (hsum _)]
  exact isNaN_settle_none ..

/-- Settles O40. -/
theorem magnitudeIsNeverNegative : Obligations.MagnitudeIsNeverNegative := by
  unfold Obligations.MagnitudeIsNeverNegative
  intro u re im d
  by_cases h : isNaN re = true ∨ isNaN im = true
  · have hnan := isNaN_mag u h d
    exact ⟨iff_of_true hnan h, fun hno => by rw [hnan] at hno; cases hno⟩
  · obtain ⟨hre, him⟩ := not_or.mp h
    obtain ⟨hno, hsign⟩ := isMagnitude_mag u (Bool.eq_false_iff.mpr hre) (Bool.eq_false_iff.mpr him) d
    exact ⟨iff_of_false (by rw [hno]; exact Bool.false_ne_true) h, fun _ => hsign⟩

/-! ### Decibels -/

/-- At least one unit does not round to zero. -/
theorem roundMag_pos {num den : Nat} (h : 0 < den) (hle : den ≤ num) : 0 < roundMag num den :=
  calc 0 < roundMag 1 1 := by decide
    _ ≤ roundMag num den := roundMag_mono_quot Nat.one_pos h (by omega)

/-- A legal length is a positive finite value (00_scope.md R9). -/
theorem cvt32_spec {n : Nat} (h2 : 2 ≤ n) (hn : n ≤ 2 ^ 24 - 2) :
    isFinite (cvt32 n) = true ∧ signOf (cvt32 n) = false ∧ isZero (cvt32 n) = false := by
  have hfin : roundMag (n * 2 ^ 149) 1 < infBits := roundMag_lt_of_le Nat.one_pos (by omega)
  have hpos : 0 < roundMag (n * 2 ^ 149) 1 := roundMag_pos Nat.one_pos (by omega)
  have hlt := hfin.trans infBits_lt
  rw [cvt32, rnd32_eq_pack, isFinite_pack false hlt, signOf_pack false hlt, isZero, magBits_pack false hlt]
  exact ⟨hfin, rfl, decide_eq_false hpos.ne'⟩

/-- A positive finite value over itself is 1. -/
theorem divCore_self {x : F32} (hfin : isFinite x = true) (h0 : isZero x = false) : divCore x x = some one32 := by
  have hpos : 0 < unitsOf x := unitsOf_pos (of_decide_eq_false h0) ((isFinite_iff x).mp hfin)
  have hround : roundMag (unitsOf x * 2 ^ 149) (unitsOf x) = roundMag (2 ^ 149) 1 := by
    rw [← roundMag_mul_right (2 ^ 149) 1 hpos, Nat.one_mul, Nat.mul_comm]
  rw [divCore_of_isFinite hfin hfin h0, bne_self_eq_false, hround]
  decide

theorem divCore_posZero {y : F32} (hfin : isFinite y = true) (hs : signOf y = false) (h0 : isZero y = false) :
    divCore posZero y = some posZero := by
  rw [divCore_of_isFinite (by decide) hfin h0, hs, show unitsOf posZero = 0 by decide, Nat.zero_mul, roundMag_zero]
  decide

theorem log10_32_posZero : log10_32 posZero = negInf := rfl

theorem log10_32_one32 : log10_32 one32 = posZero := rfl

theorem log10_32_posInf : log10_32 posInf = posInf := rfl

theorem toDb_eq {p : Params} {m q v : F32} (hq : divCore m (cvt32 p.n) = some q)
    (hv : mulCore twenty32 (log10_32 q) = some v) (d : Nat) : (toDb p m d).1 = v := by
  simp [toDb, norm, fdiv32, fmul32, hq, hv]

/-- The decibels of silence. -/
theorem toDb_posZero {p : Params} (h2 : 2 ≤ p.n) (hn : p.n ≤ 2 ^ 24 - 2) (d : Nat) : (toDb p posZero d).1 = negInf := by
  obtain ⟨hfin, hsign, h0⟩ := cvt32_spec h2 hn
  exact toDb_eq (divCore_posZero hfin hsign h0) (by rw [log10_32_posZero]; decide) d

theorem isNaN_toDb (p : Params) {m : F32} (h : isNaN m = true) (d : Nat) : isNaN (toDb p m d).1 = true := by
  have hq : isNaN (norm p m d).1 = true := by
    rw [norm, fdiv32, divCore_of_isNaN h]; exact isNaN_settle_none ..
  simp only [toDb]
  rw [fmul32, mulCore_of_isNaN_right _ (log10_32_of_isNaN hq)]
  exact isNaN_settle_none ..

/-- Settles O37: the quotients by `N` are `+0.0`, 1, `+inf` and a NaN, and these `log10_32` fixes. -/
theorem decibelSpecialValues : Obligations.DecibelSpecialValues := by
  unfold Obligations.DecibelSpecialValues
  intro sizes p d hp
  obtain ⟨-, ⟨⟨-, h2, hn, -⟩, -, -⟩, -⟩ := paramsLegal_iff.mp hp
  obtain ⟨hfin, hsign, h0⟩ := cvt32_spec h2 hn
  refine ⟨toDb_posZero h2 hn d, toDb_eq (divCore_self hfin h0) (by rw [log10_32_one32]; decide) d,
    toDb_eq (q := posInf) ?_ (by rw [log10_32_posInf]; decide) d, fun m hm => isNaN_toDb p hm d⟩
  exact (divCore_of_isInf_left (by decide) hfin).trans (by rw [hsign]; decide)

/-! ### Smoothing towards `-inf` -/

theorem magUnits_mono {a b : Nat} (hb : b < infBits) (h : a ≤ b) : magUnits a ≤ magUnits b := by
  by_contra hlt
  have hround := roundMag_mono (not_le.mp hlt).le Nat.one_pos
  rw [roundMag_magUnits hb, roundMag_magUnits (h.trans_lt hb)] at hround
  rw [le_antisymm h hround] at hlt
  exact hlt le_rfl

/-- Neither a NaN nor `+inf`: what a silent bin's smoothing memory starts from (70_reset_and_hazards.md R263). -/
def belowPosInf (x : F32) : Prop := isNaN x = false ∧ x ≠ posInf

theorem belowPosInf_negInf : belowPosInf negInf := ⟨by decide, by decide⟩

theorem addCore_negInf_right {x : F32} (hx : belowPosInf x) : addCore x negInf = some negInf :=
  addCore_of_isInf_right (by decide) hx.1 fun hinf => (isInf_cases hinf).resolve_left hx.2

theorem addCore_negInf_left {x : F32} (hx : belowPosInf x) : addCore negInf x = some negInf :=
  addCore_of_isInf_left (by decide) hx.1 fun hinf => by rw [(isInf_cases hinf).resolve_left hx.2]

/-- A smoothing factor: above 0 and at most 1. -/
def isFactor (f : F32) : Prop := signOf f = false ∧ 0 < magBits f ∧ magBits f ≤ magBits one32

theorem isFinite_of_isFactor {f : F32} (hf : isFactor f) : isFinite f = true :=
  (isFinite_iff f).mpr (hf.2.2.trans_lt (by decide))

theorem mulCore_negInf_factor {f : F32} (hf : isFactor f) : mulCore negInf f = some negInf := by
  have hzero : isZero f = false := decide_eq_false hf.2.1.ne'
  rw [mulCore_of_isInf_left (by decide) (not_isNaN_of_isFinite (isFinite_of_isFactor hf)).1 hzero, hf.1]
  decide

/-- Times a factor, a finite value stays finite: its magnitude does not grow. -/
theorem isFinite_mulCore_factor {x f : F32} (hx : isFinite x = true) (hf : isFactor f) :
    ∃ y, mulCore x f = some y ∧ isFinite y = true := by
  refine ⟨_, mulCore_of_isFinite hx (isFinite_of_isFactor hf), (isFinite_pack _ (roundMag_lt _ _)).mpr ?_⟩
  have hone : unitsOf f ≤ 2 ^ 149 := (magUnits_mono (by decide) hf.2.2).trans (by decide)
  calc roundMag (unitsOf x * unitsOf f) (2 ^ 149)
      ≤ roundMag (unitsOf x * 2 ^ 149) (1 * 2 ^ 149) := by
        rw [Nat.one_mul]; exact roundMag_mono (Nat.mul_le_mul_left _ hone) (by positivity)
    _ = magBits x := by rw [roundMag_mul_right _ _ (by positivity)]; exact roundMag_magUnits ((isFinite_iff x).mp hx)
    _ < infBits := (isFinite_iff x).mp hx

theorem belowPosInf_mulCore_factor {x f : F32} (hx : belowPosInf x) (hf : isFactor f) :
    ∃ y, mulCore x f = some y ∧ belowPosInf y := by
  cases hfin : isFinite x
  · rw [(isInf_cases (isInf_of_isNaN_false hx.1 hfin)).resolve_left hx.2]
    exact ⟨negInf, mulCore_negInf_factor hf, belowPosInf_negInf⟩
  · obtain ⟨y, hy, hfy⟩ := isFinite_mulCore_factor hfin hf
    refine ⟨y, hy, (not_isNaN_of_isFinite hfy).1, ?_⟩
    rintro rfl
    exact absurd hfy (by decide)

/-- With `0 < ALPHA < 1`, both `ALPHA` and `ONE_MINUS_ALPHA` are factors. -/
theorem isFactor_alpha {p : Params} (hfin : isFinite p.alpha = true) (h0 : 0 < valueOf p.alpha)
    (h1 : valueOf p.alpha < valueOf one32) : isFactor p.alpha ∧ isFactor (oneMinusAlpha p) := by
  have hone : valueOf one32 = 2 ^ 149 := by decide
  have hsign : signOf p.alpha = false := by
    cases hs : signOf p.alpha
    · rfl
    · simp only [valueOf, hs, if_true] at h0; omega
  have hval : valueOf p.alpha = unitsOf p.alpha := by simp [valueOf, hsign]
  have hmag : magBits p.alpha < infBits := (isFinite_iff _).mp hfin
  have hround1 : roundMag (2 ^ 149) 1 = magBits one32 := by decide
  have hnat : Int.natAbs (2 ^ 149 + -(unitsOf p.alpha : ℤ)) = 2 ^ 149 - unitsOf p.alpha := by omega
  have hdiff : oneMinusAlpha p = pack false (roundMag (2 ^ 149 - unitsOf p.alpha) 1) := by
    have hsub : subCore one32 p.alpha = some (pack false (roundMag (2 ^ 149 - unitsOf p.alpha) 1)) := by
      rw [subCore, addCore_of_isFinite (by decide) ((isFinite_flipSign _).trans hfin), valueOf_flipSign, hone, hval,
        if_neg (by omega), decide_eq_false (by omega), hnat]
    rw [oneMinusAlpha, hsub, Option.getD_some]
  refine ⟨⟨hsign, ?_, ?_⟩, ?_⟩
  · refine Nat.pos_of_ne_zero fun hm => ?_
    rw [hval, unitsOf, hm, show magUnits 0 = 0 by decide] at h0; omega
  · rw [← roundMag_magUnits hmag, ← hround1]
    exact roundMag_mono (by change unitsOf p.alpha ≤ _; omega) Nat.one_pos
  · rw [hdiff, isFactor, signOf_pack false (roundMag_lt _ _), magBits_pack false (roundMag_lt _ _), ← hround1]
    exact ⟨rfl, roundMag_pos Nat.one_pos (by omega), roundMag_mono (by omega) Nat.one_pos⟩

/-- With smoothing in force, a `-inf` on either side and nothing that opposes it on the other gives `-inf`
(44_window_numerics.md R201). -/
theorem smooth_negInf {p : Params} (ha : isFactor p.alpha) (hb : isFactor (oneMinusAlpha p)) {sm v : F32}
    (h : belowPosInf sm ∧ v = negInf ∨ sm = negInf ∧ belowPosInf v) (d : Nat) :
    (smooth p sm v d).1 = (negInf, negInf) := by
  have hz : isZero p.alpha = false := decide_eq_false ha.2.1.ne'
  rcases h with ⟨hsm, rfl⟩ | ⟨rfl, hv⟩
  · obtain ⟨y, hy, hby⟩ := belowPosInf_mulCore_factor hsm ha
    simp [smooth, smoothingEnabled, hz, fmul32, fadd32, hy, mulCore_negInf_factor hb, addCore_negInf_right hby]
  · obtain ⟨y, hy, hby⟩ := belowPosInf_mulCore_factor hv hb
    simp [smooth, smoothingEnabled, hz, fmul32, fadd32, hy, mulCore_negInf_factor ha, addCore_negInf_left hby]

end Sys2Proof.Machine
end

section
/-!
PROOF. The byte outputs (44_window_numerics.md R195, R196, R203). The byte of a scaled value depends on the exact result of
one product alone, and for magnitudes it is monotone in both of its factors.
-/

namespace Sys2Proof.Machine

/-! ### The byte of an operation's result -/

/-- The byte of an operation's result: 0 where it is a NaN. -/
def byteOfResult (r : Option F32) : Byte := r.elim 0 q8

theorem byteOfResult_none : byteOfResult none = 0 := rfl

theorem byteOfResult_some (t : F32) : byteOfResult (some t) = q8 t := rfl

theorem q8_settle (u : Agent) (r : Option F32) (d : Nat) : q8 (settle u r d).1 = byteOfResult r := by
  cases r with
  | some v => rfl
  | none => exact q8_of_isNaN (isNaN_settle_none u d)

theorem q8_of_signOf {t : F32} (h : signOf t = true) : q8 t = 0 := by
  unfold q8
  split_ifs <;> rfl

/-- The byte of a magnitude, as a number (R195). -/
def magByte (m : Nat) : Nat := if m = infBits then 255 else min 255 ((2 * magUnits m + 2 ^ 149) / 2 ^ 150)

theorem magByte_infBits : magByte infBits = 255 := if_pos rfl

theorem magByte_le (m : Nat) : magByte m ≤ 255 := by
  unfold magByte; split_ifs <;> omega

theorem magByte_zero : magByte 0 = 0 := by decide

theorem toNat_q8_pack {m : Nat} (h : m ≤ infBits) : (q8 (pack false m)).toNat = magByte m := by
  have hlt := lt_of_le_of_lt h infBits_lt
  rcases Nat.lt_or_eq_of_le h with hfin | rfl
  · rw [q8_of_isFinite ((isFinite_pack false hlt).mpr hfin), signOf_pack false hlt, if_neg Bool.false_ne_true, unitsOf,
      magBits_pack false hlt, magByte, if_neg hfin.ne, BitVec.toNat_ofNat]
    omega
  · decide

theorem magByte_mono {a b : Nat} (hb : b ≤ infBits) (h : a ≤ b) : magByte a ≤ magByte b := by
  rcases Nat.lt_or_eq_of_le hb with hfin | rfl
  · have hunits := magUnits_mono hfin h
    rw [magByte, if_neg (h.trans_lt hfin).ne, magByte, if_neg hfin.ne]
    omega
  · rw [magByte_infBits]; exact magByte_le a

/-! ### The byte of a product -/

theorem isZero_pack {m : Nat} (h : m ≤ infBits) : isZero (pack false m) = decide (m = 0) := by
  rw [isZero, magBits_pack false (lt_of_le_of_lt h infBits_lt)]

theorem isInf_pack {m : Nat} (h : m ≤ infBits) : isInf (pack false m) = decide (m = infBits) := by
  rw [isInf, magBits_pack false (lt_of_le_of_lt h infBits_lt)]

/-- A product is a NaN or a magnitude with the sign of the product. -/
theorem mulCore_cases (x y : F32) :
    mulCore x y = none ∨ ∃ m, m ≤ infBits ∧ mulCore x y = some (pack (signOf x != signOf y) m) := by
  unfold mulCore
  split_ifs
  · exact .inl rfl
  · exact .inl rfl
  · exact .inr ⟨infBits, le_rfl, rfl⟩
  · exact .inr ⟨_, roundMag_le _ _, rfl⟩

/-- A product of opposite signs has byte 0. -/
theorem byte_mul_of_signOf {x y : F32} (hx : signOf x = false) (hy : signOf y = true) : byteOfResult (mulCore x y) = 0 := by
  rcases mulCore_cases x y with h | ⟨m, hm, h⟩
  · rw [h, byteOfResult_none]
  · rw [h, byteOfResult_some]
    exact q8_of_signOf (by rw [signOf_pack _ (lt_of_le_of_lt hm infBits_lt), hx, hy]; rfl)

/-- The byte of the product of two magnitudes. -/
def productByte (a b : Nat) : Nat := (byteOfResult (mulCore (pack false a) (pack false b))).toNat

theorem productByte_le (a b : Nat) : productByte a b ≤ 255 := Nat.le_of_lt_succ (BitVec.isLt _)

theorem productByte_finite {a b : Nat} (ha : a < infBits) (hb : b < infBits) :
    productByte a b = magByte (roundMag (magUnits a * magUnits b) (2 ^ 149)) := by
  have hla := ha.trans infBits_lt
  have hlb := hb.trans infBits_lt
  rw [productByte, mulCore_of_isFinite ((isFinite_pack false hla).mpr ha) ((isFinite_pack false hlb).mpr hb),
    signOf_pack false hla, signOf_pack false hlb, bne_self_eq_false, unitsOf, unitsOf, magBits_pack false hla,
    magBits_pack false hlb, byteOfResult_some]
  exact toNat_q8_pack (roundMag_le _ _)

/-- Zero times anything has byte 0: times an infinity it is a NaN. -/
theorem productByte_zero {a b : Nat} (ha : a ≤ infBits) (hb : b ≤ infBits) (h : a = 0 ∨ b = 0) : productByte a b = 0 := by
  by_cases hinf : a = infBits ∨ b = infBits
  · have hnan : mulCore (pack false a) (pack false b) = none := mulCore_inf_zero (by
      rw [isInf_pack ha, isInf_pack hb, isZero_pack ha, isZero_pack hb]
      simp only [decide_eq_true_iff]
      omega)
    rw [productByte, hnan]; rfl
  · obtain ⟨ha', hb'⟩ := not_or.mp hinf
    have hprod : magUnits a * magUnits b = 0 := by
      rcases h with rfl | rfl
      · exact Nat.zero_mul _
      · exact Nat.mul_zero _
    rw [productByte_finite (lt_of_le_of_ne ha ha') (lt_of_le_of_ne hb hb'), hprod, roundMag_zero, magByte_zero]

/-- An infinity times anything but zero has byte 255. -/
theorem productByte_inf {a b : Nat} (ha : a ≤ infBits) (hb : b ≤ infBits) (ha0 : 0 < a) (hb0 : 0 < b)
    (h : a = infBits ∨ b = infBits) : productByte a b = 255 := by
  have hza : isZero (pack false a) = false := by rw [isZero_pack ha]; exact decide_eq_false ha0.ne'
  have hzb : isZero (pack false b) = false := by rw [isZero_pack hb]; exact decide_eq_false hb0.ne'
  have hprod : mulCore (pack false a) (pack false b) = some (pack false infBits) := by
    rcases h with rfl | rfl
    · rw [mulCore_of_isInf_left (by decide) (isMagnitude_pack hb).1 hzb, (isMagnitude_pack ha).2, (isMagnitude_pack hb).2]
      rfl
    · rw [mulCore_of_isInf_right (by decide) (isMagnitude_pack ha).1 hza, (isMagnitude_pack ha).2, (isMagnitude_pack hb).2]
      rfl
  rw [productByte, hprod, byteOfResult_some]
  exact toNat_q8_pack le_rfl

/-- The byte of a product grows with its right factor. -/
theorem productByte_mono {s a b : Nat} (hs : s ≤ infBits) (hb : b ≤ infBits) (h : a ≤ b) :
    productByte s a ≤ productByte s b := by
  rcases Nat.eq_zero_or_pos a with rfl | ha0
  · rw [productByte_zero hs (h.trans hb) (.inr rfl)]; exact Nat.zero_le _
  rcases Nat.eq_zero_or_pos s with rfl | hs0
  · rw [productByte_zero hs (h.trans hb) (.inl rfl)]; exact Nat.zero_le _
  by_cases hinf : s = infBits ∨ b = infBits
  · rw [productByte_inf hs hb hs0 (ha0.trans_le h) hinf]; exact productByte_le s a
  · obtain ⟨hs', hb'⟩ := not_or.mp hinf
    have hbf := lt_of_le_of_ne hb hb'
    rw [productByte_finite (lt_of_le_of_ne hs hs') (h.trans_lt hbf), productByte_finite (lt_of_le_of_ne hs hs') hbf]
    exact magByte_mono (roundMag_le _ _)
      (roundMag_mono (Nat.mul_le_mul_left _ (magUnits_mono hbf h)) (by positivity))

/-! ### The scale -/

/-- The magnitude bits of `MAX_DB - MIN_DB`. -/
def rangeBits (p : Params) : Nat := roundMag (valueOf p.maxDb - valueOf p.minDb).natAbs 1

/-- The difference of two finite values. -/
theorem subCore_of_lt {x y : F32} (hx : isFinite x = true) (hy : isFinite y = true) (h : valueOf y < valueOf x) :
    subCore x y = some (pack false (roundMag (valueOf x - valueOf y).natAbs 1)) := by
  rw [subCore, addCore_of_isFinite hx ((isFinite_flipSign y).trans hy), valueOf_flipSign, ← sub_eq_add_neg,
    if_neg (by omega), decide_eq_false (by omega)]

theorem posZero_eq_pack : posZero = pack false 0 := by decide

theorem rangeBits_pos {p : Params} (h : valueOf p.minDb < valueOf p.maxDb) : 0 < rangeBits p :=
  roundMag_pos Nat.one_pos (by omega)

/-- The magnitude bits of `SCALE` (R203). -/
def scaleBits (p : Params) : Nat :=
  if rangeBits p = infBits then 0 else roundMag (unitsOf twoFiftyFive32 * 2 ^ 149) (magUnits (rangeBits p))

theorem scaleBits_le (p : Params) : scaleBits p ≤ infBits := by
  unfold scaleBits
  split_ifs
  · exact Nat.zero_le _
  · exact roundMag_le _ _

theorem scale_eq {p : Params} (hmin : isFinite p.minDb = true) (hmax : isFinite p.maxDb = true)
    (h : valueOf p.minDb < valueOf p.maxDb) : scale p = pack false (scaleBits p) := by
  have hle : rangeBits p ≤ infBits := roundMag_le _ _
  have hlt := lt_of_le_of_lt hle infBits_lt
  rw [scale, subCore_of_lt hmax hmin h, Option.getD_some]
  change (divCore twoFiftyFive32 (pack false (rangeBits p))).getD posZero = _
  rcases Nat.lt_or_eq_of_le hle with hfin | hinf
  · have hzero : isZero (pack false (rangeBits p)) = false := by
      rw [isZero_pack hle]; exact decide_eq_false (rangeBits_pos h).ne'
    rw [divCore_of_isFinite (by decide) ((isFinite_pack false hlt).mpr hfin) hzero, Option.getD_some,
      signOf_pack false hlt, unitsOf, unitsOf, magBits_pack false hlt, scaleBits, if_neg hfin.ne]
    rfl
  · rw [scaleBits, if_pos hinf, hinf]; decide

/-- A finite `SCALE` times the range is 255 up to one part in `2^24`. -/
theorem scale_mul_range {p : Params} (hlt : valueOf p.minDb < valueOf p.maxDb) (hR : rangeBits p < infBits)
    (hS : scaleBits p < infBits) :
    509 * 2 ^ 148 * 2 ^ 149 ≤ magUnits (scaleBits p) * magUnits (rangeBits p) := by
  have hU0 : 0 < magUnits (rangeBits p) :=
    lt_of_lt_of_le (by decide) (magUnits_mono hR (rangeBits_pos hlt))
  have hUlt := magUnits_lt hR
  have hSeq : scaleBits p = roundMag (255 * 2 ^ 149 * 2 ^ 149) (magUnits (rangeBits p)) := by
    rw [scaleBits, if_neg hR.ne, show unitsOf twoFiftyFive32 = 255 * 2 ^ 149 by decide]
  rw [hSeq] at hS
  rw [hSeq, magUnits_roundMag _ hU0 hS, significand]
  obtain ⟨hupper, hspace⟩ := spacing_bounds (255 * 2 ^ 149 * 2 ^ 149) hU0
  generalize spacing (255 * 2 ^ 149 * 2 ^ 149) (magUnits (rangeBits p)) = k at *
  generalize magUnits (rangeBits p) = u at *
  obtain ⟨hnear, -⟩ := roundQuot_near (255 * 2 ^ 149 * 2 ^ 149) (den := u * 2 ^ k) (by positivity)
  generalize roundQuot (255 * 2 ^ 149 * 2 ^ 149) (u * 2 ^ k) = q at *
  rcases hspace with rfl | hspace
  · omega
  · have hprod : (2 * q + 1) * (u * 2 ^ k) = 2 * (q * 2 ^ k * u) + u * 2 ^ k := by ring
    rw [hprod] at hnear
    omega

/-- So its byte is 255, and that of an infinite `SCALE` is too. -/
theorem productByte_range {p : Params} (hlt : valueOf p.minDb < valueOf p.maxDb) (hS0 : 0 < scaleBits p) :
    productByte (scaleBits p) (rangeBits p) = 255 := by
  have hR : rangeBits p < infBits :=
    lt_of_le_of_ne (roundMag_le _ _) fun hR => by rw [scaleBits, if_pos hR] at hS0; exact hS0.false
  rcases Nat.lt_or_eq_of_le (scaleBits_le p) with hS | hinf
  · refine le_antisymm (productByte_le _ _) ?_
    rw [productByte_finite hS hR]
    calc 255 = magByte (roundMag (509 * 2 ^ 148) 1) := by decide
      _ = magByte (roundMag (509 * 2 ^ 148 * 2 ^ 149) (1 * 2 ^ 149)) := by rw [roundMag_mul_right _ _ (by positivity)]
      _ ≤ _ := magByte_mono (roundMag_le _ _) (by
          rw [Nat.one_mul]; exact roundMag_mono (scale_mul_range hlt hR hS) (by positivity))
  · exact productByte_inf (scaleBits_le p) hR.le hS0 (rangeBits_pos hlt) (.inl hinf)

/-! ### The frequency byte -/

/-- The byte of the decibels `v`, from their difference from `MIN_DB`. -/
theorem freqByte_eq {p : Params} {v g : F32} (h : subCore v p.minDb = some g) (d : Nat) :
    (freqByte p v d).1 = byteOfResult (mulCore (scale p) g) := by
  simp only [freqByte, fsub32, h, settle_some, fmul32, q8_settle]

theorem freqByte_isNaN (p : Params) {v : F32} (h : isNaN v = true) (d : Nat) : (freqByte p v d).1 = 0 := by
  simp only [freqByte, fsub32, subCore_of_isNaN h, fmul32]
  rw [q8_settle, mulCore_of_isNaN_right _ (isNaN_settle_none ..)]
  rfl

section Legal

variable {p : Params} (hmin : isFinite p.minDb = true) (hmax : isFinite p.maxDb = true)
  (hlt : valueOf p.minDb < valueOf p.maxDb)
include hmin hmax hlt

/-- Decibels above `MIN_DB`. -/
theorem freqByte_above {v : F32} (hv : isFinite v = true) (h : valueOf p.minDb < valueOf v) (d : Nat) :
    (freqByte p v d).1.toNat = productByte (scaleBits p) (roundMag (valueOf v - valueOf p.minDb).natAbs 1) := by
  rw [freqByte_eq (subCore_of_lt hv hmin h), scale_eq hmin hmax hlt]
  rfl

/-- Decibels at or below `MIN_DB`. -/
theorem freqByte_below {v : F32} (hv : isFinite v = true) (h : valueOf v ≤ valueOf p.minDb) (d : Nat) :
    (freqByte p v d).1 = 0 := by
  have hs : signOf (scale p) = false := by
    rw [scale_eq hmin hmax hlt]; exact (isMagnitude_pack (scaleBits_le p)).2
  have hsub := addCore_of_isFinite hv ((isFinite_flipSign p.minDb).trans hmin)
  rw [valueOf_flipSign] at hsub
  split_ifs at hsub with h0 hneg
  · rw [freqByte_eq hsub]; exact byte_mul_of_signOf hs (by decide)
  · rw [freqByte_eq hsub, scale_eq hmin hmax hlt, posZero_eq_pack]
    exact BitVec.eq_of_toNat_eq (productByte_zero (scaleBits_le p) (Nat.zero_le infBits) (.inr rfl))
  · rw [freqByte_eq hsub]
    exact byte_mul_of_signOf hs (by rw [signOf_pack _ (roundMag_lt _ _)]; exact decide_eq_true (by omega))

theorem freqByte_negInf (d : Nat) : (freqByte p negInf d).1 = 0 := by
  have hs : signOf (scale p) = false := by
    rw [scale_eq hmin hmax hlt]; exact (isMagnitude_pack (scaleBits_le p)).2
  have hflip := (isFinite_flipSign p.minDb).trans hmin
  have hsub : subCore negInf p.minDb = some negInf :=
    addCore_of_isInf_left (by decide) (not_isNaN_of_isFinite hflip).1 fun hinf => by
      rw [(not_isNaN_of_isFinite hflip).2] at hinf; cases hinf
  rw [freqByte_eq hsub]
  exact byte_mul_of_signOf hs (by decide)

theorem freqByte_mono {v w : F32} (hv : isFinite v = true) (hw : isFinite w = true) (h : valueOf v ≤ valueOf w) (d : Nat) :
    (freqByte p v d).1.toNat ≤ (freqByte p w d).1.toNat := by
  rcases le_or_gt (valueOf v) (valueOf p.minDb) with hlow | hhigh
  · rw [freqByte_below hmin hmax hlt hv hlow]; exact Nat.zero_le _
  · rw [freqByte_above hmin hmax hlt hv hhigh, freqByte_above hmin hmax hlt hw (hhigh.trans_le h)]
    exact productByte_mono (scaleBits_le p) (roundMag_le _ _) (roundMag_mono (by omega) Nat.one_pos)

theorem freqByte_maxDb (hS0 : 0 < scaleBits p) (d : Nat) : (freqByte p p.maxDb d).1 = 255 := by
  refine BitVec.eq_of_toNat_eq ?_
  rw [freqByte_above hmin hmax hlt hmax hlt]
  exact productByte_range hlt hS0

theorem freqByte_posInf (hS0 : 0 < scaleBits p) (d : Nat) : (freqByte p posInf d).1 = 255 := by
  have hflip := (isFinite_flipSign p.minDb).trans hmin
  have hsub : subCore posInf p.minDb = some posInf :=
    addCore_of_isInf_left (by decide) (not_isNaN_of_isFinite hflip).1 fun hinf => by
      rw [(not_isNaN_of_isFinite hflip).2] at hinf; cases hinf
  rw [freqByte_eq hsub, scale_eq hmin hmax hlt, show posInf = pack false infBits by decide]
  exact BitVec.eq_of_toNat_eq (productByte_inf (scaleBits_le p) le_rfl hS0 (by decide) (.inr rfl))

end Legal

/-- Settles O39. -/
theorem frequencyByteIsMonotone : Obligations.FrequencyByteIsMonotone := by
  unfold Obligations.FrequencyByteIsMonotone
  intro sizes p d v w hp hv hw h
  obtain ⟨-, ⟨-, ⟨hmin, hmax, hlt⟩, -⟩, -⟩ := paramsLegal_iff.mp hp
  exact freqByte_mono hmin hmax hlt hv hw h d

/-- Settles O38: above `MAX_DB` the byte is at least its byte, 255. -/
theorem frequencyByteEnds : Obligations.FrequencyByteEnds := by
  unfold Obligations.FrequencyByteEnds
  intro sizes p d hp
  obtain ⟨-, ⟨-, ⟨hmin, hmax, hlt⟩, -⟩, -⟩ := paramsLegal_iff.mp hp
  refine ⟨freqByte_below hmin hmax hlt hmin le_rfl d, freqByte_negInf hmin hmax hlt d,
    fun v hv => freqByte_isNaN p hv d, fun v hv h => freqByte_below hmin hmax hlt hv h.le d, fun hzero => ?_⟩
  have hS0 : 0 < scaleBits p := by
    rw [scale_eq hmin hmax hlt, isZero_pack (scaleBits_le p)] at hzero
    exact Nat.pos_of_ne_zero (of_decide_eq_false hzero)
  have hmaxByte := freqByte_maxDb hmin hmax hlt hS0 d
  refine ⟨hmaxByte, freqByte_posInf hmin hmax hlt hS0 d, fun v hv h => ?_⟩
  have hmono := freqByte_mono hmin hmax hlt hmax hv h.le d
  rw [hmaxByte] at hmono
  exact BitVec.eq_of_toNat_eq (le_antisymm (Nat.le_of_lt_succ (BitVec.isLt _)) hmono)

/-- Settles O33: silence has the decibels `-inf`, which the two factors keep and the byte shows as 0. -/
theorem silentBinSticksAtMinusInfinity : Obligations.SilentBinSticksAtMinusInfinity := by
  unfold Obligations.SilentBinSticksAtMinusInfinity
  intro sizes p d hp ha0 ha1
  obtain ⟨-, ⟨⟨-, h2, hn, -⟩, ⟨hmin, hmax, hlt⟩, hafin, -⟩, -⟩ := paramsLegal_iff.mp hp
  obtain ⟨ha, hb⟩ := isFactor_alpha hafin ha0 ha1
  have hbyte := freqByte_negInf hmin hmax hlt
  refine ⟨fun sm bin hsm hsm' hre him => ?_, fun v hv hv' => ⟨smooth_negInf ha hb (.inr ⟨rfl, hv, hv'⟩) d, hbyte d⟩⟩
  have hdb : (toDb p (mag .spa bin.1 bin.2 d).1 (mag .spa bin.1 bin.2 d).2).1 = negInf := by
    rw [mag_of_isZero .spa hre him]; exact toDb_posZero h2 hn _
  simp only [spaBin, hdb, smooth_negInf ha hb (.inl ⟨⟨hsm, hsm'⟩, rfl⟩), hbyte]
  rfl

/-! ### The time byte -/

/-- A finite magnitude is a significand below `2^24` times a power of two. -/
theorem magUnits_form (m : Nat) : ∃ n k, n < 2 ^ 24 ∧ magUnits m = n * 2 ^ k := by
  rcases magUnits_cases m with ⟨hm, he⟩ | ⟨k, n, -, hn, -, he⟩
  · exact ⟨m, 0, by omega, by rw [he, Nat.pow_zero, Nat.mul_one]⟩
  · exact ⟨n, k, hn, he⟩

theorem spacing_le {n k : Nat} (hn : n < 2 ^ 24) : spacing (n * 2 ^ k) 1 ≤ k := by
  rcases (spacing_bounds (n * 2 ^ k) Nat.one_pos).2 with h | h
  · omega
  · by_contra hlt
    have hpow : 2 ^ (k + 1) ≤ 2 ^ spacing (n * 2 ^ k) 1 := Nat.pow_le_pow_right (by norm_num) (by omega)
    have hnum : n * 2 ^ k < 2 ^ 24 * 2 ^ k := Nat.mul_lt_mul_of_pos_right hn (by positivity)
    rw [Nat.pow_succ] at hpow
    omega

/-- Short of an overflow, a power of two times a short significand is not rounded. -/
theorem magUnits_roundMag_exact {n k : Nat} (hn : n < 2 ^ 24) (hfin : roundMag (n * 2 ^ k) 1 < infBits) :
    magUnits (roundMag (n * 2 ^ k) 1) = n * 2 ^ k := by
  have hle := spacing_le (k := k) hn
  rw [magUnits_roundMag _ Nat.one_pos hfin, significand, Nat.one_mul]
  generalize spacing (n * 2 ^ k) 1 = j at hle
  obtain ⟨i, rfl⟩ := Nat.exists_eq_add_of_le hle
  rw [show n * 2 ^ (j + i) = n * 2 ^ i * 2 ^ j by ring, roundQuot_mul _ (by positivity)]

/-- The byte of 128 times a finite magnitude (R196). -/
theorem productByte_128 {m : Nat} (hm : m < infBits) :
    productByte (magBits oneTwentyEight32) m = min 255 ((2 ^ 8 * magUnits m + 2 ^ 149) / 2 ^ 150) := by
  obtain ⟨n, k, hn, hform⟩ := magUnits_form m
  have hround : roundMag (magUnits (magBits oneTwentyEight32) * magUnits m) (2 ^ 149) = roundMag (n * 2 ^ (k + 7)) 1 := by
    rw [← roundMag_mul_right (n * 2 ^ (k + 7)) 1 (c := 2 ^ 149) (by positivity),
      show magUnits (magBits oneTwentyEight32) = 2 ^ 7 * 2 ^ 149 by decide, hform, Nat.one_mul]
    congr 1; ring
  have hunits : 2 ^ 8 * magUnits m = 2 * (n * 2 ^ (k + 7)) := by rw [hform]; ring
  rw [productByte_finite (by decide) hm, hround, hunits]
  rcases Nat.lt_or_eq_of_le (roundMag_le (n * 2 ^ (k + 7)) 1) with hfin | hinf
  · rw [magByte, if_neg hfin.ne, magUnits_roundMag_exact hn hfin]
  · have hover := (roundingOverflowsToInfinity _ _ Nat.one_pos).mp hinf
    rw [hinf, magByte_infBits]
    omega

/-- The byte of 128 times a value. -/
def byte128 (u : F32) : Byte := byteOfResult (mulCore oneTwentyEight32 u)

theorem timeByte_eq {s u : F32} (h : isResult (addCore one32 s) u) (d : Nat) : (timeByte s d).1 = byte128 u := by
  have hsame : sameValue (fadd32 .spa one32 s d).1 u := by
    cases hsum : addCore one32 s with
    | some v => rw [hsum] at h; rw [fadd32, hsum]; exact .inl h.symm
    | none =>
      rw [hsum] at h; rw [fadd32, hsum]
      exact .inr ⟨isNaN_settle_none .., isNaN_of_isQuietNaN h⟩
  simp only [timeByte, fmul32]
  rw [q8_settle, mulCore_congr (sameValue_refl _) hsame, byte128]

theorem byte128_isNaN {u : F32} (h : isNaN u = true) : byte128 u = 0 := by
  rw [byte128, mulCore_of_isNaN_right _ h, byteOfResult_none]

theorem byte128_negative {u : F32} (h : signOf u = true) : byte128 u = 0 := byte_mul_of_signOf (by decide) h

theorem byte128_positive {u : F32} (hfin : isFinite u = true) (hs : signOf u = false) :
    (byte128 u).toNat = min 255 ((2 ^ 8 * unitsOf u + 2 ^ 149) / 2 ^ 150) := by
  have hu : u = pack false (magBits u) := by rw [← hs, pack_signOf_magBits]
  rw [unitsOf, ← productByte_128 ((isFinite_iff u).mp hfin), productByte, ← hu,
    show pack false (magBits oneTwentyEight32) = oneTwentyEight32 by decide]
  rfl

/-- The thresholds on a finite sum, by the closed form. -/
theorem byte128_finite_iff {u : F32} (hfin : isFinite u = true) :
    (byte128 u = 0 ↔ realOf u < 1 / 256) ∧ (byte128 u = 255 ↔ 1.98828125 ≤ realOf u) := by
  cases hs : signOf u with
  | true =>
    have hle := realOf_nonpos_of_signOf_true hs
    rw [byte128_negative hs]
    exact ⟨iff_of_true rfl (by linarith), iff_of_false (by decide) (by linarith)⟩
  | false =>
    have hbyte := byte128_positive hfin hs
    have hlow : realOf u < 1 / 256 ↔ unitsOf u < 2 ^ 141 := by
      rw [realOf_of_signOf_false hs, div_lt_iff₀ (by positivity),
        show (1 / 256 : ℝ) * 2 ^ 149 = ((2 ^ 141 : Nat) : ℝ) by norm_num, Nat.cast_lt]
    have hhigh : 1.98828125 ≤ realOf u ↔ 509 * 2 ^ 141 ≤ unitsOf u := by
      rw [realOf_of_signOf_false hs, le_div_iff₀ (by positivity),
        show (1.98828125 : ℝ) * 2 ^ 149 = ((509 * 2 ^ 141 : Nat) : ℝ) by norm_num, Nat.cast_le]
    rw [hlow, hhigh, ← BitVec.toNat_inj, ← BitVec.toNat_inj, hbyte]
    change (_ = 0 ↔ _) ∧ (_ = 255 ↔ _)
    constructor <;> omega

/-- The thresholds on every sum. -/
theorem byte128_iff (u : F32) :
    (byte128 u = 0 ↔ isNaN u = true ∨ u = negInf ∨ (isFinite u = true ∧ realOf u < 1 / 256)) ∧
    (byte128 u = 255 ↔ u = posInf ∨ (isFinite u = true ∧ 1.98828125 ≤ realOf u)) := by
  rcases classify u with ⟨hnan, hinf, hfin⟩ | ⟨-, hinf, -⟩ | ⟨hnan, hinf, hfin⟩
  · have hpos : u ≠ posInf := by rintro rfl; exact absurd hinf (by decide)
    rw [byte128_isNaN hnan]
    simp [hnan, hfin, hpos]
  · rcases isInf_cases hinf with rfl | rfl
    · have hno : ¬(isNaN posInf = true) ∧ ¬(posInf = negInf) ∧ ¬(isFinite posInf = true) := by decide
      exact ⟨iff_of_false (by decide) (by simp [hno]), iff_of_true (by decide) (.inl rfl)⟩
    · have hno : ¬(negInf = posInf) ∧ ¬(isFinite negInf = true) := by decide
      exact ⟨iff_of_true (by decide) (.inr (.inl rfl)), iff_of_false (by decide) (by simp [hno])⟩
  · have hpos : u ≠ posInf := by rintro rfl; exact absurd hinf (by decide)
    have hneg : u ≠ negInf := by rintro rfl; exact absurd hinf (by decide)
    simp only [hnan, hfin, hpos, hneg, Bool.false_eq_true, false_or, true_and]
    exact byte128_finite_iff hfin

/-- Settles O36. -/
theorem timeByteThresholds : Obligations.TimeByteThresholds := by
  unfold Obligations.TimeByteThresholds
  intro s u d h
  rw [timeByte_eq h]
  exact byte128_iff u

end Sys2Proof.Machine
end
